-- ==== Sys2Proof/Word.lean ====
section
/-! DEFINITION. The word of the cascade: 32 bits (R9), and the byte of a serialised word (R53). -/

namespace Sys2Proof

/-- A word is 32 bits, bit 0 the least significant (R9). A binary32 datum is the word that is its bit pattern
(R6: the two are in bijection), so samples, coefficients, float parameters and u32 operands all have this type. -/
abbrev Word := BitVec 32

/-- A byte of a word that is serialised (R53). -/
abbrev Byte := BitVec 8

end Sys2Proof
end

