-- ==== Sys2Proof/Config.lean ====
section
/-! DEFINITION. What an implementation fixes (R5, R8), the named constants of the spec, and the free values: opaque
constants with no body, of which nothing can be proved. -/

namespace Sys2Proof.Config

/-- Where a NaN was made: NaN patterns are free for each operation separately (U6, log entry 7). -/
inductive NanSource where
  | add | sub | mul | div | sqrt | sin | cos | exp10
  deriving DecidableEq, Repr

/-- FREE VALUE (U6): the sign and payload bits of the NaN an operation makes, as a function of the operation and its
operands. Log entry 7. -/
opaque nanBits : NanSource → Word → Word → Word

/-- FREE VALUE (R8, U11): which of the results that P1 to P4 allow `f32_sin` gives. Log entry 6. -/
opaque sinFree : Word → Word

/-- FREE VALUE (R8, U11): which of the results that P1 to P4 allow `f32_cos` gives. Log entry 6. -/
opaque cosFree : Word → Word

/-- FREE VALUE (R8, U11): which of the results that P1 to P4 allow `f32_exp10` gives. Log entry 6. -/
opaque exp10Free : Word → Word

/-- FREE VALUE (U3): the byte of `BUF` that a byte index holds while nothing has written it since reset. Log entry 8. -/
opaque bufPowerOn : Nat → Byte

/-- FREE VALUE (U12), unconstrained: `maxBlkHw` brings it into the range the spec sets. Log entry 5. -/
opaque maxBlkFree : Nat

/-- `MAXBLK_HW`, the capacity of the sample buffer in frames per channel: OPEN in R5. Every value from 1 to `2^31` is
possible, which is `1 <= MAXBLK_HW` and `MAXCH * MAXBLK_HW <= 2^32` (U12, R186). -/
def maxBlkHw : Nat := (8191 + maxBlkFree) % 2 ^ 31 + 1

/-- `MAXCH`, the largest member of `ALLOWED_CH` (R5). -/
abbrev maxCh : Nat := 2

/-- `ALLOWED_CH`, the channel counts PREPARE accepts (R5, R171). -/
def allowedCh : List Nat := [2]

/-- `FS_DEFAULT` = 44100.0 (R8). -/
def fsDefault : Word := 0x472C4400#32

/-- `Q_PASS`, the resonance of the pass bands: the binary32 nearest to √2 (R5, conflict C1). -/
def qPass : Word := 0x3FB504F3#32

/-- `TWO_PI` (R8). -/
def twoPi : Word := 0x40C90FDB#32

/-- `C049` (R8). -/
def c049 : Word := 0x3EFAE148#32

/-! The reset values `RST_<name>` of the parameter registers (R24, U13, log entry 2). -/

/-- `RST_HP_FREQ`, 20.0 Hz. -/
def rstHpFreq : Word := 0x41A00000#32
/-- `RST_HP_BYPASS`: given by the source (R24). -/
def rstHpBypass : Word := 0x00000001#32
/-- `RST_LS_FREQ`, 250.0 Hz. -/
def rstLsFreq : Word := 0x437A0000#32
/-- `RST_LS_GAIN`, 0.0 dB. -/
def rstLsGain : Word := 0x00000000#32
/-- `RST_LS_Q`, the binary32 nearest to 1/√2. -/
def rstLsQ : Word := 0x3F3504F3#32
/-- `RST_LS_BYPASS`. -/
def rstLsBypass : Word := 0x00000000#32
/-- `RST_P1_FREQ`, 500.0 Hz. -/
def rstP1Freq : Word := 0x43FA0000#32
/-- `RST_P1_GAIN`, 0.0 dB. -/
def rstP1Gain : Word := 0x00000000#32
/-- `RST_P1_Q`. -/
def rstP1Q : Word := 0x3F3504F3#32
/-- `RST_P1_BYPASS`. -/
def rstP1Bypass : Word := 0x00000000#32
/-- `RST_P2_FREQ`, 3000.0 Hz. -/
def rstP2Freq : Word := 0x453B8000#32
/-- `RST_P2_GAIN`, 0.0 dB. -/
def rstP2Gain : Word := 0x00000000#32
/-- `RST_P2_Q`. -/
def rstP2Q : Word := 0x3F3504F3#32
/-- `RST_P2_BYPASS`. -/
def rstP2Bypass : Word := 0x00000000#32
/-- `RST_HS_FREQ`, 8000.0 Hz. -/
def rstHsFreq : Word := 0x45FA0000#32
/-- `RST_HS_GAIN`, 0.0 dB. -/
def rstHsGain : Word := 0x00000000#32
/-- `RST_HS_Q`. -/
def rstHsQ : Word := 0x3F3504F3#32
/-- `RST_HS_BYPASS`. -/
def rstHsBypass : Word := 0x00000000#32
/-- `RST_LP_FREQ`, 20000.0 Hz. -/
def rstLpFreq : Word := 0x469C4000#32
/-- `RST_LP_BYPASS`: given by the source (R24). -/
def rstLpBypass : Word := 0x00000001#32

end Sys2Proof.Config
end

