-- ==== Sys2Proof/Machine/Float.lean ====
section
/-! DEFINITION. Binary32 arithmetic on words (R6, R7): every operation is computed exactly on integers and rounded once,
to nearest with ties to even. The unit of all exact magnitudes is `2^-149`, the smallest subnormal. -/

namespace Sys2Proof.Machine

/-- Bit 31, the sign (R6). -/
def fNeg (w : Word) : Bool := w.msb

/-- Bits 30:0, exponent and fraction read as one number: it orders the magnitudes. -/
def fMag (w : Word) : Nat := w.toNat % 2 ^ 31

/-- The magnitude bits of an infinity. -/
abbrev infMag : Nat := 0x7F800000

/-- Exponent all ones, fraction not zero. -/
def isNaN (w : Word) : Bool := decide (infMag < fMag w)

/-- Exponent all ones, fraction zero. -/
def isInf (w : Word) : Bool := decide (fMag w = infMag)

/-- Neither an infinity nor a NaN (R11). -/
def isFinite (w : Word) : Bool := decide (fMag w < infMag)

/-- `+0.0` or `-0.0`. -/
def isZero (w : Word) : Bool := decide (fMag w = 0)

/-- The magnitude of a finite word in units of `2^-149` (R6: bias 127, 23 fraction bits, subnormals kept). An infinity
gives `2^277`, above every finite magnitude, so that comparisons need no case for it. -/
def fUnits (w : Word) : Nat :=
  let e := fMag w / 2 ^ 23
  let f := fMag w % 2 ^ 23
  if e = 0 then f else (2 ^ 23 + f) * 2 ^ (e - 1)

/-- The signed value of a word that is no NaN, in units of `2^-149`; both zeros give 0. -/
def fInt (w : Word) : Int := if fNeg w then -(fUnits w : Int) else (fUnits w : Int)

/-- The word with this sign and these magnitude bits. -/
def fPack (neg : Bool) (mag : Nat) : Word := BitVec.ofNat 32 ((if neg then 2 ^ 31 else 0) + mag)

/-- How many low bits of the quotient `num / den` (in units) fall below a 24-bit significand. -/
def roundShift (num den : Nat) : Nat := (num / den).log2 - 23

/-- The magnitude bits of `num / den` units rounded down (towards zero). -/
def roundDown (num den : Nat) : Nat :=
  let k := roundShift num den
  min (k * 2 ^ 23 + num / (den * 2 ^ k)) infMag

/-- The magnitude bits of `num / den` units rounded up (away from zero). -/
def roundUp (num den : Nat) : Nat :=
  let k := roundShift num den
  min (k * 2 ^ 23 + (num / (den * 2 ^ k) + if num % (den * 2 ^ k) = 0 then 0 else 1)) infMag

/-- The magnitude bits of `num / den` units rounded to nearest, ties to even; an overflow gives the infinity (R7). A
carry out of the fraction runs into the exponent, which is the next magnitude. -/
def roundNearest (num den : Nat) : Nat :=
  let k := roundShift num den
  let d := den * 2 ^ k
  let q := num / d
  let r := num % d
  min (k * 2 ^ 23 + if 2 * r > d ∨ (2 * r = d ∧ q % 2 = 1) then q + 1 else q) infMag

/-- The quiet NaN an operation makes: exponent all ones, bit 22 set, sign and the other payload bits free (R7, U6). -/
def nanOf (src : Config.NanSource) (a b : Word) : Word :=
  (Config.nanBits src a b &&& 0x803FFFFF#32) ||| 0x7FC00000#32

/-- Unary minus flips the sign bit and never rounds (R7). -/
def fneg (a : Word) : Word := a ^^^ 0x80000000#32

/-- The sum of two words, a NaN named after `src` (addition and subtraction share it). An exact zero sum is `-0.0` only
when both operands are negative. -/
def addCore (nan : Word) (a b : Word) : Word :=
  if isNaN a || isNaN b then nan
  else if isInf a then (if isInf b && (fNeg a != fNeg b) then nan else a)
  else if isInf b then b
  else
    let z := fInt a + fInt b
    if z = 0 then fPack (fNeg a && fNeg b) 0 else fPack (decide (z < 0)) (roundNearest z.natAbs 1)

/-- Addition (R7). -/
def fadd (a b : Word) : Word := addCore (nanOf .add a b) a b

/-- Subtraction (R7): the sum with the negated second operand. -/
def fsub (a b : Word) : Word := addCore (nanOf .sub a b) a (fneg b)

/-- Multiplication (R7). -/
def fmul (a b : Word) : Word :=
  let neg := fNeg a != fNeg b
  if isNaN a || isNaN b then nanOf .mul a b
  else if isInf a || isInf b then (if isZero a || isZero b then nanOf .mul a b else fPack neg infMag)
  else fPack neg (roundNearest (fUnits a * fUnits b) (2 ^ 149))

/-- Division (R7, R142): a finite non-zero value over a zero is an infinity, 0/0 and inf/inf are NaN. -/
def fdiv (a b : Word) : Word :=
  let neg := fNeg a != fNeg b
  if isNaN a || isNaN b then nanOf .div a b
  else if isInf a then (if isInf b then nanOf .div a b else fPack neg infMag)
  else if isInf b then fPack neg 0
  else if isZero b then (if isZero a then nanOf .div a b else fPack neg infMag)
  else fPack neg (roundNearest (fUnits a * 2 ^ 149) (fUnits b))

/-- The integer square root, bit by bit from bit `i - 1` down; `r` is the root found so far. -/
def sqrtBits (n : Nat) : Nat → Nat → Nat
  | 0, r => r
  | i + 1, r => if (r + 2 ^ i) * (r + 2 ^ i) ≤ n then sqrtBits n i (r + 2 ^ i) else sqrtBits n i r

/-- The integer square root of `n < 2^430`. -/
def natSqrt (n : Nat) : Nat := sqrtBits n 215 0

/-- Square root (R7): a zero gives itself, a negative value a NaN, `+inf` itself. The root of `n` units lies strictly
between the integer root `s` and `s + 1` when it is not exact, and `(2s+1)/2` then rounds as it does. -/
def fsqrt (a : Word) : Word :=
  if isNaN a then nanOf .sqrt a 0#32
  else if isZero a then a
  else if fNeg a then nanOf .sqrt a 0#32
  else if isInf a then a
  else
    let n := fUnits a * 2 ^ 149
    let s := natSqrt n
    fPack false (roundNearest (2 * s + if s * s = n then 0 else 1) 2)

/-- `a < b`: false when an operand is a NaN (R7). -/
def flt (a b : Word) : Bool := !isNaN a && !isNaN b && decide (fInt a < fInt b)

/-- `a <= b`: false when an operand is a NaN (R7). -/
def fle (a b : Word) : Bool := !isNaN a && !isNaN b && decide (fInt a ≤ fInt b)

/-- `a > b`. -/
def fgt (a b : Word) : Bool := flt b a

/-- `a >= b`. -/
def fge (a b : Word) : Bool := fle b a

/-- The exact value of a finite word as a rational number: what the statements about rounding speak of. -/
def fVal (w : Word) : ℚ := (fInt w : ℚ) / 2 ^ 149

end Sys2Proof.Machine
end

