-- ==== Sys2Proof/Machine/Elementary.lean ====
section
/-! DEFINITION. The three configuration functions of the factory (R8). Each is a FREE VALUE, a function of its argument
alone, kept inside what the named properties P1 to P4 allow: an enclosure of the exact real value is computed in
fixed-point integers, its ends are rounded outward to binary32, and the free word is taken when it lies between them
(log entry 6). No result of the enclosure is ever the value itself. -/

namespace Sys2Proof.Machine

/-- Fraction bits of the fixed-point numbers of the enclosures. -/
abbrev fixBits : Nat := 320

/-- `1.0` in fixed point. -/
def fixOne : Nat := 2 ^ 320

/-- The error bound of an enclosure, in units of the last fixed-point bit: far above the sum of the rounding errors of
the series below, far below any binary32 spacing that matters. -/
def fixSlack : Nat := 1024

/-- `π/2` with 480 fraction bits, rounded down. -/
def halfPi480 : Nat :=
  0x1921fb54442d18469898cc51701b839a252049c1114cf98e804177d4c76273644a29410f31c6809bbdf2a33679a748636605614dbe4be286e9fc26ada

/-- `ln 10` with 320 fraction bits, rounded down. -/
def lnTen320 : Nat :=
  0x24d763776aaa2b05ba95b58ae0b4c28a38a3fb3e76977e43a0f187a0807c0b5ca58bc0b5ec6a04173

/-- The alternating series `term - term·t²/(m(m+1)) + …` in fixed point, `steps` terms: `sin` from `term = t, m = 2`,
`cos` from `term = 1, m = 1`. -/
def trigSeries (t2 : Nat) : Nat → Nat → Nat → Int
  | 0, _, _ => 0
  | steps + 1, m, term => (term : Int) - trigSeries t2 steps (m + 2) (term * t2 / fixOne / (m * (m + 1)))

/-- The series `term + term·y/m + term·y²/(m(m+1)) + …` in fixed point: `exp y` from `term = 1, m = 1`. -/
def expSeries (y : Nat) : Nat → Nat → Nat → Nat
  | 0, _, _ => 0
  | steps + 1, m, term => term + expSeries y steps (m + 1) (term * y / fixOne / m)

/-- The quadrant of a magnitude of `u` units: how many times `π/2` goes into it. -/
def quadrant (u : Nat) : Nat := (u * 2 ^ 331) / halfPi480

/-- What is left of a magnitude of `u` units after its quadrants, in fixed point. -/
def quadrantRest (u : Nat) : Nat := (u * 2 ^ 331) % halfPi480 / 2 ^ 160

/-- `sin` of the magnitude of `u` units turned on by `turn` quadrants, in fixed point; exact to `fixSlack`. -/
def trigFix (turn u : Nat) : Int :=
  let t := quadrantRest u
  let t2 := t * t / fixOne
  match (quadrant u + turn) % 4 with
  | 0 => trigSeries t2 60 2 t
  | 1 => trigSeries t2 60 1 fixOne
  | 2 => -trigSeries t2 60 2 t
  | _ => -trigSeries t2 60 1 fixOne

/-- The largest binary32 value not above `z` fixed-point units (as a word). -/
def wordBelow (z : Int) : Word :=
  if 0 ≤ z then fPack false (roundDown z.natAbs (2 ^ 171)) else fPack true (roundUp z.natAbs (2 ^ 171))

/-- The smallest binary32 value not below `z` fixed-point units (as a word). -/
def wordAbove (z : Int) : Word :=
  if 0 ≤ z then fPack false (roundUp z.natAbs (2 ^ 171)) else fPack true (roundDown z.natAbs (2 ^ 171))

/-- The free word when it lies between the two bounds, the lower bound otherwise: every word between them is possible. -/
def pickBetween (lo hi free : Word) : Word :=
  if isFinite free && fle lo free && fle free hi then free else lo

/-- A word brought between two bounds: P1 and P3 are kept this way whatever the enclosure says. -/
def keepBetween (lo hi w : Word) : Word :=
  if fle lo w then (if fle w hi then w else hi) else lo

/-- `1.0` and `-1.0`. -/
abbrev wOne : Word := 0x3F800000#32
abbrev wNegOne : Word := 0xBF800000#32

/-- The word of the same sign and the next smaller magnitude (of a word that is no zero). -/
def wordInward (x : Word) : Word := fPack (fNeg x) (fMag x - 1)

/-- The bounds P1 and P4 set for `f32_sin` at a finite argument. The sine is odd and is zero at a zero. Up to a magnitude
of `2^-20` (`2^129` units) it lies strictly between the argument and the next word inward, since
`|x| - |sin x| < |x|^3 / 6 < |x| * 2^-42`, which is less than any spacing there. -/
def sinBounds (x : Word) : Word × Word :=
  if isZero x then (0#32, 0#32)
  else if fUnits x ≤ 2 ^ 129 then (if fNeg x then (x, wordInward x) else (wordInward x, x))
  else
    let v := if fNeg x then -trigFix 0 (fUnits x) else trigFix 0 (fUnits x)
    (keepBetween wNegOne wOne (wordBelow (v - fixSlack)), keepBetween wNegOne wOne (wordAbove (v + fixSlack)))

/-- The bounds P1 and P4 set for `f32_cos` at a finite argument. The cosine is even and is one at a zero. -/
def cosBounds (x : Word) : Word × Word :=
  if isZero x then (wOne, wOne)
  else
    let v := trigFix 1 (fUnits x)
    (keepBetween wNegOne wOne (wordBelow (v - fixSlack)), keepBetween wNegOne wOne (wordAbove (v + fixSlack)))

/-- `f32_sin` (R8): a free value inside P1 and P4; a NaN at a NaN or an infinity. -/
def f32Sin (x : Word) : Word :=
  if isFinite x then pickBetween (sinBounds x).1 (sinBounds x).2 (Config.sinFree x) else nanOf .sin x 0#32

/-- `f32_cos` (R8): a free value inside P1 and P4; a NaN at a NaN or an infinity. -/
def f32Cos (x : Word) : Word :=
  if isFinite x then pickBetween (cosBounds x).1 (cosBounds x).2 (Config.cosFree x) else nanOf .cos x 0#32

/-- `10^x` rounded outward as magnitude bits, for `-46 < x < 39`: the integer part of `x` scales exactly, the fraction
`f` goes through `exp (f · ln 10)`. At an integer the fraction is zero and nothing is approximated: the slack is zero too,
so that a power of ten that is a binary32 value (`10^1` to `10^10`) is the one result. -/
def exp10Mags (x : Word) : Nat × Nat :=
  let n := fInt x / 2 ^ 149
  let f := (fInt x % 2 ^ 149).toNat
  let w := expSeries (f * 2 ^ 171 * lnTen320 / fixOne) 120 1 fixOne
  let slack := if f = 0 then 0 else fixSlack
  let up := 10 ^ n.toNat
  let down := 10 ^ (-n).toNat
  (roundDown ((w - slack) * up) (2 ^ 171 * down), roundUp ((w + slack) * up) (2 ^ 171 * down))

/-- The bounds P3 and P4 set for `f32_exp10` at a finite argument that is not zero. Above `10^39` every result is
`+inf`, below `10^-46` it is `+0` or the smallest subnormal; in `-0.75 … 0.75` it is kept in `0.125 … 8.0`, so that it is
finite and positive whatever the enclosure says. -/
def exp10Bounds (x : Word) : Word × Word :=
  if 39 * 2 ^ 149 ≤ fInt x then (fPack false infMag, fPack false infMag)
  else if fInt x ≤ -46 * 2 ^ 149 then (0#32, 1#32)
  else
    let m := exp10Mags x
    if fInt x ≤ 3 * 2 ^ 147 ∧ -3 * 2 ^ 147 ≤ fInt x then
      (keepBetween 0x3E000000#32 0x41000000#32 (fPack false m.1), keepBetween 0x3E000000#32 0x41000000#32 (fPack false m.2))
    else (fPack false m.1, fPack false m.2)

/-- The free word with its sign cleared when it lies between the two bounds (an infinity may), the lower bound
otherwise. -/
def pickPositive (lo hi free : Word) : Word :=
  let w := free &&& 0x7FFFFFFF#32
  if fle lo w && fle w hi then w else lo

/-- `f32_exp10` (R8): exactly 1.0 at both zeros (P2), a free value inside P3 and P4 at the other finite arguments, a NaN
at a NaN. Of an infinite argument R8 says nothing: the whole word is free there. -/
def f32Exp10 (x : Word) : Word :=
  if isNaN x then nanOf .exp10 x 0#32
  else if isInf x then Config.exp10Free x
  else if isZero x then wOne
  else pickPositive (exp10Bounds x).1 (exp10Bounds x).2 (Config.exp10Free x)

end Sys2Proof.Machine
end

