-- ==== Sys2Proof/Syntax.lean ====
section
/-! DEFINITION. The instructions: the six host commands and the five shape operations of the factory, one constructor for
each row of spec/opcode_table.json, and the small types of their fields. -/

namespace Sys2Proof

/-- The two command ports (R70): CMD belongs to the RT agent, CTL to the CP agent. -/
inductive Port where
  | cmd | ctl
  deriving DecidableEq, Repr

/-- The six bands in processing order (R21). -/
inductive Band where
  | hp | ls | p1 | p2 | hs | lp
  deriving DecidableEq, Repr

/-- The field of a parameter register (R22): `sel` of WRPARAM and RDPARAM. -/
inductive Field where
  | freq | gain | q | bypass
  deriving DecidableEq, Repr

/-- The member of a coefficient set (R30): `sel` of RDCOEF. -/
inductive Member where
  | b0 | b1 | b2 | a1 | a2
  deriving DecidableEq, Repr

/-- What RDSTAT reads (R75). -/
inductive StatSel where
  | st | fs | maxBlock | nch
  deriving DecidableEq, Repr

/-- The shape of a band (R83), in the order of the shape tags. -/
inductive Shape where
  | lowShelf | highShelf | peaking | highPass | lowPass
  deriving DecidableEq, Repr

/-- An instruction. Operand words are carried whole (R76). -/
inductive Instr where
  /-- Configure the engine and restart the stream (R170). -/
  | prepare (fs maxBlock nch : Word)
  /-- Filter one block in place (R173). -/
  | process (frameCount : Word)
  /-- Write one parameter register (R100). -/
  | wrparam (band : Band) (field : Field) (data : Word)
  /-- Read one parameter register (R101). -/
  | rdparam (band : Band) (field : Field)
  /-- Read one coefficient (R102). -/
  | rdcoef (band : Band) (member : Member)
  /-- Read the status word or a configuration register (R103). -/
  | rdstat (sel : StatSel)
  /-- Shape tag 0, low shelf (R129). -/
  | coefLS
  /-- Shape tag 1, high shelf (R130). -/
  | coefHS
  /-- Shape tag 2, peaking (R131). -/
  | coefPK
  /-- Shape tag 3, high-pass (R132). -/
  | coefHP
  /-- Shape tag 4, low-pass (R133). -/
  | coefLP
  deriving DecidableEq, Repr

end Sys2Proof
end

