-- ==== Sys2Proof/Machine/State.lean ====
section
/-! DEFINITION. The state of the cascade as plain data (R20, R14), the reasons a step can stop, and the state after
reset (R35). -/

namespace Sys2Proof.Machine

/-- The 20 implemented parameter registers (R22). The unimplemented numbers 1, 2, 21, 22 have no storage and no name. -/
inductive Reg where
  | hpFreq | hpBypass
  | lsFreq | lsGain | lsQ | lsBypass
  | p1Freq | p1Gain | p1Q | p1Bypass
  | p2Freq | p2Gain | p2Q | p2Bypass
  | hsFreq | hsGain | hsQ | hsBypass
  | lpFreq | lpBypass
  deriving DecidableEq, Repr

/-- One word for each implemented parameter register, in ascending register number (R22): the parameter registers
themselves and the snapshot `PSNAP`. -/
abbrev ParamFile := Vector Word 20

/-- A coefficient set `(b0, b1, b2, a1, a2)`, normalised so that `a0 = 1` (R30). The number format is a parameter (D35):
the machine's is `Word`, the laws of R139, R141 and R153 speak of real numbers. -/
structure CoefSet (F : Type) where
  b0 : F
  b1 : F
  b2 : F
  a1 : F
  a2 : F
  deriving DecidableEq, Repr

/-- The pair of delay registers of one band and channel (R31). -/
structure Delay (F : Type) where
  s1 : F
  s2 : F
  deriving DecidableEq, Repr

/-- The configuration registers (R27). -/
structure Cfg where
  /-- `CFG.fs`, the effective sample rate. -/
  fs : Word
  /-- `CFG.maxBlock`, the frames per channel the buffer is laid out for. -/
  maxBlock : Word
  /-- `CFG.nch`, the channel count. -/
  nch : Word
  deriving DecidableEq, Repr

/-- The three implemented bits of the status word `ST` (R28); bits 31:3 have no storage. -/
structure Status where
  /-- Bit 0. -/
  prepared : Bool
  /-- Bit 1. -/
  rateSubst : Bool
  /-- Bit 2, sticky. -/
  err : Bool
  deriving DecidableEq, Repr

/-- The operands and the result of the factory's shape operations (R125, R129 to R133). The model's own field: the spec
gives an internal operation operands and a result and names no place for them (log entry 4). -/
structure Factory where
  cw : Word
  alpha : Word
  gain : Word
  result : CoefSet Word
  deriving DecidableEq, Repr

/-- `BUF` as byte cells `(byte index, byte)`, byte indexes strictly rising; word `a` is the bytes `4a .. 4a+3`, least
significant first (R50, R53, log entry 9). A byte index that is not listed has not been written since reset and has no
value in the list (U3, log entry 8). -/
abbrev Memory := List Host.Cell

/-- An access of the RT agent at the memory port (R52, R70). -/
inductive MemReq where
  | read (addr : Nat)
  | write (addr : Nat) (word : Word)
  deriving DecidableEq, Repr

/-- An access as it waits at the memory port, with its place in the RT agent's own order (R58 (d), log entry 25): `after`
is the number of words the RT agent had put on the CMD port before it, counted as `CMDPTR` counts. -/
structure MemAccess where
  after : Nat
  req : MemReq
  deriving DecidableEq, Repr

/-- One event of a sampling phase (R56): a read of one register, or a step of the CP agent's port between two reads. -/
inductive SampleTurn where
  | read (r : Reg)
  | ctl
  deriving DecidableEq, Repr

/-- Whose step is next (R202): the RT agent's, which is served in its own order at the CMD port and the memory port
(R58 (d)), the CP agent's at the CTL port, or one internal operation of the factory on its own, by its shape tag (R4, R83,
log entry 14). -/
inductive Turn where
  | rt
  | ctl
  | internal (tag : BitVec 3)
  deriving DecidableEq, Repr

/-- The state. -/
structure State where
  /-- The parameter registers `x` (R22, R23). -/
  params : ParamFile
  /-- `CFG` (R27). -/
  cfg : Cfg
  /-- `ST` (R28). -/
  st : Status
  /-- `COEF[b]`, by band index (R30). -/
  coef : Vector (CoefSet Word) 6
  /-- `S[b][ch]`, by band index and channel (R31). -/
  delay : Vector (Vector (Delay Word) Config.maxCh) 6
  /-- `PSNAP` (R32). -/
  psnap : ParamFile
  /-- Operands and result of the shape operations (the model's own, log entry 4). -/
  factory : Factory
  /-- `BUF` (R33, R50). -/
  buf : Memory
  /-- `CMDPTR` (R36). -/
  cmdPtr : Nat
  /-- The CTL port's own position (R36). -/
  ctlPtr : Nat
  /-- The port the command being executed came from (the model's own, log entry 10). -/
  port : Port
  /-- Words that have arrived on the CMD port and are not consumed, oldest first (log entry 10). -/
  cmdIn : List Word
  /-- Words that have arrived on the CTL port and are not consumed, oldest first (log entry 10). -/
  ctlIn : List Word
  /-- Words sent on the CMD port since reset, oldest first (R80, log entry 10). -/
  cmdOut : List Word
  /-- Words sent on the CTL port since reset, oldest first (R80, log entry 10). -/
  ctlOut : List Word
  /-- Accesses that wait at the memory port, oldest first (log entries 10 and 25). -/
  memIn : List MemAccess
  /-- Words given to the RT agent at the memory port since reset, oldest first (log entry 10). -/
  memOut : List Word
  /-- Whose the coming steps are (log entry 11). -/
  turns : List Turn
  /-- The events of the coming sampling phases, one list for each phase (log entry 12). -/
  sampling : List (List SampleTurn)
  deriving DecidableEq, Repr

/-- Why the machine stops with a fault. -/
inductive Fault where
  /-- Raised by the memory port alone, for an access outside `BUF`: R50 gives `BUF` the word addresses below
  `MAXCH × MAXBLK_HW` and no other memory exists. Safe: the spec gives such an access no effect (log entry 18). -/
  | noSuchBufWord
  deriving DecidableEq, Repr

/-- Why the model has no step. -/
inductive Refusal where
  /-- Raised by an arm of exec that has no meaning yet; no arm is left so. Safe. -/
  | notModelled (mnemonic : String)
  /-- Raised by the step when an internal operation is asked for by one of the shape tags 5 to 7, which R83 calls reserved
  and never produced. Safe: no effect is given. -/
  | reservedTag
  deriving DecidableEq, Repr

/-- The coefficient set and delay pair of all zero words (log entry 1). -/
def zeroCoefs : CoefSet Word := ⟨0#32, 0#32, 0#32, 0#32, 0#32⟩

/-- The pair `(+0.0, +0.0)`. -/
def zeroDelay : Delay Word := ⟨0#32, 0#32⟩

/-- The machine right after reset (R35, R210): Unprepared, no error, both stream positions 0, the parameter registers at
`RST_<name>` (R24); every field the spec leaves without a value at zero or empty (log entries 1, 3, 4, 8, 10, 11, 12). -/
def State.reset : State where
  params := #v[
    Config.rstHpFreq, Config.rstHpBypass,
    Config.rstLsFreq, Config.rstLsGain, Config.rstLsQ, Config.rstLsBypass,
    Config.rstP1Freq, Config.rstP1Gain, Config.rstP1Q, Config.rstP1Bypass,
    Config.rstP2Freq, Config.rstP2Gain, Config.rstP2Q, Config.rstP2Bypass,
    Config.rstHsFreq, Config.rstHsGain, Config.rstHsQ, Config.rstHsBypass,
    Config.rstLpFreq, Config.rstLpBypass]
  cfg := ⟨0#32, 0#32, 0#32⟩
  st := ⟨false, false, false⟩
  coef := Vector.replicate 6 zeroCoefs
  delay := Vector.replicate 6 (Vector.replicate Config.maxCh zeroDelay)
  psnap := Vector.replicate 20 0#32
  factory := ⟨0#32, 0#32, 0#32, zeroCoefs⟩
  buf := []
  cmdPtr := 0
  ctlPtr := 0
  port := .cmd
  cmdIn := []
  ctlIn := []
  cmdOut := []
  ctlOut := []
  memIn := []
  memOut := []
  turns := []
  sampling := []

end Sys2Proof.Machine
end

