-- ==== Sys2Proof/Machine/Flags.lean ====
section
/-! DEFINITION. The status word and its three bits (R28). No arithmetic sets a flag (R7). -/

namespace Sys2Proof.Machine

/-- The word `ST` as RDSTAT returns it: bit 0 PREPARED, bit 1 RATE_SUBST, bit 2 ERR, bits 31:3 zero (R28). -/
def statusWord (st : Status) : Word := 0#29 ++ BitVec.ofBool st.err ++ BitVec.ofBool st.rateSubst ++ BitVec.ofBool st.prepared

/-- `ST.ERR <- 1` (R28: sticky, cleared by reset only). -/
def setErr (s : State) : State := { s with st := { s.st with err := true } }

/-- `ST.PREPARED <- 1` (R28). -/
def setPrepared (s : State) : State := { s with st := { s.st with prepared := true } }

/-- `ST.RATE_SUBST <- v` (R28). -/
def setRateSubst (v : Bool) (s : State) : State := { s with st := { s.st with rateSubst := v } }

end Sys2Proof.Machine
end

