-- ==== Sys2Proof/WellFormed.lean ====
section
/-! DEFINITION. Which instructions the hardware has, and on which port each is legal. -/

namespace Sys2Proof

/-- Whether a band has the register: the pass bands have frequency and bypass only (R21, R22: the register numbers 1, 2,
21 and 22 are not implemented). -/
def Band.hasField : Band → Field → Bool
  | .hp, .freq | .hp, .bypass => true
  | .hp, .gain | .hp, .q => false
  | .lp, .freq | .lp, .bypass => true
  | .lp, .gain | .lp, .q => false
  | .ls, _ | .p1, _ | .p2, _ | .hs, _ => true

/-- The one check the types of the fields leave: a parameter command names an implemented register (R82 (g)). -/
def Instr.wellFormed : Instr → Bool
  | .wrparam b f _ => b.hasField f
  | .rdparam b f => b.hasField f
  | .prepare _ _ _ | .process _ | .rdcoef _ _ | .rdstat _ => true
  | .coefLS | .coefHS | .coefPK | .coefHP | .coefLP => true

/-- Whether the instruction is a host command, with a command word (format C). -/
def Instr.isCommand : Instr → Bool
  | .prepare _ _ _ | .process _ | .wrparam _ _ _ | .rdparam _ _ | .rdcoef _ _ | .rdstat _ => true
  | .coefLS | .coefHS | .coefPK | .coefHP | .coefLP => false

/-- The commands of each port (R70, R73): CTL takes WRPARAM and RDPARAM only. -/
def Instr.legalOn : Port → Instr → Bool
  | .cmd, i => i.isCommand
  | .ctl, .wrparam _ _ _ => true
  | .ctl, .rdparam _ _ => true
  | .ctl, .prepare _ _ _ | .ctl, .process _ | .ctl, .rdcoef _ _ | .ctl, .rdstat _ => false
  | .ctl, .coefLS | .ctl, .coefHS | .ctl, .coefPK | .ctl, .coefHP | .ctl, .coefLP => false

end Sys2Proof
end

