-- ==== Sys2Proof/Decode.lean ====
section
/-! DEFINITION. The decoder, total on every word and rejecting by name (R71 to R83), the reading of a command from a
port's words, and the encoder, written from the same tables. -/

namespace Sys2Proof

/-- Why a command word is illegal: the clauses of R82, and the reserved shape tags of R83. -/
inductive Illegal where
  /-- (a) `op` is 0 or 7 to 15. -/
  | reservedOp
  /-- (b) a command of the CMD port on the CTL port. -/
  | notOnThisPort
  /-- (c) bits 21:0 are not all zero. -/
  | reservedBits
  /-- (d) `band` is 6 or 7. -/
  | reservedBand
  /-- (e) PREPARE, PROCESS or RDSTAT with `band` not 0. -/
  | bandNotZero
  /-- (f) PREPARE or PROCESS with `sel` not 0. -/
  | selNotZero
  /-- (g) WRPARAM or RDPARAM of a register that does not exist. -/
  | noSuchParam
  /-- (h) RDCOEF with `sel` 5 to 7. -/
  | noSuchMember
  /-- (i) RDSTAT with `sel` 4 to 7. -/
  | noSuchStatus
  /-- Shape tags 5 to 7 (R83). -/
  | reservedTag
  deriving DecidableEq, Repr

/-! The fields of the command word (R71). -/

/-- Bits 31:28. -/
def opOf (w : Word) : BitVec 4 := w.extractLsb' 28 4
/-- Bits 27:25. -/
def bandOf (w : Word) : BitVec 3 := w.extractLsb' 25 3
/-- Bits 24:22. -/
def selOf (w : Word) : BitVec 3 := w.extractLsb' 22 3
/-- Bits 21:0. -/
def zeroOf (w : Word) : BitVec 22 := w.extractLsb' 0 22

/-- The band with this index (R21); 6 and 7 are reserved. -/
def Band.ofBits (b : BitVec 3) : Option Band :=
  match b.toNat with
  | 0 => some .hp
  | 1 => some .ls
  | 2 => some .p1
  | 3 => some .p2
  | 4 => some .hs
  | 5 => some .lp
  | _ => none

/-- The band's index (R21). -/
def Band.bits : Band → BitVec 3
  | .hp => 0#3
  | .ls => 1#3
  | .p1 => 2#3
  | .p2 => 3#3
  | .hs => 4#3
  | .lp => 5#3

/-- The register field with this selector (R75). -/
def Field.ofSel (s : BitVec 3) : Option Field :=
  match s.toNat with
  | 0 => some .freq
  | 1 => some .gain
  | 2 => some .q
  | 3 => some .bypass
  | _ => none

/-- The field's selector (R75). -/
def Field.sel : Field → BitVec 3
  | .freq => 0#3
  | .gain => 1#3
  | .q => 2#3
  | .bypass => 3#3

/-- The coefficient member with this selector (R75). -/
def Member.ofSel (s : BitVec 3) : Option Member :=
  match s.toNat with
  | 0 => some .b0
  | 1 => some .b1
  | 2 => some .b2
  | 3 => some .a1
  | 4 => some .a2
  | _ => none

/-- The member's selector (R75). -/
def Member.sel : Member → BitVec 3
  | .b0 => 0#3
  | .b1 => 1#3
  | .b2 => 2#3
  | .a1 => 3#3
  | .a2 => 4#3

/-- The status selector (R75). -/
def StatSel.ofSel (s : BitVec 3) : Option StatSel :=
  match s.toNat with
  | 0 => some .st
  | 1 => some .fs
  | 2 => some .maxBlock
  | 3 => some .nch
  | _ => none

/-- The status selector's number (R75). -/
def StatSel.sel : StatSel → BitVec 3
  | .st => 0#3
  | .fs => 1#3
  | .maxBlock => 2#3
  | .nch => 3#3

/-- The number of words of a command: a function of `op` alone, for illegal words too (R72). -/
def opLength (w : Word) : Nat :=
  match (opOf w).toNat with
  | 1 => 4
  | 2 => 2
  | 3 => 2
  | _ => 1

/-- The register a WRPARAM or RDPARAM word names (R75, R82 (d) and (g)). -/
def decodeReg (w : Word) : Except Illegal (Band × Field) :=
  match Band.ofBits (bandOf w), Field.ofSel (selOf w) with
  | none, _ => .error .reservedBand
  | some _, none => .error .noSuchParam
  | some b, some f => if b.hasField f then .ok (b, f) else .error .noSuchParam

/-- Decode a command word that arrived on a port, with the three words that follow it (a shorter command ignores the
words beyond its own). -/
def decode (p : Port) (w x1 x2 x3 : Word) : Except Illegal Instr :=
  if zeroOf w ≠ 0#22 then .error .reservedBits
  else
    match (opOf w).toNat with
    | 1 =>
      if p = .ctl then .error .notOnThisPort
      else if bandOf w ≠ 0#3 then .error .bandNotZero
      else if selOf w ≠ 0#3 then .error .selNotZero
      else .ok (.prepare x1 x2 x3)
    | 2 =>
      if p = .ctl then .error .notOnThisPort
      else if bandOf w ≠ 0#3 then .error .bandNotZero
      else if selOf w ≠ 0#3 then .error .selNotZero
      else .ok (.process x1)
    | 3 =>
      match decodeReg w with
      | .error e => .error e
      | .ok (b, f) => .ok (.wrparam b f x1)
    | 4 =>
      match decodeReg w with
      | .error e => .error e
      | .ok (b, f) => .ok (.rdparam b f)
    | 5 =>
      if p = .ctl then .error .notOnThisPort
      else
        match Band.ofBits (bandOf w), Member.ofSel (selOf w) with
        | none, _ => .error .reservedBand
        | some _, none => .error .noSuchMember
        | some b, some k => .ok (.rdcoef b k)
    | 6 =>
      if p = .ctl then .error .notOnThisPort
      else if bandOf w ≠ 0#3 then .error .bandNotZero
      else
        match StatSel.ofSel (selOf w) with
        | none => .error .noSuchStatus
        | some k => .ok (.rdstat k)
    | _ => .error .reservedOp

/-- Decode a shape tag (R83): the internal operation it stands for. -/
def decodeTag (t : BitVec 3) : Except Illegal Instr :=
  match t.toNat with
  | 0 => .ok .coefLS
  | 1 => .ok .coefHS
  | 2 => .ok .coefPK
  | 3 => .ok .coefHP
  | 4 => .ok .coefLP
  | _ => .error .reservedTag

/-- What the words waiting on a port amount to (R72). -/
inductive Fetched where
  /-- Not all words of the next command have arrived. -/
  | wait
  /-- The next command is illegal: why, how many words it takes up, and the words after it. -/
  | illegal (why : Illegal) (len : Nat) (rest : List Word)
  /-- The next command: the instruction, its length, and the words after it. -/
  | command (i : Instr) (len : Nat) (rest : List Word)
  deriving DecidableEq, Repr

/-- Take the next command from the words waiting on a port: the command does not start until all its words have
arrived (R72). -/
def fetch (p : Port) : List Word → Fetched
  | [] => .wait
  | w :: ws =>
    let n := opLength w
    if ws.length + 1 < n then .wait
    else
      match decode p w (ws.getD 0 0#32) (ws.getD 1 0#32) (ws.getD 2 0#32) with
      | .error e => .illegal e n (ws.drop (n - 1))
      | .ok i => .command i n (ws.drop (n - 1))

/-! The encoder. -/

/-- The command word `(op << 28) | (band << 25) | (sel << 22)` (R87). -/
def commandWord (op : BitVec 4) (band sel : BitVec 3) : Word := op ++ band ++ sel ++ 0#22

/-- What an instruction is encoded as: the words of a command, or a shape tag. -/
inductive Encoded where
  | words (ws : List Word)
  | tag (t : BitVec 3)
  deriving DecidableEq, Repr

/-- The encoding of an instruction (R71, R73, R75, R76, R83). -/
def encode : Instr → Encoded
  | .prepare fs mb nch => .words [commandWord 1#4 0#3 0#3, fs, mb, nch]
  | .process n => .words [commandWord 2#4 0#3 0#3, n]
  | .wrparam b f d => .words [commandWord 3#4 b.bits f.sel, d]
  | .rdparam b f => .words [commandWord 4#4 b.bits f.sel]
  | .rdcoef b k => .words [commandWord 5#4 b.bits k.sel]
  | .rdstat k => .words [commandWord 6#4 0#3 k.sel]
  | .coefLS => .tag 0#3
  | .coefHS => .tag 1#3
  | .coefPK => .tag 2#3
  | .coefHP => .tag 3#3
  | .coefLP => .tag 4#3

/-- Read back an encoding: the command at the head of the words when all of it is there, or the tag's operation. -/
def decodeEncoded (p : Port) : Encoded → Option Instr
  | .words ws =>
    match fetch p ws with
    | .command i _ _ => some i
    | .illegal _ _ _ => none
    | .wait => none
  | .tag t => (decodeTag t).toOption

/-- Word `k` of a number whose bits count on from word to word, bits from `nbits` up taken as zero. -/
def tableWord (nbits w k : Nat) : Word := BitVec.ofNat 32 (w % 2 ^ nbits / 2 ^ (32 * k))

/-- The four words of the longest command in such a number. -/
def tableWords (nbits w : Nat) : List Word := [tableWord nbits w 0, tableWord nbits w 1, tableWord nbits w 2, tableWord nbits w 3]

/-- The instruction the decoder reads from a row of spec/opcode_table.json whose bits are `w`: a row shorter than a word
is a shape tag in the low three bits (log entry 23), any other a command on the CMD port. -/
def decodeTableWord (nbits w : Nat) : Option Instr :=
  if nbits < 32 then (decodeTag (BitVec.ofNat 3 w)).toOption
  else decodeEncoded .cmd (.words (tableWords nbits w))

end Sys2Proof
end

