-- ==== Sys2Proof/Machine/Operands.lean ====
section
/-! DEFINITION. How commands name registers: parameter registers by band and field (R22, R75), coefficients by band and
member (R30), and the reads and writes of the register files. -/

namespace Sys2Proof.Machine

/-- The register number `i = 4*band + sel` (R22). -/
def Reg.number : Reg → Nat
  | .hpFreq => 0
  | .hpBypass => 3
  | .lsFreq => 4
  | .lsGain => 5
  | .lsQ => 6
  | .lsBypass => 7
  | .p1Freq => 8
  | .p1Gain => 9
  | .p1Q => 10
  | .p1Bypass => 11
  | .p2Freq => 12
  | .p2Gain => 13
  | .p2Q => 14
  | .p2Bypass => 15
  | .hsFreq => 16
  | .hsGain => 17
  | .hsQ => 18
  | .hsBypass => 19
  | .lpFreq => 20
  | .lpBypass => 23

/-- The place of a register in a `ParamFile`: its rank by register number. -/
def Reg.idx : Reg → Fin 20
  | .hpFreq => 0
  | .hpBypass => 1
  | .lsFreq => 2
  | .lsGain => 3
  | .lsQ => 4
  | .lsBypass => 5
  | .p1Freq => 6
  | .p1Gain => 7
  | .p1Q => 8
  | .p1Bypass => 9
  | .p2Freq => 10
  | .p2Gain => 11
  | .p2Q => 12
  | .p2Bypass => 13
  | .hsFreq => 14
  | .hsGain => 15
  | .hsQ => 16
  | .hsBypass => 17
  | .lpFreq => 18
  | .lpBypass => 19

/-- The 20 implemented registers in ascending register number. -/
def Reg.all : List Reg :=
  [.hpFreq, .hpBypass, .lsFreq, .lsGain, .lsQ, .lsBypass, .p1Freq, .p1Gain, .p1Q, .p1Bypass,
   .p2Freq, .p2Gain, .p2Q, .p2Bypass, .hsFreq, .hsGain, .hsQ, .hsBypass, .lpFreq, .lpBypass]

/-- The register of a band and field, when it is implemented (R22). -/
def regOf : Band → Field → Option Reg
  | .hp, .freq => some .hpFreq
  | .hp, .gain => none
  | .hp, .q => none
  | .hp, .bypass => some .hpBypass
  | .ls, .freq => some .lsFreq
  | .ls, .gain => some .lsGain
  | .ls, .q => some .lsQ
  | .ls, .bypass => some .lsBypass
  | .p1, .freq => some .p1Freq
  | .p1, .gain => some .p1Gain
  | .p1, .q => some .p1Q
  | .p1, .bypass => some .p1Bypass
  | .p2, .freq => some .p2Freq
  | .p2, .gain => some .p2Gain
  | .p2, .q => some .p2Q
  | .p2, .bypass => some .p2Bypass
  | .hs, .freq => some .hsFreq
  | .hs, .gain => some .hsGain
  | .hs, .q => some .hsQ
  | .hs, .bypass => some .hsBypass
  | .lp, .freq => some .lpFreq
  | .lp, .gain => none
  | .lp, .q => none
  | .lp, .bypass => some .lpBypass

/-- The frequency register every band has (R21). -/
def freqReg : Band → Reg
  | .hp => .hpFreq
  | .ls => .lsFreq
  | .p1 => .p1Freq
  | .p2 => .p2Freq
  | .hs => .hsFreq
  | .lp => .lpFreq

/-- The bypass register every band has (R21). -/
def bypassReg : Band → Reg
  | .hp => .hpBypass
  | .ls => .lsBypass
  | .p1 => .p1Bypass
  | .p2 => .p2Bypass
  | .hs => .hsBypass
  | .lp => .lpBypass

/-- Read a register of a parameter file: `x[i]` (R10). -/
def getParam (v : ParamFile) (r : Reg) : Word := v[r.idx]

/-- Write a register of a parameter file: `x[i] <- v` (R10). -/
def setParam (v : ParamFile) (r : Reg) (w : Word) : ParamFile := v.set r.idx w

/-- What a WRPARAM of a word stores (R23, R100): a BYPASS register holds one bit, any other every pattern unchanged. -/
def storedWord (f : Field) (d : Word) : Word :=
  match f with
  | .bypass => if d = 0#32 then 0x00000000#32 else 0x00000001#32
  | .freq => d
  | .gain => d
  | .q => d

/-- The band index (R21). -/
def bandIdx : Band → Fin 6
  | .hp => 0
  | .ls => 1
  | .p1 => 2
  | .p2 => 3
  | .hs => 4
  | .lp => 5

/-- The six bands in ascending band index, which is the order of the cascade (R21, R176). -/
def allBands : List Band := [.hp, .ls, .p1, .p2, .hs, .lp]

/-- The member of a coefficient set (R30). -/
def coefMember (c : CoefSet Word) : Member → Word
  | .b0 => c.b0
  | .b1 => c.b1
  | .b2 => c.b2
  | .a1 => c.a1
  | .a2 => c.a2

/-- `COEF[b]` (R10). -/
def getCoef (s : State) (b : Band) : CoefSet Word := s.coef[bandIdx b]

/-- `S[b][ch]` (R10). -/
def getDelay (s : State) (b : Band) (ch : Fin Config.maxCh) : Delay Word := (s.delay[bandIdx b])[ch]

/-- The state with `S[b][ch]` replaced. -/
def setDelay (s : State) (b : Band) (ch : Fin Config.maxCh) (d : Delay Word) : State :=
  { s with delay := s.delay.set (bandIdx b) ((s.delay[bandIdx b]).set ch d) }

end Sys2Proof.Machine
end

