-- ==== Sys2Proof/Machine/Ops.lean ====
section
/-! DEFINITION. The shared operations: the sample buffer (R50 to R53), the ports and their responses (R70, R80), and
`raise`, the one exceptional event of the cascade (R198). -/

namespace Sys2Proof

namespace Memory

/-- The byte at an index, when something has written it since reset. -/
def read? : Machine.Memory → Nat → Option Byte
  | [], _ => none
  | (k, v) :: m, a => if k = a then some v else read? m a

/-- Write one byte, keeping the byte indexes strictly rising. -/
def write : Machine.Memory → Nat → Byte → Machine.Memory
  | [], a, b => [(a, b)]
  | (k, v) :: m, a, b =>
    if a < k then (a, b) :: (k, v) :: m
    else if a = k then (a, b) :: m
    else (k, v) :: write m a b

/-- The canonical form: byte indexes strictly rising. An unlisted byte has no value, so no entry can equal what an
unlisted byte reads as. -/
def wf : Machine.Memory → Bool
  | [] => true
  | [_] => true
  | c :: d :: m => decide (c.1 < d.1) && wf (d :: m)

end Memory

namespace Machine

/-! The sample buffer. -/

/-- The number of words of `BUF` (R50). -/
def bufWords : Nat := Config.maxCh * Config.maxBlkHw

/-- One byte of `BUF`: the byte written last, or the free power-on byte of that place (U3, log entry 8). -/
def bufByte (m : Memory) (k : Nat) : Byte := (Memory.read? m k).getD (Config.bufPowerOn k)

/-- `MemRead(addr, 1)` (R10): the word of `BUF` at a word address, its bytes least significant first (R53). -/
def bufRead (m : Memory) (a : Nat) : Word :=
  bufByte m (4 * a + 3) ++ bufByte m (4 * a + 2) ++ bufByte m (4 * a + 1) ++ bufByte m (4 * a)

/-- `MemWrite(addr, 1, v)` (R10). -/
def bufWrite (m : Memory) (a : Nat) (w : Word) : Memory :=
  Memory.write
    (Memory.write
      (Memory.write
        (Memory.write m (4 * a) (w.extractLsb' 0 8))
        (4 * a + 1) (w.extractLsb' 8 8))
      (4 * a + 2) (w.extractLsb' 16 8))
    (4 * a + 3) (w.extractLsb' 24 8)

/-- `BUFADDR(ch, k) = ch * CFG.maxBlock + k` (R51); the product and the sum do not wrap (R186). -/
def bufAddr (s : State) (ch k : Nat) : Nat := ch * s.cfg.maxBlock.toNat + k

/-! Responses. -/

/-- The response codes (R80). -/
inductive Code where
  | ok | notReady | rejLayout | rejBlock | illegal
  deriving DecidableEq, Repr

/-- The response word of a code: bits 3:0 the code, bits 31:4 zero (R80). -/
def codeWord : Code → Word
  | .ok => 0#32
  | .notReady => 1#32
  | .rejLayout => 2#32
  | .rejBlock => 3#32
  | .illegal => 4#32

/-- Send words on a port. -/
def send (p : Port) (ws : List Word) (s : State) : State :=
  match p with
  | .cmd => { s with cmdOut := s.cmdOut ++ ws }
  | .ctl => { s with ctlOut := s.ctlOut ++ ws }

/-- `respond(code)`: one response word on the port the command came from (R80). -/
def respond (c : Code) (s : State) : State := send s.port [codeWord c] s

/-- `respond(OK, data)`: the response word, and the data word after it (R80). -/
def respondData (d : Word) (s : State) : State := send s.port [codeWord .ok, d] s

/-- `raise <Code>` (R10, R198): the one exceptional event. The response word goes to the port the command came from, and
on the CMD port `ST.ERR` is set; nothing else changes, nothing is saved and control goes nowhere. There is no return from
it (R200). The stream position has moved on by the command's length when the words were taken (`consume`). -/
def raise (c : Code) (s : State) : State :=
  match s.port with
  | .cmd => respond c (setErr s)
  | .ctl => respond c s

/-- Take a command's words off a port: the words after it remain, the port's stream position moves on by its length
whatever the response will be (R36, R187), and the command's port is noted for its response. -/
def consume (p : Port) (len : Nat) (rest : List Word) (s : State) : State :=
  match p with
  | .cmd => { s with cmdIn := rest, cmdPtr := s.cmdPtr + len, port := .cmd }
  | .ctl => { s with ctlIn := rest, ctlPtr := s.ctlPtr + len, port := .ctl }

/-- The words that wait on a port. -/
def waiting (p : Port) (s : State) : List Word :=
  match p with
  | .cmd => s.cmdIn
  | .ctl => s.ctlIn

end Machine

end Sys2Proof
end

