-- ==== Sys2Proof/Machine/Factory.lean ====
section
/-! DEFINITION. The coefficient factory (R120 to R133): the repair of its inputs, the five shapes, dispatch, the per-band
wrapper, and the shape operations as steps. The formulas are written over an arithmetic, so that the same text is the
machine's binary32 factory and the real-number factory the laws of R139 and R141 speak of (D35). -/

namespace Sys2Proof.Machine

/-- An arithmetic: the operations the formulas of R125 to R133 and R152 use, in one number format. -/
structure Arith (F : Type) where
  add : F → F → F
  sub : F → F → F
  mul : F → F → F
  div : F → F → F
  neg : F → F
  sqrt : F → F
  sin : F → F
  cos : F → F
  /-- The literals 1.0, 2.0 and -2.0, and `TWO_PI`. -/
  one : F
  two : F
  negTwo : F
  twoPi : F

/-- The machine's arithmetic: binary32 words, each operation rounded once (R7), the configuration functions of R8. -/
def arith32 : Arith Word where
  add := fadd
  sub := fsub
  mul := fmul
  div := fdiv
  neg := fneg
  sqrt := fsqrt
  sin := f32Sin
  cos := f32Cos
  one := 0x3F800000#32
  two := 0x40000000#32
  negTwo := 0xC0000000#32
  twoPi := Config.twoPi

/-! Repairing the inputs. -/

/-- CLAMP (R120): a NaN gives the lower bound. -/
def clamp (v lo hi : Word) : Word :=
  if !fge v lo then lo
  else if fgt v hi then hi
  else v

/-- FSGUARD (R121): the rate itself when it is finite and positive, `FS_DEFAULT` otherwise. -/
def fsguard (fs : Word) : Word := if isFinite fs && fgt fs 0#32 then fs else Config.fsDefault

/-- The lower end of a band's declared frequency range (R21, R26). -/
def freqLo : Band → Word
  | .hp => 0x41A00000#32
  | .ls => 0x41A00000#32
  | .p1 => 0x43160000#32
  | .p2 => 0x447A0000#32
  | .hs => 0x457A0000#32
  | .lp => 0x457A0000#32

/-- The upper end of a band's declared frequency range (R21, R26). -/
def freqHi : Band → Word
  | .hp => 0x43C80000#32
  | .ls => 0x437A0000#32
  | .p1 => 0x44FA0000#32
  | .p2 => 0x463B8000#32
  | .hs => 0x469C4000#32
  | .lp => 0x469C4000#32

/-- EFFFREQ (R122): the range clamp first, then for HP the floor of 20 Hz and for LP the limit `0.49 * fs`. -/
def efffreq (b : Band) (fword fs : Word) : Word :=
  let f := clamp fword (freqLo b) (freqHi b)
  match b with
  | .hp => if !fge f 0x41A00000#32 then 0x41A00000#32 else f
  | .lp => if fgt f (fmul Config.c049 fs) then fmul Config.c049 fs else f
  | .ls => f
  | .p1 => f
  | .p2 => f
  | .hs => f

/-- The Q clamp of EFFQG (R123, R26): 0.3 to 4.0. -/
def effQ (w : Word) : Word := clamp w 0x3E99999A#32 0x40800000#32

/-- The gain clamp of EFFQG (R123, R26): -15 dB to 15 dB. -/
def effGain (w : Word) : Word := clamp w 0xC1700000#32 0x41700000#32

/-- DB2LIN (R124): `10^(g / 20)`. -/
def db2lin (g : Word) : Word := f32Exp10 (fdiv g 0x41A00000#32)

/-! The five shapes, over any arithmetic. -/

/-- COMMON (R125): `(cw, alpha)` from the guarded rate, the frequency and Q. -/
def common {F : Type} (A : Arith F) (fs f q : F) : F × F :=
  let w0 := A.div (A.mul A.twoPi f) fs
  let cw := A.cos w0
  let sw := A.sin w0
  (cw, A.div sw (A.mul A.two q))

/-- NORMALISE (R128): five divisions by the raw `a0`. -/
def normalise {F : Type} (A : Arith F) (b0 b1 b2 a0 a1 a2 : F) : CoefSet F :=
  ⟨A.div b0 a0, A.div b1 a0, A.div b2 a0, A.div a1 a0, A.div a2 a0⟩

/-- The intermediate values the two shelves share (R129, R130). -/
structure ShelfTerms (F : Type) where
  /-- `A`, the square root of the linear gain. -/
  a : F
  beta : F
  p : F
  m : F
  u : F
  v : F

/-- The shelf terms from `cw`, `alpha` and the linear gain (R129). -/
def shelfTerms {F : Type} (A : Arith F) (cw alpha g : F) : ShelfTerms F :=
  let a := A.sqrt g
  let beta := A.mul (A.mul A.two (A.sqrt a)) alpha
  let ap1 := A.add a A.one
  let am1 := A.sub a A.one
  { a := a
    beta := beta
    p := A.sub ap1 (A.mul am1 cw)
    m := A.add ap1 (A.mul am1 cw)
    u := A.sub am1 (A.mul ap1 cw)
    v := A.add am1 (A.mul ap1 cw) }

/-- COEF.LS (R129). -/
def lowShelf {F : Type} (A : Arith F) (cw alpha g : F) : CoefSet F :=
  let t := shelfTerms A cw alpha g
  normalise A
    (A.mul t.a (A.add t.p t.beta)) (A.mul (A.mul A.two t.a) t.u) (A.mul t.a (A.sub t.p t.beta))
    (A.add t.m t.beta) (A.mul A.negTwo t.v) (A.sub t.m t.beta)

/-- COEF.HS (R130). -/
def highShelf {F : Type} (A : Arith F) (cw alpha g : F) : CoefSet F :=
  let t := shelfTerms A cw alpha g
  normalise A
    (A.mul t.a (A.add t.m t.beta)) (A.mul (A.mul A.negTwo t.a) t.v) (A.mul t.a (A.sub t.m t.beta))
    (A.add t.p t.beta) (A.mul A.two t.u) (A.sub t.p t.beta)

/-- COEF.PK (R131). -/
def peaking {F : Type} (A : Arith F) (cw alpha g : F) : CoefSet F :=
  let a := A.sqrt g
  let aA := A.mul alpha a
  let ad := A.div alpha a
  let m2c := A.mul A.negTwo cw
  normalise A (A.add A.one aA) m2c (A.sub A.one aA) (A.add A.one ad) m2c (A.sub A.one ad)

/-- COEF.HP (R132): the gain operand is not used. -/
def highPass {F : Type} (A : Arith F) (cw alpha : F) : CoefSet F :=
  let t := A.add A.one cw
  let h := A.div t A.two
  normalise A h (A.neg t) h (A.add A.one alpha) (A.mul A.negTwo cw) (A.sub A.one alpha)

/-- COEF.LP (R133): the gain operand is not used. -/
def lowPass {F : Type} (A : Arith F) (cw alpha : F) : CoefSet F :=
  let t := A.sub A.one cw
  let h := A.div t A.two
  normalise A h t h (A.add A.one alpha) (A.mul A.negTwo cw) (A.sub A.one alpha)

/-- The dispatch of COEF on the shape (R127). -/
def shapeCoefs {F : Type} (A : Arith F) (sh : Shape) (cw alpha g : F) : CoefSet F :=
  match sh with
  | .lowShelf => lowShelf A cw alpha g
  | .highShelf => highShelf A cw alpha g
  | .peaking => peaking A cw alpha g
  | .highPass => highPass A cw alpha
  | .lowPass => lowPass A cw alpha

/-! COEF and BANDCOEF of the machine. -/

/-- COEF (R127), the factory's entry: guard the rate, COMMON, dispatch. -/
def coef (sh : Shape) (fs f q g : Word) : CoefSet Word :=
  let ca := common arith32 (fsguard fs) f q
  shapeCoefs arith32 sh ca.1 ca.2 g

/-- The fixed shape of each band (R21, R83: tags 3, 0, 2, 2, 1, 4). -/
def shapeOf : Band → Shape
  | .hp => .highPass
  | .ls => .lowShelf
  | .p1 => .peaking
  | .p2 => .peaking
  | .hs => .highShelf
  | .lp => .lowPass

/-- The Q a band hands to COEF (R123): the clamped register of a shelf or peak band, `Q_PASS` for a pass band. -/
def bandQ (b : Band) (snap : ParamFile) : Word :=
  match regOf b .q with
  | some r => effQ (getParam snap r)
  | none => Config.qPass

/-- The linear gain a band hands to COEF (R124, R126): of the clamped gain for a shelf or peak band, 1.0 (which is
ignored) for a pass band. -/
def bandGain (b : Band) (snap : ParamFile) : Word :=
  match regOf b .gain with
  | some r => db2lin (effGain (getParam snap r))
  | none => 0x3F800000#32

/-- The frequency a band hands to COEF (R122). -/
def bandFreq (b : Band) (snap : ParamFile) (fs : Word) : Word := efffreq b (getParam snap (freqReg b)) fs

/-- BANDCOEF (R126): from a band's sampled parameters and the rate to its coefficient set; it reads nothing else. -/
def bandcoef (b : Band) (snap : ParamFile) (fs : Word) : CoefSet Word :=
  coef (shapeOf b) fs (bandFreq b snap fs) (bandQ b snap) (bandGain b snap)

/-! The shape operations as steps of the factory: operands and result stand in `State.factory` (log entry 4). -/

/-- COMMON of a band (R125, R127): the guarded rate, the effective frequency and Q. -/
def bandCommon (b : Band) (snap : ParamFile) (fs : Word) : Word × Word :=
  common arith32 (fsguard fs) (bandFreq b snap fs) (bandQ b snap)

/-- Load the operands of a band's shape operation: EFFFREQ, EFFQG, DB2LIN, FSGUARD and COMMON. -/
def factoryLoad (b : Band) (fs : Word) (s : State) : State :=
  { s with
    factory :=
      { s.factory with
        cw := (bandCommon b s.psnap fs).1
        alpha := (bandCommon b s.psnap fs).2
        gain := bandGain b s.psnap } }

/-- Run the shape operation on the operands that stand in the factory. -/
def factoryRun (sh : Shape) (s : State) : State :=
  { s with factory := { s.factory with result := shapeCoefs arith32 sh s.factory.cw s.factory.alpha s.factory.gain } }

/-- The meaning of COEF.LS (R129). -/
def execCoefLS (s : State) : Host.Outcome State Fault Refusal := .next (factoryRun .lowShelf s)

/-- The meaning of COEF.HS (R130). -/
def execCoefHS (s : State) : Host.Outcome State Fault Refusal := .next (factoryRun .highShelf s)

/-- The meaning of COEF.PK (R131). -/
def execCoefPK (s : State) : Host.Outcome State Fault Refusal := .next (factoryRun .peaking s)

/-- The meaning of COEF.HP (R132). -/
def execCoefHP (s : State) : Host.Outcome State Fault Refusal := .next (factoryRun .highPass s)

/-- The meaning of COEF.LP (R133). -/
def execCoefLP (s : State) : Host.Outcome State Fault Refusal := .next (factoryRun .lowPass s)

end Sys2Proof.Machine
end

