-- ==== Sys2Proof/Machine/Filter.lean ====
section
/-! DEFINITION. The biquad filter and its delay state (R150 to R155). -/

namespace Sys2Proof.Machine

/-- SETCOEF (R150): all five members of `COEF[b]` in one step, the delay state untouched. -/
def setcoef (b : Band) (c : CoefSet Word) (s : State) : State := { s with coef := s.coef.set (bandIdx b) c }

/-- STRESET (R151): the pairs of the channels below `nch` become `(+0.0, +0.0)`. -/
def streset (b : Band) (nch : Nat) (s : State) : State :=
  { s with
    delay := s.delay.set (bandIdx b)
      (Vector.ofFn fun ch : Fin Config.maxCh => if ch.val < nch then zeroDelay else (s.delay[bandIdx b])[ch]) }

/-- BQSTEP (R152), transposed direct form II: five multiplications and four additions or subtractions, in this grouping. -/
def bqstep {F : Type} (A : Arith F) (c : CoefSet F) (d : Delay F) (x : F) : F × Delay F :=
  let y := A.add (A.mul c.b0 x) d.s1
  let s1n := A.add (A.sub (A.mul c.b1 x) (A.mul c.a1 y)) d.s2
  let s2n := A.sub (A.mul c.b2 x) (A.mul c.a2 y)
  (y, ⟨s1n, s2n⟩)

/-- The filter on a list of samples, in order: the outputs, and the pair it leaves. The refinement of BQPROC is stated
against this. -/
def bqList {F : Type} (A : Arith F) (c : CoefSet F) (d : Delay F) : List F → List F × Delay F
  | [] => ([], d)
  | x :: xs =>
    let r := bqstep A c d x
    let rest := bqList A c r.2 xs
    (r.1 :: rest.1, rest.2)

/-- The inner loop of BQPROC (R155): `n` samples from word address `a` on, each replaced by its output in place. -/
def bqRun (c : CoefSet Word) : Nat → Nat → Delay Word → Memory → Delay Word × Memory
  | 0, _, d, m => (d, m)
  | n + 1, a, d, m =>
    let r := bqstep arith32 c d (bufRead m a)
    bqRun c n (a + 1) r.2 (bufWrite m a r.1)

/-- BQPROC on one channel (R155, R158): it reads and writes `S[b][ch]` and the words `BUFADDR(ch, *)` only. -/
def bqLane (b : Band) (n : Nat) (ch : Fin Config.maxCh) (s : State) : State :=
  let r := bqRun (getCoef s b) n (bufAddr s ch 0) (getDelay s b ch) s.buf
  setDelay { s with buf := r.2 } b ch r.1

/-- BQPROC (R155): the channels below `CFG.nch`, one after the other (R158: the order cannot be observed). -/
def bqproc (b : Band) (n : Nat) (s : State) : State :=
  (List.finRange Config.maxCh).foldl (fun t ch => if ch.val < t.cfg.nch.toNat then bqLane b n ch t else t) s

end Sys2Proof.Machine
end

