-- ==== Sys2Proof/Machine/Param.lean ====
section
/-! DEFINITION. The parameter and read-back commands (R100 to R103), and the step of the CTL port. -/

namespace Sys2Proof.Machine

/-- WRPARAM (R100): store the word in register `4*band + sel` as one write and answer OK; accepted in both engine states.
A register that does not exist never reaches this rule (R82 (g) answers it at decode); the term answers ILLEGAL too
(log entry 17). -/
def wrparam (b : Band) (f : Field) (d : Word) (s : State) : State :=
  match regOf b f with
  | none => raise .illegal s
  | some r => respond .ok { s with params := setParam s.params r (storedWord f d) }

/-- RDPARAM (R101): answer OK and the stored word; accepted in both engine states; changes no state. -/
def rdparam (b : Band) (f : Field) (s : State) : State :=
  match regOf b f with
  | none => raise .illegal s
  | some r => respondData (getParam s.params r) s

/-- RDCOEF (R102): NOT_READY while Unprepared, else OK and the member of the band's active set. -/
def rdcoef (b : Band) (k : Member) (s : State) : State :=
  if s.st.prepared then respondData (coefMember (getCoef s b) k) s else raise .notReady s

/-- RDSTAT (R103): `ST` in both engine states; the configuration registers NOT_READY while Unprepared. -/
def rdstat (k : StatSel) (s : State) : State :=
  match k with
  | .st => respondData (statusWord s.st) s
  | .fs => if s.st.prepared then respondData s.cfg.fs s else raise .notReady s
  | .maxBlock => if s.st.prepared then respondData s.cfg.maxBlock s else raise .notReady s
  | .nch => if s.st.prepared then respondData s.cfg.nch s else raise .notReady s

/-- The meaning of WRPARAM. -/
def execWrparam (b : Band) (f : Field) (d : Word) (s : State) : Host.Outcome State Fault Refusal := .next (wrparam b f d s)

/-- The meaning of RDPARAM. -/
def execRdparam (b : Band) (f : Field) (s : State) : Host.Outcome State Fault Refusal := .next (rdparam b f s)

/-- The meaning of RDCOEF. -/
def execRdcoef (b : Band) (k : Member) (s : State) : Host.Outcome State Fault Refusal := .next (rdcoef b k s)

/-- The meaning of RDSTAT. -/
def execRdstat (k : StatSel) (s : State) : Host.Outcome State Fault Refusal := .next (rdstat k s)

/-- The effect of an instruction taken off the CTL port: WRPARAM and RDPARAM by their meanings. The decoder lets no other
instruction through on that port (R82 (b)). -/
def ctlEffect (i : Instr) (s : State) : State :=
  match i with
  | .wrparam b f d => wrparam b f d s
  | .rdparam b f => rdparam b f s
  | .prepare _ _ _ | .process _ | .rdcoef _ _ | .rdstat _ => raise .illegal s
  | .coefLS | .coefHS | .coefPK | .coefHP | .coefLP => raise .illegal s

/-- One step of the CP agent's port: its next command is taken and answered, an illegal one with ILLEGAL (R82); nothing
happens while no whole command waits (R72). -/
def serveCtl (s : State) : State :=
  match fetch .ctl s.ctlIn with
  | .wait => s
  | .illegal _ len rest => raise .illegal (consume .ctl len rest s)
  | .command i len rest => ctlEffect i (consume .ctl len rest s)

/-- The same step while a command of another port is being executed: that command's port is kept for its response. -/
def serveCtlInside (s : State) : State := { serveCtl s with port := s.port }

end Sys2Proof.Machine
end

