-- ==== Sys2Proof/Machine/Engine.lean ====
section
/-! DEFINITION. The engine: the sampling phase (R56), PREPARE (R170 to R172) and PROCESS (R173 to R180). -/

namespace Sys2Proof.Machine

/-- One read of a sampling phase: `PSNAP[i] <- x[i]` (R56). -/
def sampleReg (r : Reg) (s : State) : State := { s with psnap := setParam s.psnap r (getParam s.params r) }

/-- A sampling phase (R56, U1): the events in order, a read of a register that is still to be read, or one step of the CTL
port between two reads; the registers the events leave unread are read after them. Each register is read exactly once. -/
def samplePhase : List SampleTurn → List Reg → State → State
  | [], left, s => left.foldl (fun t r => sampleReg r t) s
  | .read r :: es, left, s =>
    if r ∈ left then samplePhase es (left.erase r) (sampleReg r s) else samplePhase es left s
  | .ctl :: es, left, s => samplePhase es left (serveCtlInside s)

/-- The sampling phase of one PREPARE or PROCESS, with the next list of events (log entry 12). -/
def samplingPhase (s : State) : State :=
  samplePhase (s.sampling.headD []) Reg.all { s with sampling := s.sampling.tail }

/-- BANDCOEF and SETCOEF of one band (R126, R150): the operands, the band's shape operation, the swap. -/
def recomputeBand (fs : Word) (s : State) (b : Band) : State :=
  let t := factoryRun (shapeOf b) (factoryLoad b fs s)
  setcoef b t.factory.result t

/-- The acceptance check of PREPARE, the channel count before the block size (R171, R199): the code of a refusal. -/
def prepareCheck (maxBlock nch : Word) : Option Code :=
  if nch.toNat ∉ Config.allowedCh then some .rejLayout
  else if maxBlock.toNat = 0 ∨ Config.maxBlkHw < maxBlock.toNat then some .rejBlock
  else none

/-- What an accepted PREPARE does after its sampling phase (R170): the configuration, `ST.RATE_SUBST` (R172), then for each
band STRESET and its coefficient set, `ST.PREPARED`. -/
def prepareEffect (fsw maxBlock nch : Word) (s : State) : State :=
  let fs := fsguard fsw
  let configured := setRateSubst (decide (fs ≠ fsw)) { s with cfg := ⟨fs, maxBlock, nch⟩ }
  setPrepared (allBands.foldl (fun t b => recomputeBand fs (streset b nch.toNat t) b) configured)

/-- PREPARE (R170). -/
def prepare (fsw maxBlock nch : Word) (s : State) : State :=
  match prepareCheck maxBlock nch with
  | some c => raise c s
  | none => respond .ok (prepareEffect fsw maxBlock nch (samplingPhase s))

/-- Phase 2 of PROCESS (R173, R175): all six coefficient sets, bypassed bands too. -/
def recomputeAll (s : State) : State := allBands.foldl (recomputeBand s.cfg.fs) s

/-- Phase 3 of PROCESS for one band (R176, R177): a band whose sampled BYPASS word is not 0 is skipped. -/
def runBand (n : Nat) (s : State) (b : Band) : State :=
  if getParam s.psnap (bypassReg b) = 0#32 then bqproc b n s else s

/-- Phase 3 of PROCESS: the bands in the fixed order HP, LS, P1, P2, HS, LP (R176). -/
def runBands (n : Nat) (s : State) : State := allBands.foldl (runBand n) s

/-- PROCESS (R173): refusals (R174, R199), sampling, coefficients, bands, response. -/
def process (frameCount : Word) (s : State) : State :=
  if !s.st.prepared then raise .notReady s
  else if s.cfg.maxBlock.toNat < frameCount.toNat then raise .rejBlock s
  else respond .ok (runBands frameCount.toNat (recomputeAll (samplingPhase s)))

/-- The meaning of PREPARE. -/
def execPrepare (fsw maxBlock nch : Word) (s : State) : Host.Outcome State Fault Refusal := .next (prepare fsw maxBlock nch s)

/-- The meaning of PROCESS. -/
def execProcess (frameCount : Word) (s : State) : Host.Outcome State Fault Refusal := .next (process frameCount s)

end Sys2Proof.Machine
end

