-- ==== Sys2Proof/Machine/Dispatch.lean ====
section
/-! DEFINITION. exec: one arm per instruction. -/

namespace Sys2Proof.Machine

/-- The meaning of an instruction in a state whose command words have been taken off their port. -/
def exec (i : Instr) (s : State) : Host.Outcome State Fault Refusal :=
  match i with
  | .prepare fs maxBlock nch => Sys2Proof.Machine.execPrepare fs maxBlock nch s
  | .process frameCount => Sys2Proof.Machine.execProcess frameCount s
  | .wrparam band field data => Sys2Proof.Machine.execWrparam band field data s
  | .rdparam band field => Sys2Proof.Machine.execRdparam band field s
  | .rdcoef band member => Sys2Proof.Machine.execRdcoef band member s
  | .rdstat sel => Sys2Proof.Machine.execRdstat sel s
  | .coefLS => Sys2Proof.Machine.execCoefLS s
  | .coefHS => Sys2Proof.Machine.execCoefHS s
  | .coefPK => Sys2Proof.Machine.execCoefPK s
  | .coefHP => Sys2Proof.Machine.execCoefHP s
  | .coefLP => Sys2Proof.Machine.execCoefLP s

end Sys2Proof.Machine
end

