-- ==== Sys2Proof/Machine/Ports.lean ====
section
/-! DEFINITION. Serving the ports: what a step does around the meaning of an instruction (R36, R52, R72, R82). -/

namespace Sys2Proof.Machine

/-- Whether a whole command, legal or not, waits on a port (R72). -/
def hasCommand (p : Port) (s : State) : Bool :=
  match fetch p (waiting p s) with
  | .wait => false
  | .illegal _ _ _ => true
  | .command _ _ _ => true

/-- What a step serves. -/
inductive Served where
  | cmd
  | ctl
  | mem
  | internal (tag : BitVec 3)
  deriving DecidableEq, Repr

/-- The position just after the command at the head of the CMD port; while no word waits there, after the first word of the
command to come. -/
def commandEnd (s : State) : Nat :=
  match s.cmdIn with
  | [] => s.cmdPtr + 1
  | w :: _ => s.cmdPtr + opLength w

/-- Whether the access at the head of the memory port was issued before the command at the head of the CMD port was whole:
then it comes first in the RT agent's order, and otherwise after that command (R52, R58 (d), log entry 25). -/
def memReady (s : State) : Bool :=
  match s.memIn with
  | [] => false
  | q :: _ => decide (q.after < commandEnd s)

/-- What the RT agent's turn serves: its accesses and its commands in the order it issued them. -/
def rtServed (s : State) : Served := if memReady s then .mem else .cmd

/-- What is served next: the head of the turns says whose step it is. With none listed, the RT agent's when it has an
access or a whole command to serve, else the CP agent's when it has one, so that no agent waits for the other (R202, log
entry 11). -/
def nextTurn (s : State) : Served :=
  match s.turns with
  | .rt :: _ => rtServed s
  | .ctl :: _ => .ctl
  | .internal tag :: _ => .internal tag
  | [] => if memReady s || hasCommand .cmd s then rtServed s else if hasCommand .ctl s then .ctl else .cmd

/-- The state with that turn taken. -/
def dropTurn (s : State) : State := { s with turns := s.turns.tail }

/-- Serve a command port: nothing happens while its next command has not arrived whole (R72, U14, log entry 15); an
illegal command is taken off and answered ILLEGAL (R82); any other is taken off and executed. -/
def servePort (run : Instr → State → Host.Outcome State Fault Refusal) (p : Port) (s : State) :
    Host.Outcome State Fault Refusal :=
  match fetch p (waiting p s) with
  | .wait => .next s
  | .illegal _ len rest => .next (raise .illegal (consume p len rest s))
  | .command i len rest => run i (consume p len rest s)

/-- Serve the memory port: a plain word read or write of `BUF` by the RT agent (R52, R188). An address outside `BUF`
names no word (R50, log entry 18). -/
def serveMem (s : State) : Host.Outcome State Fault Refusal :=
  match s.memIn with
  | [] => .next s
  | ⟨_, .read a⟩ :: rest =>
    if a < bufWords then .next { s with memIn := rest, memOut := s.memOut ++ [bufRead s.buf a] } else .fault .noSuchBufWord
  | ⟨_, .write a w⟩ :: rest =>
    if a < bufWords then .next { s with memIn := rest, buf := bufWrite s.buf a w } else .fault .noSuchBufWord

/-- Run one internal operation by its shape tag (R4, R83); the tags 5 to 7 are never produced. -/
def serveInternal (run : Instr → State → Host.Outcome State Fault Refusal) (tag : BitVec 3) (s : State) :
    Host.Outcome State Fault Refusal :=
  match decodeTag tag with
  | .ok i => run i s
  | .error _ => .refused .reservedTag

/-- Place an instruction of the opcode table where the next step takes it (log entry 16). Accesses that wait at the memory
port are put after it in the RT agent's order: no command is longer than four words. -/
def placeWord (s : State) (nbits w : Nat) : State :=
  if nbits < 32 then { s with turns := .internal (BitVec.ofNat 3 w) :: s.turns }
  else
    { s with
      cmdIn := tableWords nbits w
      memIn := s.memIn.map fun q => { q with after := max q.after (s.cmdPtr + 4) }
      turns := .rt :: s.turns }

end Sys2Proof.Machine
end

