-- ==== Sys2Proof/Machine/Step.lean ====
section
/-! DEFINITION. One step: the turn's agent is served (R202, R36). -/

namespace Sys2Proof.Machine

/-- One step: what is next in the turns and in the agents' own orders is served (log entries 11 and 25). -/
def step (s : State) : Host.Outcome State Fault Refusal :=
  match nextTurn s with
  | .cmd => servePort exec .cmd (dropTurn s)
  | .ctl => servePort exec .ctl (dropTurn s)
  | .mem => serveMem (dropTurn s)
  | .internal tag => serveInternal exec tag (dropTurn s)

/-- The state with an instruction of the opcode table placed where the next step takes its instruction: a command's words
are all that waits on the CMD port and the next turn is the RT agent's; a shape tag is the next turn (log entry 16). -/
def State.withFetchWord (s : State) (nbits w : Nat) : State := placeWord s nbits w

end Sys2Proof.Machine
end

