-- ==== Sys2Proof/Machine/Assembler.lean ====
section
/-! DEFINITION. The textual form of commands (R87) and the pseudo-commands (R88). No part of the machine uses it: it says
which instructions a line of a test program stands for. -/

namespace Sys2Proof.Machine

/-! Pseudo-commands: each is its expansion (R88). -/

/-- `BYPASS band`. -/
def expandBypass (b : Band) : List Instr := [.wrparam b .bypass 1#32]

/-- `ENABLE band`. -/
def expandEnable (b : Band) : List Instr := [.wrparam b .bypass 0#32]

/-- `SETBAND band, f, g, q`: three separate writes. -/
def expandSetband (b : Band) (f g q : Word) : List Instr := [.wrparam b .freq f, .wrparam b .gain g, .wrparam b .q q]

/-- `SETCUT band, f`. -/
def expandSetcut (b : Band) (f : Word) : List Instr := [.wrparam b .freq f]

/-- The band and field of a register: the operands that name it (R22). -/
def Reg.operands : Reg → Band × Field
  | .hpFreq => (.hp, .freq)
  | .hpBypass => (.hp, .bypass)
  | .lsFreq => (.ls, .freq)
  | .lsGain => (.ls, .gain)
  | .lsQ => (.ls, .q)
  | .lsBypass => (.ls, .bypass)
  | .p1Freq => (.p1, .freq)
  | .p1Gain => (.p1, .gain)
  | .p1Q => (.p1, .q)
  | .p1Bypass => (.p1, .bypass)
  | .p2Freq => (.p2, .freq)
  | .p2Gain => (.p2, .gain)
  | .p2Q => (.p2, .q)
  | .p2Bypass => (.p2, .bypass)
  | .hsFreq => (.hs, .freq)
  | .hsGain => (.hs, .gain)
  | .hsQ => (.hs, .q)
  | .hsBypass => (.hs, .bypass)
  | .lpFreq => (.lp, .freq)
  | .lpBypass => (.lp, .bypass)

/-- `SAVE`: RDPARAM of the 20 registers in ascending register number. -/
def expandSave : List Instr := Reg.all.map fun r => .rdparam r.operands.1 r.operands.2

/-- `LOAD`: WRPARAM of the 20 registers in ascending register number with the words of a parameter file. -/
def expandLoad (v : ParamFile) : List Instr := Reg.all.map fun r => .wrparam r.operands.1 r.operands.2 (getParam v r)

/-! The text of one line. -/

/-- The value of a decimal digit. -/
def digitOf (c : Char) : Option Nat := if '0' ≤ c ∧ c ≤ '9' then some (c.toNat - 48) else none

/-- The value of a hexadecimal digit. -/
def hexOf (c : Char) : Option Nat :=
  if '0' ≤ c ∧ c ≤ '9' then some (c.toNat - 48)
  else if 'A' ≤ c ∧ c ≤ 'F' then some (c.toNat - 55)
  else if 'a' ≤ c ∧ c ≤ 'f' then some (c.toNat - 87)
  else none

/-- The number a run of digits stands for in a base; none when it is empty or holds another character. -/
def digitsIn (base : Nat) (value : Char → Option Nat) (cs : List Char) : Option Nat :=
  if cs.isEmpty then none
  else cs.foldl (fun acc c => match acc, value c with | some n, some d => some (base * n + d) | _, _ => none) (some 0)

/-- An integer operand: a decimal literal of 32 bits. -/
def parseInt (cs : List Char) : Option Word :=
  match digitsIn 10 digitOf cs with
  | some n => if n < 2 ^ 32 then some (BitVec.ofNat 32 n) else none
  | none => none

/-- A word operand: `0x` and eight hexadecimal digits. -/
def parseHex (cs : List Char) : Option Word :=
  match cs with
  | '0' :: 'x' :: ds => if ds.length = 8 then (digitsIn 16 hexOf ds).map (BitVec.ofNat 32) else none
  | _ => none

/-- The decimal exponent after an `e`, zero when there is none. -/
def parseExponent (cs : List Char) : Option Int :=
  match cs with
  | [] => some 0
  | _ :: '-' :: ds => (digitsIn 10 digitOf ds).map fun n => -(n : Int)
  | _ :: '+' :: ds => (digitsIn 10 digitOf ds).map fun n => (n : Int)
  | _ :: ds => (digitsIn 10 digitOf ds).map fun n => (n : Int)

/-- A decimal literal without sign, rounded to the nearest binary32, ties to even. -/
def parseMagnitude (cs : List Char) : Option Nat :=
  let body := cs.takeWhile fun c => c ≠ 'e'
  let whole := body.takeWhile fun c => c ≠ '.'
  let frac := (body.dropWhile fun c => c ≠ '.').drop 1
  match digitsIn 10 digitOf (whole ++ frac), parseExponent (cs.dropWhile fun c => c ≠ 'e') with
  | some n, some e =>
    let x := e - (frac.length : Int)
    some (roundNearest (n * 2 ^ 149 * 10 ^ x.toNat) (10 ^ (-x).toNat))
  | _, _ => none

/-- A float operand: a decimal literal, or `0x` and the word itself. -/
def parseFloat (cs : List Char) : Option Word :=
  match parseHex cs with
  | some w => some w
  | none =>
    match cs with
    | '-' :: ds => (parseMagnitude ds).map (fPack true)
    | ds => (parseMagnitude ds).map (fPack false)

/-- The band names (R21). -/
def parseBand (cs : List Char) : Option Band :=
  match cs with
  | ['H', 'P'] => some .hp
  | ['L', 'S'] => some .ls
  | ['P', '1'] => some .p1
  | ['P', '2'] => some .p2
  | ['H', 'S'] => some .hs
  | ['L', 'P'] => some .lp
  | _ => none

/-- The field names (R22). -/
def parseField (cs : List Char) : Option Field :=
  if cs = "FREQ".toList then some .freq
  else if cs = "GAIN".toList then some .gain
  else if cs = "Q".toList then some .q
  else if cs = "BYPASS".toList then some .bypass
  else none

/-- A register name `<band>_<field>` of an implemented register (R22). -/
def parseReg (cs : List Char) : Option (Band × Field) :=
  match parseBand (cs.takeWhile fun c => c ≠ '_'), parseField ((cs.dropWhile fun c => c ≠ '_').drop 1) with
  | some b, some f => if b.hasField f then some (b, f) else none
  | _, _ => none

/-- A coefficient name `<band>.<member>`. -/
def parseMember (cs : List Char) : Option (Band × Member) :=
  match parseBand (cs.takeWhile fun c => c ≠ '.'), (cs.dropWhile fun c => c ≠ '.').drop 1 with
  | some b, ['b', '0'] => some (b, .b0)
  | some b, ['b', '1'] => some (b, .b1)
  | some b, ['b', '2'] => some (b, .b2)
  | some b, ['a', '1'] => some (b, .a1)
  | some b, ['a', '2'] => some (b, .a2)
  | _, _ => none

/-- The operand of a register: zero or non-zero for a BYPASS register, a float for any other (R76). -/
def parseRegOperand (f : Field) (cs : List Char) : Option Word :=
  match f with
  | .bypass => (parseHex cs).orElse fun _ => parseInt cs
  | .freq => parseFloat cs
  | .gain => parseFloat cs
  | .q => parseFloat cs

/-- Drop the spaces at both ends. -/
def trimChars (cs : List Char) : List Char :=
  ((cs.dropWhile (· == ' ')).reverse.dropWhile (· == ' ')).reverse

/-- The pieces of a text between the separators. -/
def splitChars (sep : Char) (cs : List Char) : List (List Char) :=
  cs.foldr (fun c acc => match acc with | p :: ps => if c = sep then [] :: p :: ps else (c :: p) :: ps | [] => []) [[]]

/-- The instructions one command or pseudo-command stands for, given its name and operands. -/
def assembleCommand (name : List Char) (args : List (List Char)) : Option (List Instr) :=
  if name = "PREPARE".toList then
    match args with
    | [f, m, n] =>
      match parseFloat f, parseInt m, parseInt n with
      | some f, some m, some n => some [.prepare f m n]
      | _, _, _ => none
    | _ => none
  else if name = "PROCESS".toList then
    match args with
    | [n] => (parseInt n).map fun n => [.process n]
    | _ => none
  else if name = "WRPARAM".toList then
    match args with
    | [r, v] =>
      match parseReg r with
      | some (b, f) => (parseRegOperand f v).map fun d => [.wrparam b f d]
      | none => none
    | _ => none
  else if name = "RDPARAM".toList then
    match args with
    | [r] => (parseReg r).map fun bf => [.rdparam bf.1 bf.2]
    | _ => none
  else if name = "RDCOEF".toList then
    match args with
    | [m] => (parseMember m).map fun bk => [.rdcoef bk.1 bk.2]
    | _ => none
  else if name = "RDSTAT".toList then
    match args with
    | [k] =>
      if k = "ST".toList then some [.rdstat .st]
      else if k = "FS".toList then some [.rdstat .fs]
      else if k = "MAXBLOCK".toList then some [.rdstat .maxBlock]
      else if k = "NCH".toList then some [.rdstat .nch]
      else none
    | _ => none
  else if name = "BYPASS".toList then
    match args with
    | [b] => (parseBand b).map expandBypass
    | _ => none
  else if name = "ENABLE".toList then
    match args with
    | [b] => (parseBand b).map expandEnable
    | _ => none
  else if name = "SETBAND".toList then
    match args with
    | [b, f, g, q] =>
      match parseBand b, parseFloat f, parseFloat g, parseFloat q with
      | some b, some f, some g, some q => if b.hasField .gain then some (expandSetband b f g q) else none
      | _, _, _, _ => none
    | _ => none
  else if name = "SETCUT".toList then
    match args with
    | [b, f] =>
      match parseBand b, parseFloat f with
      | some b, some f => if b.hasField .gain then none else some (expandSetcut b f)
      | _, _ => none
    | _ => none
  else if name = "SAVE".toList then
    if args.isEmpty then some expandSave else none
  else if name = "LOAD".toList then
    if args.length = 20 then
      (Reg.all.zip args).mapM fun ra =>
        (parseRegOperand ra.1.operands.2 ra.2).map fun d => .wrparam ra.1.operands.1 ra.1.operands.2 d
    else none
  else none

/-- One line (R87): an optional `CTL:`, a command with operands separated by commas, an optional comment after `;`. An
empty line stands for no instruction. -/
def assembleLine (line : List Char) : Option (Port × List Instr) :=
  let text := trimChars (line.takeWhile fun c => c ≠ ';')
  let onCtl := text.take 4 = "CTL:".toList
  let body := if onCtl then trimChars (text.drop 4) else text
  let port := if onCtl then Port.ctl else Port.cmd
  if body.isEmpty then some (port, [])
  else
    let args := trimChars (body.dropWhile fun c => c ≠ ' ')
    (assembleCommand (body.takeWhile fun c => c ≠ ' ')
      (if args.isEmpty then [] else (splitChars ',' args).map trimChars)).map fun is => (port, is)

end Sys2Proof.Machine
end

