-- ==== Sys2Proof/Safety.lean ====
section
/-! DEFINITION. What the statements call a good state and a safe step. -/

namespace Sys2Proof.Machine

/-- What holds of every state a run from reset can be in. -/
structure State.Inv (s : State) : Prop where
  /-- `BUF`'s cells are in canonical form. -/
  bufWf : Memory.wf s.buf = true
  /-- `BUF`'s cells lie inside `BUF` (R50, R63). -/
  bufInside : ∀ c ∈ s.buf, c.1 < 4 * bufWords
  /-- A BYPASS register holds one bit (R23). -/
  bypassBits : ∀ b, getParam s.params (bypassReg b) = 0#32 ∨ getParam s.params (bypassReg b) = 1#32
  /-- Once Prepared, the effective rate is finite and greater than zero (R27). -/
  rateValid : s.st.prepared = true → isFinite s.cfg.fs = true ∧ fgt s.cfg.fs 0#32 = true
  /-- Once Prepared, the block capacity is in `1 .. MAXBLK_HW` (R27, R186). -/
  blockValid : s.st.prepared = true → 1 ≤ s.cfg.maxBlock.toNat ∧ s.cfg.maxBlock.toNat ≤ Config.maxBlkHw
  /-- Once Prepared, the channel count is a member of `ALLOWED_CH` (R27, R186). -/
  channelsValid : s.st.prepared = true → s.cfg.nch.toNat ∈ Config.allowedCh
  /-- RATE_SUBST tells of an accepted PREPARE that took `FS_DEFAULT` (R28, R172). -/
  substDefault : s.st.rateSubst = true → s.st.prepared = true ∧ s.cfg.fs = Config.fsDefault

/-- A step that does not stop. -/
def Steps (s : State) : Prop := ∃ t, step s = .next t

end Sys2Proof.Machine
end

