-- ==== Sys2Proof/Certificates/Slice0/Obligations.lean ====
section
/-! DEFINITION. The statements for the provers, and the few notions they are said in. -/

namespace Sys2Proof.Claims

open Sys2Proof Sys2Proof.Machine

/-- The words sent on a port since reset. -/
def sentOn : Port → State → List Word
  | .cmd, s => s.cmdOut
  | .ctl, s => s.ctlOut

/-- The state with words sent on the port of the command being executed. -/
def withSent (ws : List Word) (s : State) : State :=
  { s with
    cmdOut := if s.port = .cmd then s.cmdOut ++ ws else s.cmdOut
    ctlOut := if s.port = .ctl then s.ctlOut ++ ws else s.ctlOut }

/-- What serves a port. -/
def turnOf : Port → Served
  | .cmd => .cmd
  | .ctl => .ctl

/-- The stream position of a port (R36). -/
def positionOf : Port → State → Nat
  | .cmd, s => s.cmdPtr
  | .ctl, s => s.ctlPtr

/-- The fields of a command word as numbers (R71). -/
def opNum (w : Word) : Nat := w.toNat / 2 ^ 28
def bandNum (w : Word) : Nat := w.toNat / 2 ^ 25 % 8
def selNum (w : Word) : Nat := w.toNat / 2 ^ 22 % 8
def lowNum (w : Word) : Nat := w.toNat % 2 ^ 22

/-- The nine clauses of R82, (a) to (i). -/
def IllegalWord (p : Port) (w : Word) : Prop :=
  (opNum w = 0 ∨ 7 ≤ opNum w) ∨
  (p = .ctl ∧ (opNum w = 1 ∨ opNum w = 2 ∨ opNum w = 5 ∨ opNum w = 6)) ∨
  lowNum w ≠ 0 ∨
  6 ≤ bandNum w ∨
  ((opNum w = 1 ∨ opNum w = 2 ∨ opNum w = 6) ∧ bandNum w ≠ 0) ∨
  ((opNum w = 1 ∨ opNum w = 2) ∧ selNum w ≠ 0) ∨
  ((opNum w = 3 ∨ opNum w = 4) ∧
    (4 ≤ selNum w ∨ ((bandNum w = 0 ∨ bandNum w = 5) ∧ (selNum w = 1 ∨ selNum w = 2)))) ∨
  (opNum w = 5 ∧ 5 ≤ selNum w) ∨
  (opNum w = 6 ∧ 4 ≤ selNum w)

/-- The command lengths of R72. -/
def wordLength (w : Word) : Nat :=
  if opNum w = 1 then 4 else if opNum w = 2 ∨ opNum w = 3 then 2 else 1

/-- The legal command words of 95_test_vectors.md section 2.1: the WRPARAM words, one for each implemented register. -/
def wrparamWords : List Word :=
  [0x30000000#32, 0x30C00000#32, 0x32000000#32, 0x32400000#32, 0x32800000#32, 0x32C00000#32, 0x34000000#32, 0x34400000#32,
   0x34800000#32, 0x34C00000#32, 0x36000000#32, 0x36400000#32, 0x36800000#32, 0x36C00000#32, 0x38000000#32, 0x38400000#32,
   0x38800000#32, 0x38C00000#32, 0x3A000000#32, 0x3AC00000#32]

/-- The RDCOEF words: five members from each band's first word on. -/
def rdcoefWords : List Word :=
  [0x50000000#32, 0x52000000#32, 0x54000000#32, 0x56000000#32, 0x58000000#32, 0x5A000000#32].flatMap fun w =>
    [w, w + 0x400000#32, w + 0x800000#32, w + 0xC00000#32, w + 0x1000000#32]

/-- All legal command words of a port. -/
def legalWords : Port → List Word
  | .cmd =>
    [0x10000000#32, 0x20000000#32] ++ wrparamWords ++ wrparamWords.map (· + 0x10000000#32) ++ rdcoefWords ++
      [0x60000000#32, 0x60400000#32, 0x60800000#32, 0x60C00000#32]
  | .ctl => wrparamWords ++ wrparamWords.map (· + 0x10000000#32)

/-- The state with the bit `ST.ERR` replaced. -/
def withErr (e : Bool) (s : State) : State := { s with st := { s.st with err := e } }

/-- No CTL command falls into the coming sampling phase. -/
def QuietSampling (s : State) : Prop := SampleTurn.ctl ∉ s.sampling.headD []

/-- Instructions executed one after the other, while each gives a next state. -/
def execAll : List Instr → State → Option State
  | [], s => some s
  | i :: is, s =>
    match exec i s with
    | .next t => execAll is t
    | .fault _ => none
    | .refused _ => none

/-- The samples of a channel in the first `n` frames of `BUF`. -/
def lane (s : State) (ch : Fin Config.maxCh) (n : Nat) : List Word :=
  (List.range n).map fun k => bufRead s.buf (bufAddr s ch k)

/-- One band as a stage of a cascade on a stream of samples: its coefficients, whether it is run, its delay pair. -/
structure Stage (F : Type) where
  coefs : CoefSet F
  on : Bool
  pair : Delay F

/-- The bands of a channel as stages: given coefficient sets and bypass words, the delay pairs of a state. -/
def stagesOf (coefs : Band → CoefSet Word) (snap : ParamFile) (s : State) (ch : Fin Config.maxCh) : List (Stage Word) :=
  allBands.map fun b => ⟨coefs b, decide (getParam snap (bypassReg b) = 0#32), getDelay s b ch⟩

/-- A stage on a whole block: a stage that is not run passes the block on and keeps its pair. -/
def stageRun {F : Type} (A : Arith F) (g : Stage F) (xs : List F) : List F × Stage F :=
  if g.on then ((bqList A g.coefs g.pair xs).1, { g with pair := (bqList A g.coefs g.pair xs).2 }) else (xs, g)

/-- The stages one after the other, each over the whole block. -/
def cascade {F : Type} (A : Arith F) : List (Stage F) → List F → List F × List (Stage F)
  | [], xs => (xs, [])
  | g :: gs, xs =>
    let r := stageRun A g xs
    let rest := cascade A gs r.1
    (rest.1, r.2 :: rest.2)

/-- One sample through all stages. -/
def frameStep {F : Type} (A : Arith F) : List (Stage F) → F → F × List (Stage F)
  | [], x => (x, [])
  | g :: gs, x =>
    if g.on then
      let r := bqstep A g.coefs g.pair x
      let rest := frameStep A gs r.1
      (rest.1, { g with pair := r.2 } :: rest.2)
    else
      let rest := frameStep A gs x
      (rest.1, g :: rest.2)

/-- A block frame by frame: every sample through all stages before the next sample. -/
def frameRun {F : Type} (A : Arith F) : List (Stage F) → List F → List F × List (Stage F)
  | gs, [] => ([], gs)
  | gs, x :: xs =>
    let r := frameStep A gs x
    let rest := frameRun A r.2 xs
    (r.1 :: rest.1, rest.2)

/-- A quiet NaN: exponent all ones and bit 22 set (U6). -/
def QuietNaN (w : Word) : Prop := w &&& 0x7FC00000#32 = 0x7FC00000#32

/-- The word is the real number rounded once to binary32, to nearest with ties to even; from `2^128 - 2^103` on the result
is the infinity of the number's sign (R7). -/
def IsRounded (x : ℝ) (w : Word) : Prop :=
  if |x| < 2 ^ 128 - 2 ^ 103 then
    isFinite w = true ∧
      ∀ v, isFinite v = true →
        |(fVal w : ℝ) - x| ≤ |(fVal v : ℝ) - x| ∧
          (|(fVal w : ℝ) - x| = |(fVal v : ℝ) - x| → fVal v ≠ fVal w → w.toNat % 2 = 0)
  else isInf w = true ∧ (fNeg w = true ↔ x < 0)

/-- The arithmetic of the real numbers, for the laws the spec gives in exact arithmetic (D35). -/
noncomputable def realArith : Arith ℝ where
  add := fun a b => a + b
  sub := fun a b => a - b
  mul := fun a b => a * b
  div := fun a b => a / b
  neg := fun a => -a
  sqrt := Real.sqrt
  sin := Real.sin
  cos := Real.cos
  one := 1
  two := 2
  negTwo := -2
  twoPi := 2 * Real.pi

/-- The factory over the real numbers. -/
noncomputable def realCoefs (sh : Shape) (fs f q g : ℝ) : CoefSet ℝ :=
  shapeCoefs realArith sh (common realArith fs f q).1 (common realArith fs f q).2 g

/-- `|H(z)|` with `H(z) = (b0 + b1/z + b2/z²)/(1 + a1/z + a2/z²)` (R141). -/
noncomputable def gainAt (c : CoefSet ℝ) (z : ℂ) : ℝ :=
  ‖((c.b0 : ℂ) + c.b1 / z + c.b2 / z ^ 2) / (1 + c.a1 / z + c.a2 / z ^ 2)‖

/-- The point of the unit circle at a frequency: `e^(j2πf/fs)`. -/
noncomputable def circleAt (f fs : ℝ) : ℂ := Complex.exp ((2 * Real.pi * f / fs : ℝ) * Complex.I)

/-- The sample `n - k` of a list, zero before its start. -/
def past (xs : List ℝ) (n k : Nat) : ℝ := if k ≤ n then xs.getD (n - k) 0 else 0

end Sys2Proof.Claims

section

open Sys2Proof Sys2Proof.Machine Sys2Proof.Claims

/-! Decoding. -/

/-- R71, R73, R75, R76, R83. -/
def Obligations.DecodingAnEncodedInstructionGivesItBack : Prop :=
  ∀ (p : Port) (i : Instr), i.wellFormed = true → (i.legalOn p = true ∨ i.isCommand = false) →
    decodeEncoded p (encode i) = some i

/-- R71, R76: no bit of a legal command word is without meaning. -/
def Obligations.LegalCommandHasOneEncoding : Prop :=
  ∀ (p : Port) (w x1 x2 x3 : Word) (i : Instr), decode p w x1 x2 x3 = .ok i →
    encode i = .words ((w :: [x1, x2, x3]).take (wordLength w))

/-- R73, R75, R82. -/
def Obligations.DecodedCommandIsWellFormedAndLegal : Prop :=
  ∀ (p : Port) (w x1 x2 x3 : Word) (i : Instr), decode p w x1 x2 x3 = .ok i → i.wellFormed = true ∧ i.legalOn p = true

/-- R82 whole: which words are illegal, what an illegal command does on each port, and that decode is total. -/
def Obligations.IllegalWordsAreRefusedWithoutEffect : Prop :=
  (∀ (p : Port) (w x1 x2 x3 : Word), IllegalWord p w ↔ ∃ e, decode p w x1 x2 x3 = .error e) ∧
  (∀ (s : State) (w : Word) (ws : List Word), nextTurn s = .cmd → s.cmdIn = w :: ws → wordLength w ≤ ws.length + 1 →
    IllegalWord .cmd w →
    step s = .next
      { s with
        turns := s.turns.tail
        cmdIn := ws.drop (wordLength w - 1)
        cmdPtr := s.cmdPtr + wordLength w
        port := .cmd
        st := { s.st with err := true }
        cmdOut := s.cmdOut ++ [4#32] }) ∧
  (∀ (s : State) (w : Word) (ws : List Word), nextTurn s = .ctl → s.ctlIn = w :: ws → wordLength w ≤ ws.length + 1 →
    IllegalWord .ctl w →
    step s = .next
      { s with
        turns := s.turns.tail
        ctlIn := ws.drop (wordLength w - 1)
        ctlPtr := s.ctlPtr + wordLength w
        port := .ctl
        ctlOut := s.ctlOut ++ [4#32] })

/-- 95_test_vectors.md section 2.1: 76 legal command words on the CMD port, 40 on the CTL port. -/
def Obligations.LegalWordsAreTheSeventySixOfTheTable : Prop :=
  (legalWords .cmd).length = 76 ∧ (legalWords .ctl).length = 40 ∧ (legalWords .cmd).Nodup ∧
    ∀ (p : Port) (w x1 x2 x3 : Word), (∃ i, decode p w x1 x2 x3 = .ok i) ↔ w ∈ legalWords p

/-- Sanity: some words of the table of 95_test_vectors.md section 2.1 and R87. -/
def Obligations.SampleWordsDecodeAsTheTableSays : Prop :=
  decode .cmd 0x10000000#32 0x473B8000#32 8#32 2#32 = .ok (.prepare 0x473B8000#32 8#32 2#32) ∧
  decode .cmd 0x20000000#32 8#32 0#32 0#32 = .ok (.process 8#32) ∧
  decode .ctl 0x32400000#32 0x40C00000#32 0#32 0#32 = .ok (.wrparam .ls .gain 0x40C00000#32) ∧
  decode .cmd 0x4A000000#32 0#32 0#32 0#32 = .ok (.rdparam .lp .freq) ∧
  decode .cmd 0x53000000#32 0#32 0#32 0#32 = .ok (.rdcoef .ls .a2) ∧
  decode .cmd 0x60C00000#32 0#32 0#32 0#32 = .ok (.rdstat .nch) ∧
  decodeTag 4#3 = .ok .coefLP

/-! The step. -/

/-- R36, R72: a step runs the command at the head of the port it serves, its words taken off first. -/
def Obligations.StepRunsTheDecodedCommand : Prop :=
  ∀ (s : State) (p : Port) (i : Instr) (len : Nat) (rest : List Word), nextTurn s = turnOf p →
    fetch p (waiting p s) = .command i len rest → step s = exec i (consume p len rest (dropTurn s))

/-- THE MODEL'S CHOICE, log entry 14: an internal operation can be given on its own, by its shape tag, and runs as its
instruction; the reserved tags are refused. R4 and R83 name the operations and the tags, and no step of their own. -/
def Obligations.StepRunsAnInternalOperation : Prop :=
  ∀ (s : State) (tag : BitVec 3), nextTurn s = .internal tag →
    (∀ i, decodeTag tag = .ok i → step s = exec i (dropTurn s)) ∧
    (5 ≤ tag.toNat → step s = .refused .reservedTag)

/-- R72: the lengths, and that a command does not start until all its words have arrived. That the step is then an idle
one, which takes the turn and changes nothing else, also with no word waiting, is the model's own reading, log entry 15. -/
def Obligations.CommandWaitsForAllItsWords : Prop :=
  (∀ w : Word, opLength w = wordLength w) ∧
  ∀ (s : State) (p : Port), nextTurn s = turnOf p →
    (waiting p s = [] ∨ ∃ w ws, waiting p s = w :: ws ∧ ws.length + 1 < wordLength w) → step s = .next (dropTurn s)

/-- R36, R187, R195: every whole command on either port, whatever its response, ends in a next state, with that port's
stream moved on by its length; a command of the CTL port leaves the CMD port's stream where it was. -/
def Obligations.EveryCommandMovesTheStreamByItsLength : Prop :=
  ∀ (s : State) (p : Port) (w : Word) (ws : List Word), nextTurn s = turnOf p → waiting p s = w :: ws →
    wordLength w ≤ ws.length + 1 →
    ∃ t, step s = .next t ∧ positionOf p t = positionOf p s + wordLength w ∧ waiting p t = ws.drop (wordLength w - 1) ∧
      (p = .ctl → t.cmdPtr = s.cmdPtr ∧ t.cmdIn = s.cmdIn)

/-- R50, R83, R195: the only stops are a memory port access outside BUF and a reserved shape tag. -/
def Obligations.OnlyMemoryPortAndReservedTagsStop : Prop :=
  (∀ (s : State) (f : Fault), step s = .fault f →
    nextTurn s = .mem ∧ ∃ k a, bufWords ≤ a ∧
      (s.memIn.head? = some ⟨k, .read a⟩ ∨ ∃ w, s.memIn.head? = some ⟨k, .write a w⟩)) ∧
  (∀ (s : State) (r : Refusal), step s = .refused r → ∃ tag : BitVec 3, nextTurn s = .internal tag ∧ 5 ≤ tag.toNat)

/-- R52, R58 (d), R188: the memory port between commands, one word at a time, and its place in the RT agent's order (held
as log entry 25 says): an access issued before a command was whole comes before that command, one issued after it comes
after it, whatever the turns are. -/
def Obligations.MemoryPortReadsAndWritesOneWord : Prop :=
  (∀ (s : State) (j a : Nat) (rest : List MemAccess), nextTurn s = .mem → a < bufWords →
    (s.memIn = ⟨j, .read a⟩ :: rest →
      step s = .next { s with turns := s.turns.tail, memIn := rest, memOut := s.memOut ++ [bufRead s.buf a] }) ∧
    (∀ w, s.memIn = ⟨j, .write a w⟩ :: rest →
      ∃ t, step s = .next t ∧ t = { s with turns := s.turns.tail, memIn := rest, buf := t.buf } ∧ bufRead t.buf a = w ∧
        ∀ k, k / 4 ≠ a → bufByte t.buf k = bufByte s.buf k)) ∧
  (∀ (s : State) (q : MemAccess) (rest : List MemAccess) (w : Word) (ws : List Word), s.memIn = q :: rest →
    s.cmdIn = w :: ws →
    (q.after < s.cmdPtr + wordLength w →
      nextTurn s ≠ .cmd ∧ (s.turns = [] ∨ s.turns.head? = some .rt → nextTurn s = .mem)) ∧
    (s.cmdPtr + wordLength w ≤ q.after → nextTurn s ≠ .mem ∧ (s.turns.head? = some .rt → nextTurn s = .cmd)))

/-! Whole-machine rules. -/

/-- The invariant is what reset leaves. -/
def Obligations.InvariantHoldsAtReset : Prop := State.reset.Inv

/-- R23, R27, R28, R50, R63, R186: every step keeps the invariant. -/
def Obligations.EveryStepKeepsTheInvariant : Prop :=
  ∀ s t : State, s.Inv → step s = .next t → t.Inv

/-- R24, R35, R210: the reset values of the registers: `ST` all zero (Unprepared, no substitution, no error), both stream
positions 0, and the 20 parameter registers (for all but HP_BYPASS and LP_BYPASS the default values of the parameters
`RST_<name>`, the model's choice, log entry 2). -/
def Obligations.RegistersAtReset : Prop :=
  State.reset.st = ⟨false, false, false⟩ ∧ statusWord State.reset.st = 0#32 ∧
  State.reset.cmdPtr = 0 ∧ State.reset.ctlPtr = 0 ∧
  Reg.all.map (getParam State.reset.params) =
    [0x41A00000#32, 0x00000001#32,
     0x437A0000#32, 0x00000000#32, 0x3F3504F3#32, 0x00000000#32,
     0x43FA0000#32, 0x00000000#32, 0x3F3504F3#32, 0x00000000#32,
     0x453B8000#32, 0x00000000#32, 0x3F3504F3#32, 0x00000000#32,
     0x45FA0000#32, 0x00000000#32, 0x3F3504F3#32, 0x00000000#32,
     0x469C4000#32, 0x00000001#32]

/-- R28, R29, R200: no step clears PREPARED or ERR. -/
def Obligations.PreparedAndErrAreNeverCleared : Prop :=
  ∀ s t : State, step s = .next t → (s.st.prepared = true → t.st.prepared = true) ∧ (s.st.err = true → t.st.err = true)

/-- R200: ST.ERR never influences what a command does; only RDSTAT ST shows it. -/
def Obligations.ErrNeverInfluencesACommand : Prop :=
  ∀ (i : Instr) (s t : State) (e : Bool), i ≠ .rdstat .st → exec i s = .next t →
    ∃ e', exec i (withErr e s) = .next (withErr e' t)

/-- R27, R28: only PREPARE writes CFG, PREPARED and RATE_SUBST. -/
def Obligations.OnlyPrepareWritesTheConfiguration : Prop :=
  ∀ (i : Instr) (s t : State), (∀ fs mb n, i ≠ .prepare fs mb n) → exec i s = .next t →
    t.cfg = s.cfg ∧ t.st.prepared = s.st.prepared ∧ t.st.rateSubst = s.st.rateSubst

/-- R23, R201: with no CTL command in the sampling phase, only WRPARAM changes a parameter register. -/
def Obligations.EngineNeverWritesAParameter : Prop :=
  ∀ (i : Instr) (s t : State), (∀ b f d, i ≠ .wrparam b f d) → QuietSampling s → exec i s = .next t → t.params = s.params

/-- R201: a step of the CTL port reaches the parameter registers and its own stream only. -/
def Obligations.CtlPortReachesParametersOnly : Prop :=
  ∀ s t : State, nextTurn s = .ctl → step s = .next t →
    t = { s with turns := s.turns.tail, params := t.params, ctlIn := t.ctlIn, ctlPtr := t.ctlPtr, ctlOut := t.ctlOut, port := t.port }

/-- R198: a refused command on the CMD port changes nothing but ST.ERR and its response. -/
def Obligations.RefusedCommandHasNoPartialEffect : Prop :=
  ∀ (i : Instr) (s t : State) (c : Word), s.port = .cmd → i.isCommand = true → exec i s = .next t →
    t.cmdOut = s.cmdOut ++ [c] → c ≠ 0#32 → t = { s with st := { s.st with err := true }, cmdOut := s.cmdOut ++ [c] }

/-- R80: every command is answered by one response word on its port, and a read command's OK by one data word more. -/
def Obligations.EveryCommandIsAnsweredOnce : Prop :=
  ∀ (i : Instr) (s : State), i.legalOn s.port = true →
    ∃ t, exec i s = .next t ∧
      ((∃ c : Code, sentOn s.port t = sentOn s.port s ++ [codeWord c] ∧
          ((∃ b f, i = .rdparam b f) ∨ (∃ b k, i = .rdcoef b k) ∨ (∃ k, i = .rdstat k) → c ≠ .ok)) ∨
        (∃ d, sentOn s.port t = sentOn s.port s ++ [0#32, d] ∧
          ((∃ b f, i = .rdparam b f) ∨ (∃ b k, i = .rdcoef b k) ∨ (∃ k, i = .rdstat k))))

/-! Parameter and read-back commands. -/

/-- R100: the register named stores the word (one bit for BYPASS), every other register and everything else is as before,
the response is OK on the port the command came from; in both engine states. -/
def Obligations.WrparamStoresTheWord : Prop :=
  ∀ (s : State) (b : Band) (f : Field) (d : Word) (r : Reg), regOf b f = some r →
    ∃ t, exec (.wrparam b f d) s = .next t ∧
      getParam t.params r = (if f = .bypass then (if d ≠ 0#32 then 1#32 else 0#32) else d) ∧
      (∀ r', r' ≠ r → getParam t.params r' = getParam s.params r') ∧
      t = withSent [0#32] { s with params := t.params }

/-- R101: the stored word, on the port the command came from; no state changed; in both engine states. -/
def Obligations.RdparamAnswersTheStoredWord : Prop :=
  ∀ (s : State) (b : Band) (f : Field) (r : Reg), regOf b f = some r →
    exec (.rdparam b f) s = .next (withSent [0#32, getParam s.params r] s)

/-- R102: NOT_READY while Unprepared, else the member of the band's active set. -/
def Obligations.RdcoefAnswersTheActiveCoefficient : Prop :=
  ∀ (s : State) (b : Band) (k : Member), s.port = .cmd →
    (s.st.prepared = true →
      exec (.rdcoef b k) s = .next
        { s with
          cmdOut := s.cmdOut ++
            [0#32, (match k with
              | .b0 => (getCoef s b).b0
              | .b1 => (getCoef s b).b1
              | .b2 => (getCoef s b).b2
              | .a1 => (getCoef s b).a1
              | .a2 => (getCoef s b).a2)] }) ∧
    (s.st.prepared = false →
      exec (.rdcoef b k) s = .next { s with st := { s.st with err := true }, cmdOut := s.cmdOut ++ [1#32] })

/-- R103: ST in both engine states, with its three bits and zeros above; the configuration once Prepared. -/
def Obligations.RdstatAnswersStatusAndConfiguration : Prop :=
  ∀ (s : State), s.port = .cmd →
    (∃ d, exec (.rdstat .st) s = .next { s with cmdOut := s.cmdOut ++ [0#32, d] } ∧
      d.toNat = (if s.st.prepared then 1 else 0) + (if s.st.rateSubst then 2 else 0) + (if s.st.err then 4 else 0)) ∧
    (s.st.prepared = true →
      exec (.rdstat .fs) s = .next { s with cmdOut := s.cmdOut ++ [0#32, s.cfg.fs] } ∧
      exec (.rdstat .maxBlock) s = .next { s with cmdOut := s.cmdOut ++ [0#32, s.cfg.maxBlock] } ∧
      exec (.rdstat .nch) s = .next { s with cmdOut := s.cmdOut ++ [0#32, s.cfg.nch] }) ∧
    (s.st.prepared = false → ∀ k, k ≠ .st →
      exec (.rdstat k) s = .next { s with st := { s.st with err := true }, cmdOut := s.cmdOut ++ [1#32] })

/-- R88, R101, R196: SAVE returns the 20 words, and LOAD of them puts the 20 registers back, from any other state. -/
def Obligations.SaveThenLoadRestoresAllParameters : Prop :=
  ∀ s u : State, s.Inv → s.port = .cmd →
    (∃ t, execAll expandSave s = some t ∧
      t = { s with cmdOut := s.cmdOut ++ (Reg.all.map fun r => [0#32, getParam s.params r]).flatten }) ∧
    ∃ t, execAll (expandLoad s.params) u = some t ∧ t.params = s.params

/-! The engine. -/

/-- R170, R172: an accepted PREPARE. -/
def Obligations.AcceptedPrepareConfiguresAndRestarts : Prop :=
  ∀ (s : State) (fsw maxBlock nch : Word), s.port = .cmd → nch.toNat ∈ Config.allowedCh → 1 ≤ maxBlock.toNat →
    maxBlock.toNat ≤ Config.maxBlkHw →
    ∃ t, exec (.prepare fsw maxBlock nch) s = .next t ∧
      t.cfg = ⟨if isFinite fsw && fgt fsw 0#32 then fsw else 0x472C4400#32, maxBlock, nch⟩ ∧
      t.st = ⟨true, !(isFinite fsw && fgt fsw 0#32), s.st.err⟩ ∧
      (∀ b ch, getDelay t b ch = ⟨0#32, 0#32⟩) ∧
      t.psnap = (samplingPhase s).psnap ∧
      (∀ b, getCoef t b = bandcoef b t.psnap t.cfg.fs) ∧
      t.cmdOut = s.cmdOut ++ [0#32] ∧
      t = { s with
            cfg := t.cfg
            st := t.st
            delay := t.delay
            coef := t.coef
            psnap := t.psnap
            factory := t.factory
            cmdOut := t.cmdOut
            params := (samplingPhase s).params
            ctlIn := (samplingPhase s).ctlIn
            ctlPtr := (samplingPhase s).ctlPtr
            ctlOut := (samplingPhase s).ctlOut
            sampling := s.sampling.tail }

/-- R171, R199: a rejected PREPARE changes nothing but ST.ERR, and the channel count is tested first. -/
def Obligations.RejectedPrepareChangesNothing : Prop :=
  ∀ (s : State) (fsw maxBlock nch : Word), s.port = .cmd →
    (nch ≠ 2#32 →
      exec (.prepare fsw maxBlock nch) s = .next { s with st := { s.st with err := true }, cmdOut := s.cmdOut ++ [2#32] }) ∧
    (nch = 2#32 → (maxBlock = 0#32 ∨ Config.maxBlkHw < maxBlock.toNat) →
      exec (.prepare fsw maxBlock nch) s = .next { s with st := { s.st with err := true }, cmdOut := s.cmdOut ++ [3#32] })

/-- R174: PROCESS refused, with no state changed but ST.ERR, and that these are the only refusals. -/
def Obligations.RefusedProcessChangesNothing : Prop :=
  ∀ (s : State) (n : Word), s.port = .cmd →
    (s.st.prepared = false →
      exec (.process n) s = .next { s with st := { s.st with err := true }, cmdOut := s.cmdOut ++ [1#32] }) ∧
    (s.st.prepared = true → s.cfg.maxBlock.toNat < n.toNat →
      exec (.process n) s = .next { s with st := { s.st with err := true }, cmdOut := s.cmdOut ++ [3#32] }) ∧
    (s.st.prepared = true → n.toNat ≤ s.cfg.maxBlock.toNat →
      ∃ t, exec (.process n) s = .next t ∧ t.cmdOut = s.cmdOut ++ [0#32])

/-- R173, R175, R195: an accepted PROCESS, its registers: all six sets recomputed from what was sampled, bypassed bands
too; CFG, ST and everything outside its effect as before. -/
def Obligations.AcceptedProcessRecomputesEveryBand : Prop :=
  ∀ (s : State) (n : Word), s.port = .cmd → s.st.prepared = true → n.toNat ≤ s.cfg.maxBlock.toNat →
    ∃ t, exec (.process n) s = .next t ∧
      t.psnap = (samplingPhase s).psnap ∧
      (∀ b, getCoef t b = bandcoef b t.psnap s.cfg.fs) ∧
      t.cmdOut = s.cmdOut ++ [0#32] ∧
      t = { s with
            delay := t.delay
            coef := t.coef
            psnap := t.psnap
            factory := t.factory
            buf := t.buf
            cmdOut := t.cmdOut
            params := (samplingPhase s).params
            ctlIn := (samplingPhase s).ctlIn
            ctlPtr := (samplingPhase s).ctlPtr
            ctlOut := (samplingPhase s).ctlOut
            sampling := s.sampling.tail }

/-- R155, R173, R176, R177: the samples of every channel go through the bands that are not bypassed, in the fixed order,
each starting from the pair it kept and leaving the pair it ends with; every other byte of BUF is as before. -/
def Obligations.AcceptedProcessFiltersEveryLane : Prop :=
  ∀ (s : State) (n : Word), s.port = .cmd → s.st.prepared = true → n.toNat ≤ s.cfg.maxBlock.toNat →
    ∃ t, exec (.process n) s = .next t ∧
      (∀ ch : Fin Config.maxCh, ch.val < s.cfg.nch.toNat →
        lane t ch n.toNat = (cascade arith32 (stagesOf (getCoef t) t.psnap s ch) (lane s ch n.toNat)).1 ∧
        allBands.map (fun b => getDelay t b ch) =
          (cascade arith32 (stagesOf (getCoef t) t.psnap s ch) (lane s ch n.toNat)).2.map Stage.pair) ∧
      (∀ (b : Band) (ch : Fin Config.maxCh), s.cfg.nch.toNat ≤ ch.val → getDelay t b ch = getDelay s b ch) ∧
      (∀ a, (∀ (ch : Fin Config.maxCh) (k : Nat), ch.val < s.cfg.nch.toNat → k < n.toNat → a / 4 ≠ bufAddr s ch k) →
        Memory.read? t.buf a = Memory.read? s.buf a)

/-- R177: a bypassed band keeps its delay pairs, and with all six bypassed BUF is bit for bit as before. -/
def Obligations.BypassedBandsTouchNothing : Prop :=
  ∀ (s : State) (n : Word), s.port = .cmd → s.st.prepared = true → n.toNat ≤ s.cfg.maxBlock.toNat →
    ∃ t, exec (.process n) s = .next t ∧
      (∀ b, getParam (samplingPhase s).psnap (bypassReg b) ≠ 0#32 → ∀ ch, getDelay t b ch = getDelay s b ch) ∧
      ((∀ b, getParam (samplingPhase s).psnap (bypassReg b) ≠ 0#32) → t.buf = s.buf ∧ t.delay = s.delay)

/-- R179: a block of zero frames. -/
def Obligations.ProcessOfZeroFramesOnlyRecomputes : Prop :=
  ∀ s : State, s.port = .cmd → s.st.prepared = true →
    ∃ t, exec (.process 0#32) s = .next t ∧ t.psnap = (samplingPhase s).psnap ∧
      (∀ b, getCoef t b = bandcoef b t.psnap s.cfg.fs) ∧ t.delay = s.delay ∧ t.buf = s.buf ∧ t.cmdOut = s.cmdOut ++ [0#32]

/-- R63, R186: every address a PROCESS forms lies inside BUF and below 2^32. -/
def Obligations.ProcessStaysInsideTheBuffer : Prop :=
  ∀ (s : State) (n ch k : Nat), s.Inv → s.st.prepared = true → n ≤ s.cfg.maxBlock.toNat → ch < s.cfg.nch.toNat → k < n →
    bufAddr s ch k < bufWords ∧ bufAddr s ch k < 2 ^ 32

/-- R158: what a channel's samples and pairs become depends on that channel's samples and pairs, the configuration and
what the sampling phase reads, and on nothing of another channel. -/
def Obligations.ChannelsAreIndependent : Prop :=
  ∀ (s s' t t' : State) (n : Word) (ch : Fin Config.maxCh),
    s.st = s'.st → s.cfg = s'.cfg → s.params = s'.params → s.ctlIn = s'.ctlIn → s.sampling = s'.sampling →
    ch.val < s.cfg.nch.toNat →
    lane s ch n.toNat = lane s' ch n.toNat → (∀ b, getDelay s b ch = getDelay s' b ch) →
    exec (.process n) s = .next t → exec (.process n) s' = .next t' →
    lane t ch n.toNat = lane t' ch n.toNat ∧ ∀ b, getDelay t b ch = getDelay t' b ch

/-- R180: one PROCESS of `n1 + n2` frames, or a PROCESS of `n1` frames and then, in any state that keeps the configuration,
the parameters and the pairs it left and holds the other `n2` frames of every lane at the front of its lane, a PROCESS of
`n2` frames, give the same samples, the same pairs and the same coefficient sets. -/
def Obligations.BlocksJoinIntoOneStream : Prop :=
  ∀ (s : State) (n n1 n2 : Word), s.port = .cmd → s.st.prepared = true → QuietSampling s →
    n.toNat = n1.toNat + n2.toNat → n.toNat ≤ s.cfg.maxBlock.toNat →
    ∃ t t1, exec (.process n) s = .next t ∧ exec (.process n1) s = .next t1 ∧
      ∀ u : State, u.port = .cmd → u.st = t1.st → u.cfg = t1.cfg → u.params = t1.params → u.delay = t1.delay →
        QuietSampling u →
        (∀ (ch : Fin Config.maxCh) (k : Nat), ch.val < s.cfg.nch.toNat → k < n2.toNat →
          bufRead u.buf (bufAddr u ch k) = bufRead s.buf (bufAddr s ch (n1.toNat + k))) →
        ∃ t2, exec (.process n2) u = .next t2 ∧
          (∀ ch : Fin Config.maxCh, ch.val < s.cfg.nch.toNat →
            lane t ch n.toNat = lane t1 ch n1.toNat ++ lane t2 ch n2.toNat) ∧
          (∀ (b : Band) (ch : Fin Config.maxCh), getDelay t b ch = getDelay t2 b ch) ∧
          ∀ b, getCoef t b = getCoef t2 b

/-- R176: what an accepted PROCESS leaves in every lane and every pair is what running the bands frame by frame gives: each
sample through all bands before the next sample. -/
def Obligations.FrameByFrameEqualsBandByBand : Prop :=
  ∀ (s : State) (n : Word), s.port = .cmd → s.st.prepared = true → n.toNat ≤ s.cfg.maxBlock.toNat →
    ∃ t, exec (.process n) s = .next t ∧
      ∀ ch : Fin Config.maxCh, ch.val < s.cfg.nch.toNat →
        lane t ch n.toNat = (frameRun arith32 (stagesOf (getCoef t) t.psnap s ch) (lane s ch n.toNat)).1 ∧
        allBands.map (fun b => getDelay t b ch) =
          (frameRun arith32 (stagesOf (getCoef t) t.psnap s ch) (lane s ch n.toNat)).2.map Stage.pair

/-! The sampling phase. -/

/-- R57: with no CTL command in the phase, the snapshot is the registers. -/
def Obligations.QuietSamplingCopiesTheRegisters : Prop :=
  ∀ s : State, QuietSampling s → samplingPhase s = { s with psnap := s.params, sampling := s.sampling.tail }

/-- R54, R55, R56: each register contributes one whole value it held before or during the phase; the CTL commands that
fall into the phase have their effect. -/
def Obligations.SampledValuesAreHeldDuringThePhase : Prop :=
  ∀ (s : State) (es : List SampleTurn),
    (samplePhase es Reg.all s).params = (serveCtlInside^[es.count .ctl] s).params ∧
    (samplePhase es Reg.all s).ctlOut = (serveCtlInside^[es.count .ctl] s).ctlOut ∧
    ∀ r, ∃ k, k ≤ es.count .ctl ∧
      getParam (samplePhase es Reg.all s).psnap r = getParam (serveCtlInside^[k] s).params r

/-- R55 (c), R56: nothing is promised between registers; whatever moment of the phase is chosen for each register, some
order of reads and CTL commands samples them so. -/
def Obligations.EveryCombinationOfMomentsCanBeSampled : Prop :=
  ∀ (s : State) (m : Nat) (moment : Reg → Nat), (∀ r, moment r ≤ m) →
    ∃ es : List SampleTurn, es.count .ctl = m ∧
      ∀ r, getParam (samplePhase es Reg.all s).psnap r = getParam (serveCtlInside^[moment r] s).params r

/-! The factory. -/

/-- R120. -/
def Obligations.ClampGivesAFiniteValueInRange : Prop :=
  ∀ v lo hi : Word, isFinite lo = true → isFinite hi = true → fle lo hi = true →
    isFinite (clamp v lo hi) = true ∧ fle lo (clamp v lo hi) = true ∧ fle (clamp v lo hi) hi = true ∧
    (isNaN v = true → clamp v lo hi = lo) ∧
    (flt v lo = true → clamp v lo hi = lo) ∧
    (fgt v hi = true → clamp v lo hi = hi) ∧
    (fle lo v = true → fle v hi = true → clamp v lo hi = v)

/-- R121. -/
def Obligations.GuardedRateIsFiniteAndPositive : Prop :=
  ∀ fs : Word, isFinite (fsguard fs) = true ∧ fgt (fsguard fs) 0#32 = true ∧
    (isFinite fs = true → fgt fs 0#32 = true → fsguard fs = fs) ∧
    ((isFinite fs = false ∨ fgt fs 0#32 = false) → fsguard fs = 0x472C4400#32)

/-- R122, R26, R21: the effective frequency's value: the clamp to the band's declared range, for the low-pass band the lower
of that and `C049 * fs`, which may bring it below its range; it is finite and not negative. -/
def Obligations.EffectiveFrequencyIsInRange : Prop :=
  (allBands.map fun b => (freqLo b, freqHi b)) =
    [(0x41A00000#32, 0x43C80000#32), (0x41A00000#32, 0x437A0000#32), (0x43160000#32, 0x44FA0000#32),
     (0x447A0000#32, 0x463B8000#32), (0x457A0000#32, 0x469C4000#32), (0x457A0000#32, 0x469C4000#32)] ∧
  ∀ (b : Band) (w fs : Word), isFinite fs = true → fgt fs 0#32 = true →
    (b ≠ .lp → efffreq b w fs = clamp w (freqLo b) (freqHi b) ∧
      (isNaN w = true ∨ flt w (freqLo b) = true → efffreq b w fs = freqLo b) ∧
      (fgt w (freqHi b) = true → efffreq b w fs = freqHi b)) ∧
    (fle (clamp w (freqLo .lp) (freqHi .lp)) (fmul 0x3EFAE148#32 fs) = true →
      efffreq .lp w fs = clamp w (freqLo .lp) (freqHi .lp)) ∧
    (flt (fmul 0x3EFAE148#32 fs) (clamp w (freqLo .lp) (freqHi .lp)) = true → efffreq .lp w fs = fmul 0x3EFAE148#32 fs) ∧
    isFinite (efffreq b w fs) = true ∧ fle (efffreq b w fs) (freqHi b) = true ∧ fle 0#32 (efffreq b w fs) = true ∧
    (b ≠ .lp → fle (freqLo b) (efffreq b w fs) = true) ∧
    (b = .lp → fle (efffreq b w fs) (fmul 0x3EFAE148#32 fs) = true) ∧
    (b ≠ .lp → fle (freqLo b) w = true → fle w (freqHi b) = true → efffreq b w fs = w)

/-- R123, R124: the linear gain of any stored gain word is finite and positive, and of 0 dB it is exactly 1. -/
def Obligations.LinearGainIsFiniteAndPositive : Prop :=
  (∀ w : Word, isFinite (db2lin (effGain w)) = true ∧ fgt (db2lin (effGain w)) 0#32 = true) ∧
  db2lin 0x00000000#32 = 0x3F800000#32 ∧ db2lin 0x80000000#32 = 0x3F800000#32

/-- R126: BANDCOEF reads its own band's frequency, gain and Q and the rate, and nothing else. -/
def Obligations.BandcoefReadsItsOwnBandOnly : Prop :=
  ∀ (b : Band) (v v' : ParamFile) (fs : Word),
    (∀ f r, f ≠ .bypass → regOf b f = some r → getParam v r = getParam v' r) → bandcoef b v fs = bandcoef b v' fs

/-- R126, with R122 to R125, R127: BANDCOEF of each band, from its sampled words and the rate. -/
def Obligations.BandcoefRepairsParametersAndRunsTheFactory : Prop :=
  ∀ (v : ParamFile) (fs : Word),
    let run := fun (sh : Shape) (f q g : Word) =>
      shapeCoefs arith32 sh (f32Cos (fdiv (fmul 0x40C90FDB#32 f) (fsguard fs)))
        (fdiv (f32Sin (fdiv (fmul 0x40C90FDB#32 f) (fsguard fs))) (fmul 0x40000000#32 q)) g
    let q := fun w => clamp w 0x3E99999A#32 0x40800000#32
    let g := fun w => f32Exp10 (fdiv (clamp w 0xC1700000#32 0x41700000#32) 0x41A00000#32)
    bandcoef .hp v fs = run .highPass (efffreq .hp (getParam v .hpFreq) fs) 0x3FB504F3#32 0x3F800000#32 ∧
    bandcoef .ls v fs = run .lowShelf (efffreq .ls (getParam v .lsFreq) fs) (q (getParam v .lsQ)) (g (getParam v .lsGain)) ∧
    bandcoef .p1 v fs = run .peaking (efffreq .p1 (getParam v .p1Freq) fs) (q (getParam v .p1Q)) (g (getParam v .p1Gain)) ∧
    bandcoef .p2 v fs = run .peaking (efffreq .p2 (getParam v .p2Freq) fs) (q (getParam v .p2Q)) (g (getParam v .p2Gain)) ∧
    bandcoef .hs v fs = run .highShelf (efffreq .hs (getParam v .hsFreq) fs) (q (getParam v .hsQ)) (g (getParam v .hsGain)) ∧
    bandcoef .lp v fs = run .lowPass (efffreq .lp (getParam v .lpFreq) fs) 0x3FB504F3#32 0x3F800000#32

/-- R128, R129: COEF.LS. -/
def Obligations.CoefLsComputesTheLowShelf : Prop :=
  ∀ s : State,
    let cw := s.factory.cw
    let alpha := s.factory.alpha
    let a := fsqrt s.factory.gain
    let beta := fmul (fmul 0x40000000#32 (fsqrt a)) alpha
    let ap1 := fadd a 0x3F800000#32
    let am1 := fsub a 0x3F800000#32
    let p := fsub ap1 (fmul am1 cw)
    let m := fadd ap1 (fmul am1 cw)
    let u := fsub am1 (fmul ap1 cw)
    let v := fadd am1 (fmul ap1 cw)
    let a0 := fadd m beta
    exec .coefLS s = .next
      { s with
        factory :=
          { s.factory with
            result :=
              ⟨fdiv (fmul a (fadd p beta)) a0, fdiv (fmul (fmul 0x40000000#32 a) u) a0, fdiv (fmul a (fsub p beta)) a0,
               fdiv (fmul 0xC0000000#32 v) a0, fdiv (fsub m beta) a0⟩ } }

/-- R128, R130: COEF.HS. -/
def Obligations.CoefHsComputesTheHighShelf : Prop :=
  ∀ s : State,
    let cw := s.factory.cw
    let alpha := s.factory.alpha
    let a := fsqrt s.factory.gain
    let beta := fmul (fmul 0x40000000#32 (fsqrt a)) alpha
    let ap1 := fadd a 0x3F800000#32
    let am1 := fsub a 0x3F800000#32
    let p := fsub ap1 (fmul am1 cw)
    let m := fadd ap1 (fmul am1 cw)
    let u := fsub am1 (fmul ap1 cw)
    let v := fadd am1 (fmul ap1 cw)
    let a0 := fadd p beta
    exec .coefHS s = .next
      { s with
        factory :=
          { s.factory with
            result :=
              ⟨fdiv (fmul a (fadd m beta)) a0, fdiv (fmul (fmul 0xC0000000#32 a) v) a0, fdiv (fmul a (fsub m beta)) a0,
               fdiv (fmul 0x40000000#32 u) a0, fdiv (fsub p beta) a0⟩ } }

/-- R128, R131: COEF.PK; `b1` and `a1` are the same value. -/
def Obligations.CoefPkComputesThePeak : Prop :=
  ∀ s : State,
    let a := fsqrt s.factory.gain
    let aA := fmul s.factory.alpha a
    let ad := fdiv s.factory.alpha a
    let m2c := fmul 0xC0000000#32 s.factory.cw
    let a0 := fadd 0x3F800000#32 ad
    exec .coefPK s = .next
      { s with
        factory :=
          { s.factory with
            result :=
              ⟨fdiv (fadd 0x3F800000#32 aA) a0, fdiv m2c a0, fdiv (fsub 0x3F800000#32 aA) a0, fdiv m2c a0,
               fdiv (fsub 0x3F800000#32 ad) a0⟩ } }

/-- R128, R132, R133: COEF.HP and COEF.LP; the gain operand has no effect. -/
def Obligations.CoefHpAndLpComputeThePassFilters : Prop :=
  ∀ s : State,
    let cw := s.factory.cw
    let alpha := s.factory.alpha
    let t := fadd 0x3F800000#32 cw
    let h := fdiv t 0x40000000#32
    let t' := fsub 0x3F800000#32 cw
    let h' := fdiv t' 0x40000000#32
    let a0 := fadd 0x3F800000#32 alpha
    let a1 := fmul 0xC0000000#32 cw
    let a2 := fsub 0x3F800000#32 alpha
    exec .coefHP s = .next
      { s with factory := { s.factory with result := ⟨fdiv h a0, fdiv (fneg t) a0, fdiv h a0, fdiv a1 a0, fdiv a2 a0⟩ } } ∧
    exec .coefLP s = .next
      { s with factory := { s.factory with result := ⟨fdiv h' a0, fdiv t' a0, fdiv h' a0, fdiv a1 a0, fdiv a2 a0⟩ } }

/-- R140: at gain 1.0 the shelf and peak shapes give `b1 = a1` and `b2 = a2` bit for bit and `b0 = 1.0`, for every finite
`cw` of magnitude at most 1 that is no zero and every `alpha` whose raw `a0` is finite and no zero. -/
def Obligations.ZeroDecibelSetsAreIdentities : Prop :=
  ∀ (sh : Shape) (cw alpha : Word), (sh = .lowShelf ∨ sh = .highShelf ∨ sh = .peaking) →
    isZero cw = false → fle 0xBF800000#32 cw = true → fle cw 0x3F800000#32 = true → isFinite alpha = true →
    (let raw := if sh = .peaking then fadd 0x3F800000#32 alpha else fadd 0x40000000#32 (fmul 0x40000000#32 alpha)
     isFinite raw = true ∧ isZero raw = false) →
    let c := shapeCoefs arith32 sh cw alpha 0x3F800000#32
    c.b0 = 0x3F800000#32 ∧ c.b1 = c.a1 ∧ c.b2 = c.a2

/-! Arithmetic. -/

/-- R7: each operation is rounded once, to nearest with ties to even. -/
def Obligations.ArithmeticIsCorrectlyRounded : Prop :=
  (∀ a b : Word, isFinite a = true → isFinite b = true →
    IsRounded ((fVal a : ℝ) + fVal b) (fadd a b) ∧ IsRounded ((fVal a : ℝ) - fVal b) (fsub a b) ∧
    IsRounded ((fVal a : ℝ) * fVal b) (fmul a b) ∧ (isZero b = false → IsRounded ((fVal a : ℝ) / fVal b) (fdiv a b))) ∧
  (∀ a : Word, isFinite a = true → fNeg a = false → IsRounded (Real.sqrt (fVal a)) (fsqrt a))

/-- R7, R142: NaN operands and invalid operations give quiet NaNs, the other operations on infinities their infinity or
zero, a division by zero an infinity, zero results their sign, comparisons the order of the values and false with a NaN, and
unary minus flips the sign alone. -/
def Obligations.SpecialOperandsFollowIeee : Prop :=
  (∀ a b : Word, isNaN a = true ∨ isNaN b = true →
    QuietNaN (fadd a b) ∧ QuietNaN (fsub a b) ∧ QuietNaN (fmul a b) ∧ QuietNaN (fdiv a b) ∧
    flt a b = false ∧ fle a b = false ∧ fgt a b = false ∧ fge a b = false) ∧
  (∀ a b : Word, isInf a = true → isInf b = true →
    (if fNeg a = fNeg b then QuietNaN (fsub a b) ∧ fadd a b = a else QuietNaN (fadd a b) ∧ fsub a b = a) ∧
    QuietNaN (fdiv a b)) ∧
  (∀ a b : Word, isInf a = true → isZero b = true → QuietNaN (fmul a b) ∧ QuietNaN (fmul b a)) ∧
  (∀ a b : Word, isFinite a = true → isZero b = true →
    (isZero a = true → QuietNaN (fdiv a b)) ∧
    (isZero a = false → isInf (fdiv a b) = true ∧ fNeg (fdiv a b) = (fNeg a != fNeg b))) ∧
  (∀ a b : Word, isInf a = true → isFinite b = true →
    fadd a b = a ∧ fadd b a = a ∧ fsub a b = a ∧ fsub b a = fneg a ∧
    (isZero b = false → isInf (fmul a b) = true ∧ fNeg (fmul a b) = (fNeg a != fNeg b) ∧
      isInf (fmul b a) = true ∧ fNeg (fmul b a) = (fNeg a != fNeg b)) ∧
    isInf (fdiv a b) = true ∧ fNeg (fdiv a b) = (fNeg a != fNeg b) ∧
    isZero (fdiv b a) = true ∧ fNeg (fdiv b a) = (fNeg a != fNeg b) ∧
    flt a b = fNeg a ∧ fle a b = fNeg a ∧ flt b a = !fNeg a ∧ fle b a = !fNeg a) ∧
  (∀ a b : Word, isInf a = true → isInf b = true →
    isInf (fmul a b) = true ∧ fNeg (fmul a b) = (fNeg a != fNeg b) ∧
    flt a b = (fNeg a && !fNeg b) ∧ fle a b = (fNeg a || !fNeg b)) ∧
  (∀ a b : Word, isFinite a = true → isFinite b = true →
    (fVal a + fVal b = 0 → isZero (fadd a b) = true ∧ fNeg (fadd a b) = (fNeg a && fNeg b)) ∧
    (fVal a - fVal b = 0 → isZero (fsub a b) = true ∧ fNeg (fsub a b) = (fNeg a && !fNeg b)) ∧
    fNeg (fmul a b) = (fNeg a != fNeg b) ∧
    (isZero b = false → fNeg (fdiv a b) = (fNeg a != fNeg b)) ∧
    flt a b = decide (fVal a < fVal b) ∧ fle a b = decide (fVal a ≤ fVal b)) ∧
  (∀ a b : Word, fgt a b = flt b a ∧ fge a b = fle b a) ∧
  (∀ a : Word, isNaN a = true ∨ (isZero a = false ∧ fNeg a = true) → QuietNaN (fsqrt a)) ∧
  (∀ a : Word, isZero a = true ∨ (isInf a = true ∧ fNeg a = false) → fsqrt a = a) ∧
  (∀ a : Word, isFinite a = true → fNeg a = false → fNeg (fsqrt a) = false) ∧
  (∀ a : Word, fNeg (fneg a) = !fNeg a ∧ fMag (fneg a) = fMag a)

/-- R8, P1 to P3 and the NaN part of P4. -/
def Obligations.ElementaryFunctionsKeepTheirProperties : Prop :=
  (∀ x : Word, isFinite x = true →
    fle 0xBF800000#32 (f32Sin x) = true ∧ fle (f32Sin x) 0x3F800000#32 = true ∧
    fle 0xBF800000#32 (f32Cos x) = true ∧ fle (f32Cos x) 0x3F800000#32 = true) ∧
  f32Exp10 0x00000000#32 = 0x3F800000#32 ∧ f32Exp10 0x80000000#32 = 0x3F800000#32 ∧
  (∀ x : Word, isFinite x = true → isNaN (f32Exp10 x) = false ∧ fNeg (f32Exp10 x) = false) ∧
  (∀ x : Word, fle 0xBF400000#32 x = true → fle x 0x3F400000#32 = true →
    isFinite (f32Exp10 x) = true ∧ fgt (f32Exp10 x) 0#32 = true) ∧
  (∀ x : Word, isNaN x = true → QuietNaN (f32Sin x) ∧ QuietNaN (f32Cos x) ∧ QuietNaN (f32Exp10 x)) ∧
  (∀ x : Word, isInf x = true → QuietNaN (f32Sin x) ∧ QuietNaN (f32Cos x))

/-! The filter. -/

/-- R156: an identity set with a zero pair passes every stream of finite samples unchanged in value and keeps its pair
zero, as long as no product of a sample with a coefficient overflows (log entry 22). -/
def Obligations.IdentitySetPassesFiniteSamples : Prop :=
  ∀ (c : CoefSet Word) (d : Delay Word) (xs : List Word),
    c.b0 = 0x3F800000#32 → c.b1 = c.a1 → c.b2 = c.a2 → isZero d.s1 = true → isZero d.s2 = true →
    (∀ x ∈ xs, isFinite x = true ∧ isFinite (fmul c.b1 x) = true ∧ isFinite (fmul c.b2 x) = true) →
    (bqList arith32 c d xs).1.map fInt = xs.map fInt ∧ (∀ y ∈ (bqList arith32 c d xs).1, isFinite y = true) ∧
    isZero (bqList arith32 c d xs).2.s1 = true ∧ isZero (bqList arith32 c d xs).2.s2 = true

/-- R157: once the first delay register is a NaN every later output is a NaN; a NaN in the second reaches the first with
the next sample; a NaN sample gives a NaN output and NaN registers. -/
def Obligations.NanInTheDelayStateStays : Prop :=
  ∀ (c : CoefSet Word) (d : Delay Word) (xs : List Word),
    (isNaN d.s1 = true →
      (∀ y ∈ (bqList arith32 c d xs).1, isNaN y = true) ∧ isNaN (bqList arith32 c d xs).2.s1 = true) ∧
    (isNaN d.s2 = true → ∀ x, isNaN (bqstep arith32 c d x).2.s1 = true) ∧
    (∀ x, isNaN x = true → isNaN (bqstep arith32 c d x).1 = true ∧ isNaN (bqstep arith32 c d x).2.s1 = true ∧
      isNaN (bqstep arith32 c d x).2.s2 = true)

/-- R153: in exact arithmetic, from a zero pair, the outputs satisfy the source's recurrence. -/
def Obligations.FilterRealisesTheRecurrence : Prop :=
  ∀ (c : CoefSet ℝ) (xs : List ℝ) (n : Nat), n < xs.length →
    let ys := (bqList realArith c ⟨0, 0⟩ xs).1
    past ys n 0 =
      c.b0 * past xs n 0 + c.b1 * past xs n 1 + c.b2 * past xs n 2 - c.a1 * past ys n 1 - c.a2 * past ys n 2

/-- R139: in exact arithmetic every shape is stable for `0 < f < fs/2`. -/
def Obligations.FactoryIsStableInExactArithmetic : Prop :=
  ∀ (sh : Shape) (fs f q g : ℝ), 0 < fs → 0 < f → f < fs / 2 → 0 < q → 0 < g →
    |(realCoefs sh fs f q g).a2| < 1 ∧ |(realCoefs sh fs f q g).a1| < 1 + (realCoefs sh fs f q g).a2 ∧
    ∀ z : ℂ, z ^ 2 + (realCoefs sh fs f q g).a1 * z + (realCoefs sh fs f q g).a2 = 0 → ‖z‖ < 1

/-- R141: the gains at the reference frequencies, in exact arithmetic. -/
def Obligations.ReferenceGainsInExactArithmetic : Prop :=
  ∀ (fs f q g : ℝ), 0 < fs → 0 < f → f < fs / 2 → 0 < q → 0 < g →
    (gainAt (realCoefs .lowShelf fs f q g) 1 = g ∧ gainAt (realCoefs .lowShelf fs f q g) (-1) = 1) ∧
    (gainAt (realCoefs .highShelf fs f q g) 1 = 1 ∧ gainAt (realCoefs .highShelf fs f q g) (-1) = g) ∧
    (gainAt (realCoefs .peaking fs f q g) 1 = 1 ∧ gainAt (realCoefs .peaking fs f q g) (-1) = 1 ∧
      gainAt (realCoefs .peaking fs f q g) (circleAt f fs) = g) ∧
    (gainAt (realCoefs .lowPass fs f q g) 1 = 1 ∧ gainAt (realCoefs .lowPass fs f q g) (-1) = 0 ∧
      gainAt (realCoefs .lowPass fs f q g) (circleAt f fs) = q) ∧
    (gainAt (realCoefs .highPass fs f q g) 1 = 0 ∧ gainAt (realCoefs .highPass fs f q g) (-1) = 1 ∧
      gainAt (realCoefs .highPass fs f q g) (circleAt f fs) = q)

end
end

