-- ==== Sys2Proof/Laws/Memory.lean ====
section
/-! SUPPORT. The sample buffer: read after write, and that a write keeps the canonical form. -/

namespace Sys2Proof

namespace Memory

open Machine (Memory)

/-- A byte read after a byte written: the written one at its own index, the old one at any other. -/
theorem read_write (m : Machine.Memory) (a k : Nat) (b : Byte) :
    read? (write m a b) k = if a = k then some b else read? m k := by
  induction m with
  | nil => simp [write, read?]
  | cons c m ih =>
    obtain ⟨j, v⟩ := c
    simp only [write]
    split
    · rename_i h
      simp only [read?]
    · split
      · rename_i h1 h2
        subst h2
        simp only [read?]
        split <;> simp_all
      · rename_i h1 h2
        simp only [read?, ih]
        by_cases hj : j = k
        · subst hj
          simp [h2]
        · simp [hj]

/-- The first byte index of a written memory is the written one or the old first. -/
theorem write_wf_cons (m : Machine.Memory) (a : Nat) (b : Byte) (c : Host.Cell) (h : wf (c :: m) = true) (ha : c.1 < a) :
    wf (c :: write m a b) = true := by
  induction m generalizing c with
  | nil => simp [write, wf, ha]
  | cons d m ih =>
    obtain ⟨j, v⟩ := d
    simp only [wf, Bool.and_eq_true, decide_eq_true_eq] at h
    simp only [write]
    split
    · rename_i hlt
      simp [wf, ha, hlt, h.2]
    · split
      · rename_i _ heq
        subst heq
        cases m with
        | nil => simp [wf, ha]
        | cons e m =>
          simp only [wf, Bool.and_eq_true, decide_eq_true_eq] at h
          simp [wf, ha, h.2.1, h.2.2]
      · rename_i hn hne
        have hja : j < a := by omega
        have hrest := ih (j, v) h.2 hja
        simp only [wf, Bool.and_eq_true, decide_eq_true_eq]
        exact ⟨h.1, hrest⟩

/-- A byte write keeps the canonical form. -/
theorem write_wf (m : Machine.Memory) (a : Nat) (b : Byte) (h : wf m = true) : wf (write m a b) = true := by
  cases m with
  | nil => rfl
  | cons c m =>
    obtain ⟨j, v⟩ := c
    simp only [write]
    split
    · rename_i hlt
      simp [wf, hlt, h]
    · split
      · rename_i _ heq
        subst heq
        cases m with
        | nil => rfl
        | cons e m => simpa [wf] using h
      · rename_i hn hne
        have hja : j < a := by omega
        exact write_wf_cons m a b (j, v) h hja

/-- The cells after a byte write are the old ones and the written one. -/
theorem mem_write (m : Machine.Memory) (a : Nat) (b : Byte) (c : Host.Cell) (h : c ∈ write m a b) : c ∈ m ∨ c = (a, b) := by
  induction m with
  | nil => simpa [write] using h
  | cons d m ih =>
    obtain ⟨j, v⟩ := d
    simp only [write] at h
    split at h
    · rcases List.mem_cons.1 h with h | h
      · exact .inr h
      · exact .inl h
    · split at h
      · rcases List.mem_cons.1 h with h | h
        · exact .inr h
        · exact .inl (List.mem_cons_of_mem _ h)
      · rcases List.mem_cons.1 h with h | h
        · exact .inl (h ▸ List.mem_cons_self)
        · rcases ih h with h | h
          · exact .inl (List.mem_cons_of_mem _ h)
          · exact .inr h

end Memory

namespace Machine

/-- `MAXBLK_HW` is at least 1 (U12). -/
theorem maxBlkHw_pos : 1 ≤ Config.maxBlkHw := by unfold Config.maxBlkHw; omega

/-- The words of `BUF` are at most `2^32` (U12, R186). -/
theorem bufWords_le : bufWords ≤ 2 ^ 32 := by
  have := Nat.mod_lt (8191 + Config.maxBlkFree) (show 0 < 2 ^ 31 by decide)
  unfold bufWords Config.maxBlkHw Config.maxCh
  omega

/-- A byte of `BUF` after a word is written: unchanged outside the word's four bytes. -/
theorem bufByte_bufWrite_ne (m : Memory) (a k : Nat) (w : Word) (h : k / 4 ≠ a) : bufByte (bufWrite m a w) k = bufByte m k := by
  have h0 : 4 * a ≠ k := by omega
  have h1 : 4 * a + 1 ≠ k := by omega
  have h2 : 4 * a + 2 ≠ k := by omega
  have h3 : 4 * a + 3 ≠ k := by omega
  simp [bufByte, bufWrite, Memory.read_write, h0, h1, h2, h3]

/-- A word read after it is written. -/
theorem bufRead_bufWrite_same (m : Memory) (a : Nat) (w : Word) : bufRead (bufWrite m a w) a = w := by
  simp only [bufRead, bufByte, bufWrite, Memory.read_write]
  simp only [show ¬ 4 * a + 3 = 4 * a by omega, show ¬ 4 * a + 3 = 4 * a + 1 by omega, show ¬ 4 * a + 3 = 4 * a + 2 by omega,
    show ¬ 4 * a + 2 = 4 * a by omega, show ¬ 4 * a + 2 = 4 * a + 1 by omega, show ¬ 4 * a + 1 = 4 * a by omega, if_true,
    if_false, Option.getD_some]
  ext i hi
  simp only [BitVec.getElem_append, BitVec.getElem_extractLsb']
  split
  · simp [BitVec.getLsbD_eq_getElem hi]
  · split
    · rw [show 8 + (i - 8) = i by omega, BitVec.getLsbD_eq_getElem hi]
    · split
      · rw [show 16 + (i - 8 - 8) = i by omega, BitVec.getLsbD_eq_getElem hi]
      · rw [show 24 + (i - 8 - 8 - 8) = i by omega, BitVec.getLsbD_eq_getElem hi]

/-- Another word is unchanged by a word write. -/
theorem bufRead_bufWrite_ne (m : Memory) (a a' : Nat) (w : Word) (h : a ≠ a') : bufRead (bufWrite m a w) a' = bufRead m a' := by
  unfold bufRead
  rw [bufByte_bufWrite_ne m a _ w (by omega), bufByte_bufWrite_ne m a _ w (by omega),
    bufByte_bufWrite_ne m a _ w (by omega), bufByte_bufWrite_ne m a _ w (by omega)]

/-- A word is read from its own four bytes only. -/
theorem bufRead_congr (m m' : Memory) (a : Nat) (h : ∀ k, k / 4 = a → Memory.read? m k = Memory.read? m' k) :
    bufRead m a = bufRead m' a := by
  simp only [bufRead, bufByte]
  rw [h _ (by omega), h _ (by omega), h _ (by omega), h (4 * a) (by omega)]

/-- The sample buffer at reset is in canonical form. -/
theorem reset_buf_wf : Memory.wf State.reset.buf = true := rfl

/-- A word write keeps the canonical form. -/
theorem bufWrite_wf (m : Memory) (a : Nat) (w : Word) (h : Memory.wf m = true) : Memory.wf (bufWrite m a w) = true := by
  unfold bufWrite
  exact Memory.write_wf _ _ _ (Memory.write_wf _ _ _ (Memory.write_wf _ _ _ (Memory.write_wf _ _ _ h)))

/-- The cells after a word write are the old ones and four inside the word. -/
theorem mem_bufWrite (m : Memory) (a : Nat) (w : Word) (c : Host.Cell) (h : c ∈ bufWrite m a w) : c ∈ m ∨ c.1 / 4 = a := by
  unfold bufWrite at h
  rcases Memory.mem_write _ _ _ _ h with h | rfl
  · rcases Memory.mem_write _ _ _ _ h with h | rfl
    · rcases Memory.mem_write _ _ _ _ h with h | rfl
      · rcases Memory.mem_write _ _ _ _ h with h | rfl
        · exact .inl h
        · exact .inr (by simp)
      · exact .inr (by simp; omega)
    · exact .inr (by simp; omega)
  · exact .inr (by simp; omega)

end Machine

end Sys2Proof
end

