-- ==== Sys2Proof/Laws/State.lean ====
section
/-! SUPPORT. One lemma for each field and each update of the state: what an update leaves unchanged and what it writes, so
that no proof unfolds a record update. -/

namespace Sys2Proof.Machine

/-! `setErr` changes st only. -/

@[simp] theorem setErr_params (s : State) : (setErr s).params = s.params := rfl
@[simp] theorem setErr_cfg (s : State) : (setErr s).cfg = s.cfg := rfl
@[simp] theorem setErr_coef (s : State) : (setErr s).coef = s.coef := rfl
@[simp] theorem setErr_delay (s : State) : (setErr s).delay = s.delay := rfl
@[simp] theorem setErr_psnap (s : State) : (setErr s).psnap = s.psnap := rfl
@[simp] theorem setErr_factory (s : State) : (setErr s).factory = s.factory := rfl
@[simp] theorem setErr_buf (s : State) : (setErr s).buf = s.buf := rfl
@[simp] theorem setErr_cmdPtr (s : State) : (setErr s).cmdPtr = s.cmdPtr := rfl
@[simp] theorem setErr_ctlPtr (s : State) : (setErr s).ctlPtr = s.ctlPtr := rfl
@[simp] theorem setErr_port (s : State) : (setErr s).port = s.port := rfl
@[simp] theorem setErr_cmdIn (s : State) : (setErr s).cmdIn = s.cmdIn := rfl
@[simp] theorem setErr_ctlIn (s : State) : (setErr s).ctlIn = s.ctlIn := rfl
@[simp] theorem setErr_cmdOut (s : State) : (setErr s).cmdOut = s.cmdOut := rfl
@[simp] theorem setErr_ctlOut (s : State) : (setErr s).ctlOut = s.ctlOut := rfl
@[simp] theorem setErr_memIn (s : State) : (setErr s).memIn = s.memIn := rfl
@[simp] theorem setErr_memOut (s : State) : (setErr s).memOut = s.memOut := rfl
@[simp] theorem setErr_turns (s : State) : (setErr s).turns = s.turns := rfl
@[simp] theorem setErr_sampling (s : State) : (setErr s).sampling = s.sampling := rfl
@[simp] theorem setErr_st (s : State) : (setErr s).st = { s.st with err := true } := rfl

/-! `setPrepared` changes st only. -/

@[simp] theorem setPrepared_params (s : State) : (setPrepared s).params = s.params := by cases s; rfl
@[simp] theorem setPrepared_cfg (s : State) : (setPrepared s).cfg = s.cfg := by cases s; rfl
@[simp] theorem setPrepared_coef (s : State) : (setPrepared s).coef = s.coef := by cases s; rfl
@[simp] theorem setPrepared_delay (s : State) : (setPrepared s).delay = s.delay := by cases s; rfl
@[simp] theorem setPrepared_psnap (s : State) : (setPrepared s).psnap = s.psnap := by cases s; rfl
@[simp] theorem setPrepared_factory (s : State) : (setPrepared s).factory = s.factory := by cases s; rfl
@[simp] theorem setPrepared_buf (s : State) : (setPrepared s).buf = s.buf := by cases s; rfl
@[simp] theorem setPrepared_cmdPtr (s : State) : (setPrepared s).cmdPtr = s.cmdPtr := by cases s; rfl
@[simp] theorem setPrepared_ctlPtr (s : State) : (setPrepared s).ctlPtr = s.ctlPtr := by cases s; rfl
@[simp] theorem setPrepared_port (s : State) : (setPrepared s).port = s.port := by cases s; rfl
@[simp] theorem setPrepared_cmdIn (s : State) : (setPrepared s).cmdIn = s.cmdIn := by cases s; rfl
@[simp] theorem setPrepared_ctlIn (s : State) : (setPrepared s).ctlIn = s.ctlIn := by cases s; rfl
@[simp] theorem setPrepared_cmdOut (s : State) : (setPrepared s).cmdOut = s.cmdOut := by cases s; rfl
@[simp] theorem setPrepared_ctlOut (s : State) : (setPrepared s).ctlOut = s.ctlOut := by cases s; rfl
@[simp] theorem setPrepared_memIn (s : State) : (setPrepared s).memIn = s.memIn := by cases s; rfl
@[simp] theorem setPrepared_memOut (s : State) : (setPrepared s).memOut = s.memOut := by cases s; rfl
@[simp] theorem setPrepared_turns (s : State) : (setPrepared s).turns = s.turns := by cases s; rfl
@[simp] theorem setPrepared_sampling (s : State) : (setPrepared s).sampling = s.sampling := by cases s; rfl
@[simp] theorem setPrepared_st (s : State) : (setPrepared s).st = { s.st with prepared := true } := by cases s; rfl

/-! `setRateSubst` changes st only. -/

@[simp] theorem setRateSubst_params (v : Bool) (s : State) : (setRateSubst v s).params = s.params := rfl
@[simp] theorem setRateSubst_cfg (v : Bool) (s : State) : (setRateSubst v s).cfg = s.cfg := rfl
@[simp] theorem setRateSubst_coef (v : Bool) (s : State) : (setRateSubst v s).coef = s.coef := rfl
@[simp] theorem setRateSubst_delay (v : Bool) (s : State) : (setRateSubst v s).delay = s.delay := rfl
@[simp] theorem setRateSubst_psnap (v : Bool) (s : State) : (setRateSubst v s).psnap = s.psnap := rfl
@[simp] theorem setRateSubst_factory (v : Bool) (s : State) : (setRateSubst v s).factory = s.factory := rfl
@[simp] theorem setRateSubst_buf (v : Bool) (s : State) : (setRateSubst v s).buf = s.buf := rfl
@[simp] theorem setRateSubst_cmdPtr (v : Bool) (s : State) : (setRateSubst v s).cmdPtr = s.cmdPtr := rfl
@[simp] theorem setRateSubst_ctlPtr (v : Bool) (s : State) : (setRateSubst v s).ctlPtr = s.ctlPtr := rfl
@[simp] theorem setRateSubst_port (v : Bool) (s : State) : (setRateSubst v s).port = s.port := rfl
@[simp] theorem setRateSubst_cmdIn (v : Bool) (s : State) : (setRateSubst v s).cmdIn = s.cmdIn := rfl
@[simp] theorem setRateSubst_ctlIn (v : Bool) (s : State) : (setRateSubst v s).ctlIn = s.ctlIn := rfl
@[simp] theorem setRateSubst_cmdOut (v : Bool) (s : State) : (setRateSubst v s).cmdOut = s.cmdOut := rfl
@[simp] theorem setRateSubst_ctlOut (v : Bool) (s : State) : (setRateSubst v s).ctlOut = s.ctlOut := rfl
@[simp] theorem setRateSubst_memIn (v : Bool) (s : State) : (setRateSubst v s).memIn = s.memIn := rfl
@[simp] theorem setRateSubst_memOut (v : Bool) (s : State) : (setRateSubst v s).memOut = s.memOut := rfl
@[simp] theorem setRateSubst_turns (v : Bool) (s : State) : (setRateSubst v s).turns = s.turns := rfl
@[simp] theorem setRateSubst_sampling (v : Bool) (s : State) : (setRateSubst v s).sampling = s.sampling := rfl
@[simp] theorem setRateSubst_st (v : Bool) (s : State) : (setRateSubst v s).st = { s.st with rateSubst := v } := rfl

/-! `send` changes cmdOut, ctlOut only. -/

@[simp] theorem send_params (p : Port) (ws : List Word) (s : State) : (send p ws s).params = s.params := by cases p <;> rfl
@[simp] theorem send_cfg (p : Port) (ws : List Word) (s : State) : (send p ws s).cfg = s.cfg := by cases p <;> rfl
@[simp] theorem send_st (p : Port) (ws : List Word) (s : State) : (send p ws s).st = s.st := by cases p <;> rfl
@[simp] theorem send_coef (p : Port) (ws : List Word) (s : State) : (send p ws s).coef = s.coef := by cases p <;> rfl
@[simp] theorem send_delay (p : Port) (ws : List Word) (s : State) : (send p ws s).delay = s.delay := by cases p <;> rfl
@[simp] theorem send_psnap (p : Port) (ws : List Word) (s : State) : (send p ws s).psnap = s.psnap := by cases p <;> rfl
@[simp] theorem send_factory (p : Port) (ws : List Word) (s : State) : (send p ws s).factory = s.factory := by cases p <;> rfl
@[simp] theorem send_buf (p : Port) (ws : List Word) (s : State) : (send p ws s).buf = s.buf := by cases p <;> rfl
@[simp] theorem send_cmdPtr (p : Port) (ws : List Word) (s : State) : (send p ws s).cmdPtr = s.cmdPtr := by cases p <;> rfl
@[simp] theorem send_ctlPtr (p : Port) (ws : List Word) (s : State) : (send p ws s).ctlPtr = s.ctlPtr := by cases p <;> rfl
@[simp] theorem send_port (p : Port) (ws : List Word) (s : State) : (send p ws s).port = s.port := by cases p <;> rfl
@[simp] theorem send_cmdIn (p : Port) (ws : List Word) (s : State) : (send p ws s).cmdIn = s.cmdIn := by cases p <;> rfl
@[simp] theorem send_ctlIn (p : Port) (ws : List Word) (s : State) : (send p ws s).ctlIn = s.ctlIn := by cases p <;> rfl
@[simp] theorem send_memIn (p : Port) (ws : List Word) (s : State) : (send p ws s).memIn = s.memIn := by cases p <;> rfl
@[simp] theorem send_memOut (p : Port) (ws : List Word) (s : State) : (send p ws s).memOut = s.memOut := by cases p <;> rfl
@[simp] theorem send_turns (p : Port) (ws : List Word) (s : State) : (send p ws s).turns = s.turns := by cases p <;> rfl
@[simp] theorem send_sampling (p : Port) (ws : List Word) (s : State) : (send p ws s).sampling = s.sampling := by cases p <;> rfl
@[simp] theorem send_cmd_cmdOut (ws : List Word) (s : State) : (send .cmd ws s).cmdOut = s.cmdOut ++ ws := rfl
@[simp] theorem send_cmd_ctlOut (ws : List Word) (s : State) : (send .cmd ws s).ctlOut = s.ctlOut := rfl
@[simp] theorem send_ctl_ctlOut (ws : List Word) (s : State) : (send .ctl ws s).ctlOut = s.ctlOut ++ ws := rfl
@[simp] theorem send_ctl_cmdOut (ws : List Word) (s : State) : (send .ctl ws s).cmdOut = s.cmdOut := rfl

/-! `respond` changes cmdOut, ctlOut only. -/

@[simp] theorem respond_params (c : Code) (s : State) : (respond c s).params = s.params := by simp [respond]
@[simp] theorem respond_cfg (c : Code) (s : State) : (respond c s).cfg = s.cfg := by simp [respond]
@[simp] theorem respond_st (c : Code) (s : State) : (respond c s).st = s.st := by simp [respond]
@[simp] theorem respond_coef (c : Code) (s : State) : (respond c s).coef = s.coef := by simp [respond]
@[simp] theorem respond_delay (c : Code) (s : State) : (respond c s).delay = s.delay := by simp [respond]
@[simp] theorem respond_psnap (c : Code) (s : State) : (respond c s).psnap = s.psnap := by simp [respond]
@[simp] theorem respond_factory (c : Code) (s : State) : (respond c s).factory = s.factory := by simp [respond]
@[simp] theorem respond_buf (c : Code) (s : State) : (respond c s).buf = s.buf := by simp [respond]
@[simp] theorem respond_cmdPtr (c : Code) (s : State) : (respond c s).cmdPtr = s.cmdPtr := by simp [respond]
@[simp] theorem respond_ctlPtr (c : Code) (s : State) : (respond c s).ctlPtr = s.ctlPtr := by simp [respond]
@[simp] theorem respond_port (c : Code) (s : State) : (respond c s).port = s.port := by simp [respond]
@[simp] theorem respond_cmdIn (c : Code) (s : State) : (respond c s).cmdIn = s.cmdIn := by simp [respond]
@[simp] theorem respond_ctlIn (c : Code) (s : State) : (respond c s).ctlIn = s.ctlIn := by simp [respond]
@[simp] theorem respond_memIn (c : Code) (s : State) : (respond c s).memIn = s.memIn := by simp [respond]
@[simp] theorem respond_memOut (c : Code) (s : State) : (respond c s).memOut = s.memOut := by simp [respond]
@[simp] theorem respond_turns (c : Code) (s : State) : (respond c s).turns = s.turns := by simp [respond]
@[simp] theorem respond_sampling (c : Code) (s : State) : (respond c s).sampling = s.sampling := by simp [respond]

/-! `respondData` changes cmdOut, ctlOut only. -/

@[simp] theorem respondData_params (d : Word) (s : State) : (respondData d s).params = s.params := by simp [respondData]
@[simp] theorem respondData_cfg (d : Word) (s : State) : (respondData d s).cfg = s.cfg := by simp [respondData]
@[simp] theorem respondData_st (d : Word) (s : State) : (respondData d s).st = s.st := by simp [respondData]
@[simp] theorem respondData_coef (d : Word) (s : State) : (respondData d s).coef = s.coef := by simp [respondData]
@[simp] theorem respondData_delay (d : Word) (s : State) : (respondData d s).delay = s.delay := by simp [respondData]
@[simp] theorem respondData_psnap (d : Word) (s : State) : (respondData d s).psnap = s.psnap := by simp [respondData]
@[simp] theorem respondData_factory (d : Word) (s : State) : (respondData d s).factory = s.factory := by simp [respondData]
@[simp] theorem respondData_buf (d : Word) (s : State) : (respondData d s).buf = s.buf := by simp [respondData]
@[simp] theorem respondData_cmdPtr (d : Word) (s : State) : (respondData d s).cmdPtr = s.cmdPtr := by simp [respondData]
@[simp] theorem respondData_ctlPtr (d : Word) (s : State) : (respondData d s).ctlPtr = s.ctlPtr := by simp [respondData]
@[simp] theorem respondData_port (d : Word) (s : State) : (respondData d s).port = s.port := by simp [respondData]
@[simp] theorem respondData_cmdIn (d : Word) (s : State) : (respondData d s).cmdIn = s.cmdIn := by simp [respondData]
@[simp] theorem respondData_ctlIn (d : Word) (s : State) : (respondData d s).ctlIn = s.ctlIn := by simp [respondData]
@[simp] theorem respondData_memIn (d : Word) (s : State) : (respondData d s).memIn = s.memIn := by simp [respondData]
@[simp] theorem respondData_memOut (d : Word) (s : State) : (respondData d s).memOut = s.memOut := by simp [respondData]
@[simp] theorem respondData_turns (d : Word) (s : State) : (respondData d s).turns = s.turns := by simp [respondData]
@[simp] theorem respondData_sampling (d : Word) (s : State) : (respondData d s).sampling = s.sampling := by simp [respondData]

/-! `raise` changes st, cmdOut, ctlOut only. -/

@[simp] theorem raise_params (c : Code) (s : State) : (raise c s).params = s.params := by unfold raise; split <;> simp
@[simp] theorem raise_cfg (c : Code) (s : State) : (raise c s).cfg = s.cfg := by unfold raise; split <;> simp
@[simp] theorem raise_coef (c : Code) (s : State) : (raise c s).coef = s.coef := by unfold raise; split <;> simp
@[simp] theorem raise_delay (c : Code) (s : State) : (raise c s).delay = s.delay := by unfold raise; split <;> simp
@[simp] theorem raise_psnap (c : Code) (s : State) : (raise c s).psnap = s.psnap := by unfold raise; split <;> simp
@[simp] theorem raise_factory (c : Code) (s : State) : (raise c s).factory = s.factory := by unfold raise; split <;> simp
@[simp] theorem raise_buf (c : Code) (s : State) : (raise c s).buf = s.buf := by unfold raise; split <;> simp
@[simp] theorem raise_cmdPtr (c : Code) (s : State) : (raise c s).cmdPtr = s.cmdPtr := by unfold raise; split <;> simp
@[simp] theorem raise_ctlPtr (c : Code) (s : State) : (raise c s).ctlPtr = s.ctlPtr := by unfold raise; split <;> simp
@[simp] theorem raise_port (c : Code) (s : State) : (raise c s).port = s.port := by unfold raise; split <;> simp
@[simp] theorem raise_cmdIn (c : Code) (s : State) : (raise c s).cmdIn = s.cmdIn := by unfold raise; split <;> simp
@[simp] theorem raise_ctlIn (c : Code) (s : State) : (raise c s).ctlIn = s.ctlIn := by unfold raise; split <;> simp
@[simp] theorem raise_memIn (c : Code) (s : State) : (raise c s).memIn = s.memIn := by unfold raise; split <;> simp
@[simp] theorem raise_memOut (c : Code) (s : State) : (raise c s).memOut = s.memOut := by unfold raise; split <;> simp
@[simp] theorem raise_turns (c : Code) (s : State) : (raise c s).turns = s.turns := by unfold raise; split <;> simp
@[simp] theorem raise_sampling (c : Code) (s : State) : (raise c s).sampling = s.sampling := by unfold raise; split <;> simp

/-! `consume` changes cmdPtr, ctlPtr, port, cmdIn, ctlIn only. -/

@[simp] theorem consume_params (p : Port) (n : Nat) (rest : List Word) (s : State) : (consume p n rest s).params = s.params := by cases p <;> rfl
@[simp] theorem consume_cfg (p : Port) (n : Nat) (rest : List Word) (s : State) : (consume p n rest s).cfg = s.cfg := by cases p <;> rfl
@[simp] theorem consume_st (p : Port) (n : Nat) (rest : List Word) (s : State) : (consume p n rest s).st = s.st := by cases p <;> rfl
@[simp] theorem consume_coef (p : Port) (n : Nat) (rest : List Word) (s : State) : (consume p n rest s).coef = s.coef := by cases p <;> rfl
@[simp] theorem consume_delay (p : Port) (n : Nat) (rest : List Word) (s : State) : (consume p n rest s).delay = s.delay := by cases p <;> rfl
@[simp] theorem consume_psnap (p : Port) (n : Nat) (rest : List Word) (s : State) : (consume p n rest s).psnap = s.psnap := by cases p <;> rfl
@[simp] theorem consume_factory (p : Port) (n : Nat) (rest : List Word) (s : State) : (consume p n rest s).factory = s.factory := by cases p <;> rfl
@[simp] theorem consume_buf (p : Port) (n : Nat) (rest : List Word) (s : State) : (consume p n rest s).buf = s.buf := by cases p <;> rfl
@[simp] theorem consume_cmdOut (p : Port) (n : Nat) (rest : List Word) (s : State) : (consume p n rest s).cmdOut = s.cmdOut := by cases p <;> rfl
@[simp] theorem consume_ctlOut (p : Port) (n : Nat) (rest : List Word) (s : State) : (consume p n rest s).ctlOut = s.ctlOut := by cases p <;> rfl
@[simp] theorem consume_memIn (p : Port) (n : Nat) (rest : List Word) (s : State) : (consume p n rest s).memIn = s.memIn := by cases p <;> rfl
@[simp] theorem consume_memOut (p : Port) (n : Nat) (rest : List Word) (s : State) : (consume p n rest s).memOut = s.memOut := by cases p <;> rfl
@[simp] theorem consume_turns (p : Port) (n : Nat) (rest : List Word) (s : State) : (consume p n rest s).turns = s.turns := by cases p <;> rfl
@[simp] theorem consume_sampling (p : Port) (n : Nat) (rest : List Word) (s : State) : (consume p n rest s).sampling = s.sampling := by cases p <;> rfl
@[simp] theorem consume_port (p : Port) (n : Nat) (rest : List Word) (s : State) : (consume p n rest s).port = p := by cases p <;> rfl
@[simp] theorem consume_cmd_cmdIn (n : Nat) (rest : List Word) (s : State) : (consume .cmd n rest s).cmdIn = rest := rfl
@[simp] theorem consume_cmd_ctlIn (n : Nat) (rest : List Word) (s : State) : (consume .cmd n rest s).ctlIn = s.ctlIn := rfl
@[simp] theorem consume_ctl_ctlIn (n : Nat) (rest : List Word) (s : State) : (consume .ctl n rest s).ctlIn = rest := rfl
@[simp] theorem consume_ctl_cmdIn (n : Nat) (rest : List Word) (s : State) : (consume .ctl n rest s).cmdIn = s.cmdIn := rfl
@[simp] theorem consume_cmd_cmdPtr (n : Nat) (rest : List Word) (s : State) : (consume .cmd n rest s).cmdPtr = s.cmdPtr + n := rfl
@[simp] theorem consume_cmd_ctlPtr (n : Nat) (rest : List Word) (s : State) : (consume .cmd n rest s).ctlPtr = s.ctlPtr := rfl
@[simp] theorem consume_ctl_ctlPtr (n : Nat) (rest : List Word) (s : State) : (consume .ctl n rest s).ctlPtr = s.ctlPtr + n := rfl
@[simp] theorem consume_ctl_cmdPtr (n : Nat) (rest : List Word) (s : State) : (consume .ctl n rest s).cmdPtr = s.cmdPtr := rfl

/-! `dropTurn` changes turns only. -/

@[simp] theorem dropTurn_params (s : State) : (dropTurn s).params = s.params := rfl
@[simp] theorem dropTurn_cfg (s : State) : (dropTurn s).cfg = s.cfg := rfl
@[simp] theorem dropTurn_st (s : State) : (dropTurn s).st = s.st := rfl
@[simp] theorem dropTurn_coef (s : State) : (dropTurn s).coef = s.coef := rfl
@[simp] theorem dropTurn_delay (s : State) : (dropTurn s).delay = s.delay := rfl
@[simp] theorem dropTurn_psnap (s : State) : (dropTurn s).psnap = s.psnap := rfl
@[simp] theorem dropTurn_factory (s : State) : (dropTurn s).factory = s.factory := rfl
@[simp] theorem dropTurn_buf (s : State) : (dropTurn s).buf = s.buf := rfl
@[simp] theorem dropTurn_cmdPtr (s : State) : (dropTurn s).cmdPtr = s.cmdPtr := rfl
@[simp] theorem dropTurn_ctlPtr (s : State) : (dropTurn s).ctlPtr = s.ctlPtr := rfl
@[simp] theorem dropTurn_port (s : State) : (dropTurn s).port = s.port := rfl
@[simp] theorem dropTurn_cmdIn (s : State) : (dropTurn s).cmdIn = s.cmdIn := rfl
@[simp] theorem dropTurn_ctlIn (s : State) : (dropTurn s).ctlIn = s.ctlIn := rfl
@[simp] theorem dropTurn_cmdOut (s : State) : (dropTurn s).cmdOut = s.cmdOut := rfl
@[simp] theorem dropTurn_ctlOut (s : State) : (dropTurn s).ctlOut = s.ctlOut := rfl
@[simp] theorem dropTurn_memIn (s : State) : (dropTurn s).memIn = s.memIn := rfl
@[simp] theorem dropTurn_memOut (s : State) : (dropTurn s).memOut = s.memOut := rfl
@[simp] theorem dropTurn_sampling (s : State) : (dropTurn s).sampling = s.sampling := rfl
@[simp] theorem dropTurn_turns (s : State) : (dropTurn s).turns = s.turns.tail := rfl

/-! `setDelay` changes delay only. -/

@[simp] theorem setDelay_params (s : State) (b : Band) (ch : Fin Config.maxCh) (d : Delay Word) : (setDelay s b ch d).params = s.params := rfl
@[simp] theorem setDelay_cfg (s : State) (b : Band) (ch : Fin Config.maxCh) (d : Delay Word) : (setDelay s b ch d).cfg = s.cfg := rfl
@[simp] theorem setDelay_st (s : State) (b : Band) (ch : Fin Config.maxCh) (d : Delay Word) : (setDelay s b ch d).st = s.st := rfl
@[simp] theorem setDelay_coef (s : State) (b : Band) (ch : Fin Config.maxCh) (d : Delay Word) : (setDelay s b ch d).coef = s.coef := rfl
@[simp] theorem setDelay_psnap (s : State) (b : Band) (ch : Fin Config.maxCh) (d : Delay Word) : (setDelay s b ch d).psnap = s.psnap := rfl
@[simp] theorem setDelay_factory (s : State) (b : Band) (ch : Fin Config.maxCh) (d : Delay Word) : (setDelay s b ch d).factory = s.factory := rfl
@[simp] theorem setDelay_buf (s : State) (b : Band) (ch : Fin Config.maxCh) (d : Delay Word) : (setDelay s b ch d).buf = s.buf := rfl
@[simp] theorem setDelay_cmdPtr (s : State) (b : Band) (ch : Fin Config.maxCh) (d : Delay Word) : (setDelay s b ch d).cmdPtr = s.cmdPtr := rfl
@[simp] theorem setDelay_ctlPtr (s : State) (b : Band) (ch : Fin Config.maxCh) (d : Delay Word) : (setDelay s b ch d).ctlPtr = s.ctlPtr := rfl
@[simp] theorem setDelay_port (s : State) (b : Band) (ch : Fin Config.maxCh) (d : Delay Word) : (setDelay s b ch d).port = s.port := rfl
@[simp] theorem setDelay_cmdIn (s : State) (b : Band) (ch : Fin Config.maxCh) (d : Delay Word) : (setDelay s b ch d).cmdIn = s.cmdIn := rfl
@[simp] theorem setDelay_ctlIn (s : State) (b : Band) (ch : Fin Config.maxCh) (d : Delay Word) : (setDelay s b ch d).ctlIn = s.ctlIn := rfl
@[simp] theorem setDelay_cmdOut (s : State) (b : Band) (ch : Fin Config.maxCh) (d : Delay Word) : (setDelay s b ch d).cmdOut = s.cmdOut := rfl
@[simp] theorem setDelay_ctlOut (s : State) (b : Band) (ch : Fin Config.maxCh) (d : Delay Word) : (setDelay s b ch d).ctlOut = s.ctlOut := rfl
@[simp] theorem setDelay_memIn (s : State) (b : Band) (ch : Fin Config.maxCh) (d : Delay Word) : (setDelay s b ch d).memIn = s.memIn := rfl
@[simp] theorem setDelay_memOut (s : State) (b : Band) (ch : Fin Config.maxCh) (d : Delay Word) : (setDelay s b ch d).memOut = s.memOut := rfl
@[simp] theorem setDelay_turns (s : State) (b : Band) (ch : Fin Config.maxCh) (d : Delay Word) : (setDelay s b ch d).turns = s.turns := rfl
@[simp] theorem setDelay_sampling (s : State) (b : Band) (ch : Fin Config.maxCh) (d : Delay Word) : (setDelay s b ch d).sampling = s.sampling := rfl

/-! `setcoef` changes coef only. -/

@[simp] theorem setcoef_params (b : Band) (c : CoefSet Word) (s : State) : (setcoef b c s).params = s.params := rfl
@[simp] theorem setcoef_cfg (b : Band) (c : CoefSet Word) (s : State) : (setcoef b c s).cfg = s.cfg := rfl
@[simp] theorem setcoef_st (b : Band) (c : CoefSet Word) (s : State) : (setcoef b c s).st = s.st := rfl
@[simp] theorem setcoef_delay (b : Band) (c : CoefSet Word) (s : State) : (setcoef b c s).delay = s.delay := rfl
@[simp] theorem setcoef_psnap (b : Band) (c : CoefSet Word) (s : State) : (setcoef b c s).psnap = s.psnap := rfl
@[simp] theorem setcoef_factory (b : Band) (c : CoefSet Word) (s : State) : (setcoef b c s).factory = s.factory := rfl
@[simp] theorem setcoef_buf (b : Band) (c : CoefSet Word) (s : State) : (setcoef b c s).buf = s.buf := rfl
@[simp] theorem setcoef_cmdPtr (b : Band) (c : CoefSet Word) (s : State) : (setcoef b c s).cmdPtr = s.cmdPtr := rfl
@[simp] theorem setcoef_ctlPtr (b : Band) (c : CoefSet Word) (s : State) : (setcoef b c s).ctlPtr = s.ctlPtr := rfl
@[simp] theorem setcoef_port (b : Band) (c : CoefSet Word) (s : State) : (setcoef b c s).port = s.port := rfl
@[simp] theorem setcoef_cmdIn (b : Band) (c : CoefSet Word) (s : State) : (setcoef b c s).cmdIn = s.cmdIn := rfl
@[simp] theorem setcoef_ctlIn (b : Band) (c : CoefSet Word) (s : State) : (setcoef b c s).ctlIn = s.ctlIn := rfl
@[simp] theorem setcoef_cmdOut (b : Band) (c : CoefSet Word) (s : State) : (setcoef b c s).cmdOut = s.cmdOut := rfl
@[simp] theorem setcoef_ctlOut (b : Band) (c : CoefSet Word) (s : State) : (setcoef b c s).ctlOut = s.ctlOut := rfl
@[simp] theorem setcoef_memIn (b : Band) (c : CoefSet Word) (s : State) : (setcoef b c s).memIn = s.memIn := rfl
@[simp] theorem setcoef_memOut (b : Band) (c : CoefSet Word) (s : State) : (setcoef b c s).memOut = s.memOut := rfl
@[simp] theorem setcoef_turns (b : Band) (c : CoefSet Word) (s : State) : (setcoef b c s).turns = s.turns := rfl
@[simp] theorem setcoef_sampling (b : Band) (c : CoefSet Word) (s : State) : (setcoef b c s).sampling = s.sampling := rfl
@[simp] theorem setcoef_coef (b : Band) (c : CoefSet Word) (s : State) : (setcoef b c s).coef = s.coef.set (bandIdx b) c := rfl

/-! `streset` changes delay only. -/

@[simp] theorem streset_params (b : Band) (nch : Nat) (s : State) : (streset b nch s).params = s.params := rfl
@[simp] theorem streset_cfg (b : Band) (nch : Nat) (s : State) : (streset b nch s).cfg = s.cfg := rfl
@[simp] theorem streset_st (b : Band) (nch : Nat) (s : State) : (streset b nch s).st = s.st := rfl
@[simp] theorem streset_coef (b : Band) (nch : Nat) (s : State) : (streset b nch s).coef = s.coef := rfl
@[simp] theorem streset_psnap (b : Band) (nch : Nat) (s : State) : (streset b nch s).psnap = s.psnap := rfl
@[simp] theorem streset_factory (b : Band) (nch : Nat) (s : State) : (streset b nch s).factory = s.factory := rfl
@[simp] theorem streset_buf (b : Band) (nch : Nat) (s : State) : (streset b nch s).buf = s.buf := rfl
@[simp] theorem streset_cmdPtr (b : Band) (nch : Nat) (s : State) : (streset b nch s).cmdPtr = s.cmdPtr := rfl
@[simp] theorem streset_ctlPtr (b : Band) (nch : Nat) (s : State) : (streset b nch s).ctlPtr = s.ctlPtr := rfl
@[simp] theorem streset_port (b : Band) (nch : Nat) (s : State) : (streset b nch s).port = s.port := rfl
@[simp] theorem streset_cmdIn (b : Band) (nch : Nat) (s : State) : (streset b nch s).cmdIn = s.cmdIn := rfl
@[simp] theorem streset_ctlIn (b : Band) (nch : Nat) (s : State) : (streset b nch s).ctlIn = s.ctlIn := rfl
@[simp] theorem streset_cmdOut (b : Band) (nch : Nat) (s : State) : (streset b nch s).cmdOut = s.cmdOut := rfl
@[simp] theorem streset_ctlOut (b : Band) (nch : Nat) (s : State) : (streset b nch s).ctlOut = s.ctlOut := rfl
@[simp] theorem streset_memIn (b : Band) (nch : Nat) (s : State) : (streset b nch s).memIn = s.memIn := rfl
@[simp] theorem streset_memOut (b : Band) (nch : Nat) (s : State) : (streset b nch s).memOut = s.memOut := rfl
@[simp] theorem streset_turns (b : Band) (nch : Nat) (s : State) : (streset b nch s).turns = s.turns := rfl
@[simp] theorem streset_sampling (b : Band) (nch : Nat) (s : State) : (streset b nch s).sampling = s.sampling := rfl

/-! `factoryLoad` changes factory only. -/

@[simp] theorem factoryLoad_params (b : Band) (fs : Word) (s : State) : (factoryLoad b fs s).params = s.params := by rw [factoryLoad]
@[simp] theorem factoryLoad_cfg (b : Band) (fs : Word) (s : State) : (factoryLoad b fs s).cfg = s.cfg := by rw [factoryLoad]
@[simp] theorem factoryLoad_st (b : Band) (fs : Word) (s : State) : (factoryLoad b fs s).st = s.st := by rw [factoryLoad]
@[simp] theorem factoryLoad_coef (b : Band) (fs : Word) (s : State) : (factoryLoad b fs s).coef = s.coef := by rw [factoryLoad]
@[simp] theorem factoryLoad_delay (b : Band) (fs : Word) (s : State) : (factoryLoad b fs s).delay = s.delay := by rw [factoryLoad]
@[simp] theorem factoryLoad_psnap (b : Band) (fs : Word) (s : State) : (factoryLoad b fs s).psnap = s.psnap := by rw [factoryLoad]
@[simp] theorem factoryLoad_buf (b : Band) (fs : Word) (s : State) : (factoryLoad b fs s).buf = s.buf := by rw [factoryLoad]
@[simp] theorem factoryLoad_cmdPtr (b : Band) (fs : Word) (s : State) : (factoryLoad b fs s).cmdPtr = s.cmdPtr := by rw [factoryLoad]
@[simp] theorem factoryLoad_ctlPtr (b : Band) (fs : Word) (s : State) : (factoryLoad b fs s).ctlPtr = s.ctlPtr := by rw [factoryLoad]
@[simp] theorem factoryLoad_port (b : Band) (fs : Word) (s : State) : (factoryLoad b fs s).port = s.port := by rw [factoryLoad]
@[simp] theorem factoryLoad_cmdIn (b : Band) (fs : Word) (s : State) : (factoryLoad b fs s).cmdIn = s.cmdIn := by rw [factoryLoad]
@[simp] theorem factoryLoad_ctlIn (b : Band) (fs : Word) (s : State) : (factoryLoad b fs s).ctlIn = s.ctlIn := by rw [factoryLoad]
@[simp] theorem factoryLoad_cmdOut (b : Band) (fs : Word) (s : State) : (factoryLoad b fs s).cmdOut = s.cmdOut := by rw [factoryLoad]
@[simp] theorem factoryLoad_ctlOut (b : Band) (fs : Word) (s : State) : (factoryLoad b fs s).ctlOut = s.ctlOut := by rw [factoryLoad]
@[simp] theorem factoryLoad_memIn (b : Band) (fs : Word) (s : State) : (factoryLoad b fs s).memIn = s.memIn := by rw [factoryLoad]
@[simp] theorem factoryLoad_memOut (b : Band) (fs : Word) (s : State) : (factoryLoad b fs s).memOut = s.memOut := by rw [factoryLoad]
@[simp] theorem factoryLoad_turns (b : Band) (fs : Word) (s : State) : (factoryLoad b fs s).turns = s.turns := by rw [factoryLoad]
@[simp] theorem factoryLoad_sampling (b : Band) (fs : Word) (s : State) : (factoryLoad b fs s).sampling = s.sampling := by rw [factoryLoad]

/-! `factoryRun` changes factory only. -/

@[simp] theorem factoryRun_params (sh : Shape) (s : State) : (factoryRun sh s).params = s.params := rfl
@[simp] theorem factoryRun_cfg (sh : Shape) (s : State) : (factoryRun sh s).cfg = s.cfg := rfl
@[simp] theorem factoryRun_st (sh : Shape) (s : State) : (factoryRun sh s).st = s.st := rfl
@[simp] theorem factoryRun_coef (sh : Shape) (s : State) : (factoryRun sh s).coef = s.coef := rfl
@[simp] theorem factoryRun_delay (sh : Shape) (s : State) : (factoryRun sh s).delay = s.delay := rfl
@[simp] theorem factoryRun_psnap (sh : Shape) (s : State) : (factoryRun sh s).psnap = s.psnap := rfl
@[simp] theorem factoryRun_buf (sh : Shape) (s : State) : (factoryRun sh s).buf = s.buf := rfl
@[simp] theorem factoryRun_cmdPtr (sh : Shape) (s : State) : (factoryRun sh s).cmdPtr = s.cmdPtr := rfl
@[simp] theorem factoryRun_ctlPtr (sh : Shape) (s : State) : (factoryRun sh s).ctlPtr = s.ctlPtr := rfl
@[simp] theorem factoryRun_port (sh : Shape) (s : State) : (factoryRun sh s).port = s.port := rfl
@[simp] theorem factoryRun_cmdIn (sh : Shape) (s : State) : (factoryRun sh s).cmdIn = s.cmdIn := rfl
@[simp] theorem factoryRun_ctlIn (sh : Shape) (s : State) : (factoryRun sh s).ctlIn = s.ctlIn := rfl
@[simp] theorem factoryRun_cmdOut (sh : Shape) (s : State) : (factoryRun sh s).cmdOut = s.cmdOut := rfl
@[simp] theorem factoryRun_ctlOut (sh : Shape) (s : State) : (factoryRun sh s).ctlOut = s.ctlOut := rfl
@[simp] theorem factoryRun_memIn (sh : Shape) (s : State) : (factoryRun sh s).memIn = s.memIn := rfl
@[simp] theorem factoryRun_memOut (sh : Shape) (s : State) : (factoryRun sh s).memOut = s.memOut := rfl
@[simp] theorem factoryRun_turns (sh : Shape) (s : State) : (factoryRun sh s).turns = s.turns := rfl
@[simp] theorem factoryRun_sampling (sh : Shape) (s : State) : (factoryRun sh s).sampling = s.sampling := rfl

/-! `recomputeBand` changes coef, factory only. -/

@[simp] theorem recomputeBand_params (fs : Word) (s : State) (b : Band) : (recomputeBand fs s b).params = s.params := by
  rw [recomputeBand, setcoef_params, factoryRun_params, factoryLoad_params]
@[simp] theorem recomputeBand_cfg (fs : Word) (s : State) (b : Band) : (recomputeBand fs s b).cfg = s.cfg := by
  rw [recomputeBand, setcoef_cfg, factoryRun_cfg, factoryLoad_cfg]
@[simp] theorem recomputeBand_st (fs : Word) (s : State) (b : Band) : (recomputeBand fs s b).st = s.st := by
  rw [recomputeBand, setcoef_st, factoryRun_st, factoryLoad_st]
@[simp] theorem recomputeBand_delay (fs : Word) (s : State) (b : Band) : (recomputeBand fs s b).delay = s.delay := by
  rw [recomputeBand, setcoef_delay, factoryRun_delay, factoryLoad_delay]
@[simp] theorem recomputeBand_psnap (fs : Word) (s : State) (b : Band) : (recomputeBand fs s b).psnap = s.psnap := by
  rw [recomputeBand, setcoef_psnap, factoryRun_psnap, factoryLoad_psnap]
@[simp] theorem recomputeBand_buf (fs : Word) (s : State) (b : Band) : (recomputeBand fs s b).buf = s.buf := by
  rw [recomputeBand, setcoef_buf, factoryRun_buf, factoryLoad_buf]
@[simp] theorem recomputeBand_cmdPtr (fs : Word) (s : State) (b : Band) : (recomputeBand fs s b).cmdPtr = s.cmdPtr := by
  rw [recomputeBand, setcoef_cmdPtr, factoryRun_cmdPtr, factoryLoad_cmdPtr]
@[simp] theorem recomputeBand_ctlPtr (fs : Word) (s : State) (b : Band) : (recomputeBand fs s b).ctlPtr = s.ctlPtr := by
  rw [recomputeBand, setcoef_ctlPtr, factoryRun_ctlPtr, factoryLoad_ctlPtr]
@[simp] theorem recomputeBand_port (fs : Word) (s : State) (b : Band) : (recomputeBand fs s b).port = s.port := by
  rw [recomputeBand, setcoef_port, factoryRun_port, factoryLoad_port]
@[simp] theorem recomputeBand_cmdIn (fs : Word) (s : State) (b : Band) : (recomputeBand fs s b).cmdIn = s.cmdIn := by
  rw [recomputeBand, setcoef_cmdIn, factoryRun_cmdIn, factoryLoad_cmdIn]
@[simp] theorem recomputeBand_ctlIn (fs : Word) (s : State) (b : Band) : (recomputeBand fs s b).ctlIn = s.ctlIn := by
  rw [recomputeBand, setcoef_ctlIn, factoryRun_ctlIn, factoryLoad_ctlIn]
@[simp] theorem recomputeBand_cmdOut (fs : Word) (s : State) (b : Band) : (recomputeBand fs s b).cmdOut = s.cmdOut := by
  rw [recomputeBand, setcoef_cmdOut, factoryRun_cmdOut, factoryLoad_cmdOut]
@[simp] theorem recomputeBand_ctlOut (fs : Word) (s : State) (b : Band) : (recomputeBand fs s b).ctlOut = s.ctlOut := by
  rw [recomputeBand, setcoef_ctlOut, factoryRun_ctlOut, factoryLoad_ctlOut]
@[simp] theorem recomputeBand_memIn (fs : Word) (s : State) (b : Band) : (recomputeBand fs s b).memIn = s.memIn := by
  rw [recomputeBand, setcoef_memIn, factoryRun_memIn, factoryLoad_memIn]
@[simp] theorem recomputeBand_memOut (fs : Word) (s : State) (b : Band) : (recomputeBand fs s b).memOut = s.memOut := by
  rw [recomputeBand, setcoef_memOut, factoryRun_memOut, factoryLoad_memOut]
@[simp] theorem recomputeBand_turns (fs : Word) (s : State) (b : Band) : (recomputeBand fs s b).turns = s.turns := by
  rw [recomputeBand, setcoef_turns, factoryRun_turns, factoryLoad_turns]
@[simp] theorem recomputeBand_sampling (fs : Word) (s : State) (b : Band) : (recomputeBand fs s b).sampling = s.sampling := by
  rw [recomputeBand, setcoef_sampling, factoryRun_sampling, factoryLoad_sampling]

/-! `bqLane` changes delay, buf only. -/

@[simp] theorem bqLane_params (b : Band) (n : Nat) (ch : Fin Config.maxCh) (s : State) : (bqLane b n ch s).params = s.params := by simp [bqLane]
@[simp] theorem bqLane_cfg (b : Band) (n : Nat) (ch : Fin Config.maxCh) (s : State) : (bqLane b n ch s).cfg = s.cfg := by simp [bqLane]
@[simp] theorem bqLane_st (b : Band) (n : Nat) (ch : Fin Config.maxCh) (s : State) : (bqLane b n ch s).st = s.st := by simp [bqLane]
@[simp] theorem bqLane_coef (b : Band) (n : Nat) (ch : Fin Config.maxCh) (s : State) : (bqLane b n ch s).coef = s.coef := by simp [bqLane]
@[simp] theorem bqLane_psnap (b : Band) (n : Nat) (ch : Fin Config.maxCh) (s : State) : (bqLane b n ch s).psnap = s.psnap := by simp [bqLane]
@[simp] theorem bqLane_factory (b : Band) (n : Nat) (ch : Fin Config.maxCh) (s : State) : (bqLane b n ch s).factory = s.factory := by simp [bqLane]
@[simp] theorem bqLane_cmdPtr (b : Band) (n : Nat) (ch : Fin Config.maxCh) (s : State) : (bqLane b n ch s).cmdPtr = s.cmdPtr := by simp [bqLane]
@[simp] theorem bqLane_ctlPtr (b : Band) (n : Nat) (ch : Fin Config.maxCh) (s : State) : (bqLane b n ch s).ctlPtr = s.ctlPtr := by simp [bqLane]
@[simp] theorem bqLane_port (b : Band) (n : Nat) (ch : Fin Config.maxCh) (s : State) : (bqLane b n ch s).port = s.port := by simp [bqLane]
@[simp] theorem bqLane_cmdIn (b : Band) (n : Nat) (ch : Fin Config.maxCh) (s : State) : (bqLane b n ch s).cmdIn = s.cmdIn := by simp [bqLane]
@[simp] theorem bqLane_ctlIn (b : Band) (n : Nat) (ch : Fin Config.maxCh) (s : State) : (bqLane b n ch s).ctlIn = s.ctlIn := by simp [bqLane]
@[simp] theorem bqLane_cmdOut (b : Band) (n : Nat) (ch : Fin Config.maxCh) (s : State) : (bqLane b n ch s).cmdOut = s.cmdOut := by simp [bqLane]
@[simp] theorem bqLane_ctlOut (b : Band) (n : Nat) (ch : Fin Config.maxCh) (s : State) : (bqLane b n ch s).ctlOut = s.ctlOut := by simp [bqLane]
@[simp] theorem bqLane_memIn (b : Band) (n : Nat) (ch : Fin Config.maxCh) (s : State) : (bqLane b n ch s).memIn = s.memIn := by simp [bqLane]
@[simp] theorem bqLane_memOut (b : Band) (n : Nat) (ch : Fin Config.maxCh) (s : State) : (bqLane b n ch s).memOut = s.memOut := by simp [bqLane]
@[simp] theorem bqLane_turns (b : Band) (n : Nat) (ch : Fin Config.maxCh) (s : State) : (bqLane b n ch s).turns = s.turns := by simp [bqLane]
@[simp] theorem bqLane_sampling (b : Band) (n : Nat) (ch : Fin Config.maxCh) (s : State) : (bqLane b n ch s).sampling = s.sampling := by simp [bqLane]

/-! `sampleReg` changes psnap only. -/

@[simp] theorem sampleReg_params (r : Reg) (s : State) : (sampleReg r s).params = s.params := rfl
@[simp] theorem sampleReg_cfg (r : Reg) (s : State) : (sampleReg r s).cfg = s.cfg := rfl
@[simp] theorem sampleReg_st (r : Reg) (s : State) : (sampleReg r s).st = s.st := rfl
@[simp] theorem sampleReg_coef (r : Reg) (s : State) : (sampleReg r s).coef = s.coef := rfl
@[simp] theorem sampleReg_delay (r : Reg) (s : State) : (sampleReg r s).delay = s.delay := rfl
@[simp] theorem sampleReg_factory (r : Reg) (s : State) : (sampleReg r s).factory = s.factory := rfl
@[simp] theorem sampleReg_buf (r : Reg) (s : State) : (sampleReg r s).buf = s.buf := rfl
@[simp] theorem sampleReg_cmdPtr (r : Reg) (s : State) : (sampleReg r s).cmdPtr = s.cmdPtr := rfl
@[simp] theorem sampleReg_ctlPtr (r : Reg) (s : State) : (sampleReg r s).ctlPtr = s.ctlPtr := rfl
@[simp] theorem sampleReg_port (r : Reg) (s : State) : (sampleReg r s).port = s.port := rfl
@[simp] theorem sampleReg_cmdIn (r : Reg) (s : State) : (sampleReg r s).cmdIn = s.cmdIn := rfl
@[simp] theorem sampleReg_ctlIn (r : Reg) (s : State) : (sampleReg r s).ctlIn = s.ctlIn := rfl
@[simp] theorem sampleReg_cmdOut (r : Reg) (s : State) : (sampleReg r s).cmdOut = s.cmdOut := rfl
@[simp] theorem sampleReg_ctlOut (r : Reg) (s : State) : (sampleReg r s).ctlOut = s.ctlOut := rfl
@[simp] theorem sampleReg_memIn (r : Reg) (s : State) : (sampleReg r s).memIn = s.memIn := rfl
@[simp] theorem sampleReg_memOut (r : Reg) (s : State) : (sampleReg r s).memOut = s.memOut := rfl
@[simp] theorem sampleReg_turns (r : Reg) (s : State) : (sampleReg r s).turns = s.turns := rfl
@[simp] theorem sampleReg_sampling (r : Reg) (s : State) : (sampleReg r s).sampling = s.sampling := rfl
@[simp] theorem sampleReg_psnap (r : Reg) (s : State) : (sampleReg r s).psnap = setParam s.psnap r (getParam s.params r) := rfl

/-- The coefficient sets after one band is recomputed: that band's is BANDCOEF of its sampled parameters (R126, R150). -/
theorem recomputeBand_coef (fs : Word) (s : State) (b : Band) :
    (recomputeBand fs s b).coef = s.coef.set (bandIdx b) (bandcoef b s.psnap fs) := by
  simp only [recomputeBand, setcoef_coef, factoryRun_coef, factoryLoad_coef]
  rfl

/-! Equality of states, and responses as record updates. -/

/-- Two states that agree in every field are equal: a frame is proved field by field, each by a lemma above. -/
theorem State.eq_of_fields (s t : State)
    (h0 : s.params = t.params)
    (h1 : s.cfg = t.cfg)
    (h2 : s.st = t.st)
    (h3 : s.coef = t.coef)
    (h4 : s.delay = t.delay)
    (h5 : s.psnap = t.psnap)
    (h6 : s.factory = t.factory)
    (h7 : s.buf = t.buf)
    (h8 : s.cmdPtr = t.cmdPtr)
    (h9 : s.ctlPtr = t.ctlPtr)
    (h10 : s.port = t.port)
    (h11 : s.cmdIn = t.cmdIn)
    (h12 : s.ctlIn = t.ctlIn)
    (h13 : s.cmdOut = t.cmdOut)
    (h14 : s.ctlOut = t.ctlOut)
    (h15 : s.memIn = t.memIn)
    (h16 : s.memOut = t.memOut)
    (h17 : s.turns = t.turns)
    (h18 : s.sampling = t.sampling) : s = t := by
  cases s
  cases t
  simp only [State.mk.injEq]
  exact ⟨h0, h1, h2, h3, h4, h5, h6, h7, h8, h9, h10, h11, h12, h13, h14, h15, h16, h17, h18⟩

/-- A response on the CMD port. -/
theorem respond_of_cmd (c : Code) (s : State) (h : s.port = .cmd) :
    respond c s = { s with cmdOut := s.cmdOut ++ [codeWord c] } := by
  simp [respond, h, send]

/-- A response on the CTL port. -/
theorem respond_of_ctl (c : Code) (s : State) (h : s.port = .ctl) :
    respond c s = { s with ctlOut := s.ctlOut ++ [codeWord c] } := by
  simp [respond, h, send]

/-- A response with data on the CMD port. -/
theorem respondData_of_cmd (d : Word) (s : State) (h : s.port = .cmd) :
    respondData d s = { s with cmdOut := s.cmdOut ++ [codeWord .ok, d] } := by
  simp [respondData, h, send]

/-- A response with data on the CTL port. -/
theorem respondData_of_ctl (d : Word) (s : State) (h : s.port = .ctl) :
    respondData d s = { s with ctlOut := s.ctlOut ++ [codeWord .ok, d] } := by
  simp [respondData, h, send]

/-! A response on the port of the command. -/

theorem respond_cmdOut (c : Code) (s : State) (h : s.port = .cmd) : (respond c s).cmdOut = s.cmdOut ++ [codeWord c] := by
  simp [respond, h]

theorem respond_ctlOut (c : Code) (s : State) (h : s.port = .cmd) : (respond c s).ctlOut = s.ctlOut := by
  simp [respond, h]

theorem respondData_cmdOut (d : Word) (s : State) (h : s.port = .cmd) :
    (respondData d s).cmdOut = s.cmdOut ++ [0#32, d] := by
  simp [respondData, h, codeWord]

/-- What `raise` does on the CMD port (R198). -/
theorem raise_of_cmd (c : Code) (s : State) (h : s.port = .cmd) :
    raise c s = { s with st := { s.st with err := true }, cmdOut := s.cmdOut ++ [codeWord c] } := by
  simp [raise, h, respond, setErr, send]

/-- What `raise` does on the CTL port (R198). -/
theorem raise_of_ctl (c : Code) (s : State) (h : s.port = .ctl) :
    raise c s = { s with ctlOut := s.ctlOut ++ [codeWord c] } := by
  simp [raise, h, respond, send]

/-- `raise` never clears a status bit and never touches PREPARED or RATE_SUBST. -/
theorem raise_st (c : Code) (s : State) :
    (raise c s).st.prepared = s.st.prepared ∧ (raise c s).st.rateSubst = s.st.rateSubst ∧
      (s.st.err = true → (raise c s).st.err = true) := by
  unfold raise
  split <;> simp

end Sys2Proof.Machine
end

