-- ==== Sys2Proof/Laws/Registers.lean ====
section
/-! SUPPORT. The register files: read after write for parameters, coefficient sets and delay pairs. -/

namespace Sys2Proof.Machine

/-- Different registers stand at different places. -/
theorem Reg.idx_inj (r r' : Reg) (h : r.idx = r'.idx) : r = r' := by
  revert h; cases r <;> cases r' <;> decide

/-- Every register is listed. -/
theorem Reg.mem_all (r : Reg) : r ∈ Reg.all := by cases r <;> decide

/-- The register number is `4*band + sel` (R22). -/
theorem regOf_number (b : Band) (f : Field) (r : Reg) (h : regOf b f = some r) :
    r.number = 4 * (bandIdx b).val + f.sel.toNat := by
  cases b <;> cases f <;> simp [regOf] at h <;> subst h <;> rfl

/-- The operands of a register name it. -/
theorem regOf_operands (r : Reg) : regOf r.operands.1 r.operands.2 = some r := by cases r <;> rfl

/-- A register exists exactly when the band has the field (R22). -/
theorem regOf_isSome (b : Band) (f : Field) : (regOf b f).isSome = b.hasField f := by cases b <;> cases f <;> rfl

@[simp] theorem getParam_setParam_same (v : ParamFile) (r : Reg) (w : Word) : getParam (setParam v r w) r = w := by
  simp [getParam, setParam]

theorem getParam_setParam_ne (v : ParamFile) (r r' : Reg) (w : Word) (h : r ≠ r') :
    getParam (setParam v r w) r' = getParam v r' := by
  simp only [getParam, setParam, Fin.getElem_fin]
  rw [Vector.getElem_set_ne]
  intro he
  exact h (Reg.idx_inj r r' (Fin.ext he))

theorem getParam_setParam (v : ParamFile) (r r' : Reg) (w : Word) :
    getParam (setParam v r w) r' = if r = r' then w else getParam v r' := by
  split
  · next h => subst h; simp
  · next h => exact getParam_setParam_ne v r r' w h

/-- Two parameter files with the same registers are equal. -/
theorem ParamFile.ext_getParam (v w : ParamFile) (h : ∀ r, getParam v r = getParam w r) : v = w := by
  have hs : ∀ i : Fin 20, ∃ r : Reg, r.idx = i := by
    intro i
    have : ∃ r ∈ Reg.all, r.idx = i := by revert i; decide
    obtain ⟨r, -, hr⟩ := this
    exact ⟨r, hr⟩
  apply Vector.ext
  intro i hi
  obtain ⟨r, hr⟩ := hs ⟨i, hi⟩
  have := h r
  simp only [getParam, hr, Fin.getElem_fin] at this
  exact this

theorem bandIdx_inj (b b' : Band) (h : bandIdx b = bandIdx b') : b = b' := by
  revert h; cases b <;> cases b' <;> decide

/-- The coefficient sets after one is replaced (R150). -/
theorem getCoef_setcoef (b b' : Band) (c : CoefSet Word) (s : State) :
    getCoef (setcoef b c s) b' = if b = b' then c else getCoef s b' := by
  simp only [getCoef, setcoef, Fin.getElem_fin, Vector.getElem_set]
  by_cases h : b = b'
  · subst h; simp
  · have hn : (bandIdx b).val ≠ (bandIdx b').val := fun he => h (bandIdx_inj _ _ (Fin.ext he))
    simp [h, hn]

/-- The delay pairs after one is replaced. -/
theorem getDelay_setDelay (s : State) (b b' : Band) (ch ch' : Fin Config.maxCh) (d : Delay Word) :
    getDelay (setDelay s b ch d) b' ch' = if b = b' ∧ ch = ch' then d else getDelay s b' ch' := by
  simp only [getDelay, setDelay, Fin.getElem_fin, Vector.getElem_set]
  by_cases h : b = b'
  · subst h
    by_cases hc : ch = ch'
    · subst hc; simp
    · have hn : ch.val ≠ ch'.val := fun he => hc (Fin.ext he)
      simp [hc, hn]
  · have hn : (bandIdx b).val ≠ (bandIdx b').val := fun he => h (bandIdx_inj _ _ (Fin.ext he))
    simp [h, hn]

/-- The delay pairs after STRESET of one band (R151): zero below `nch`, all others as before. -/
theorem getDelay_streset (b b' : Band) (nch : Nat) (s : State) (ch : Fin Config.maxCh) :
    getDelay (streset b nch s) b' ch = if b = b' ∧ ch.val < nch then zeroDelay else getDelay s b' ch := by
  simp only [getDelay, streset, Fin.getElem_fin, Vector.getElem_set]
  by_cases h : b = b'
  · subst h
    by_cases hc : ch.val < nch
    · simp [hc]
    · simp [hc]
  · have hn : (bandIdx b).val ≠ (bandIdx b').val := fun he => h (bandIdx_inj _ _ (Fin.ext he))
    simp [h, hn]

end Sys2Proof.Machine
end

