-- ==== Sys2Proof/Laws/Engine.lean ====
section
/-! SUPPORT. What each shared operation of the engine can do, said once: the CTL port inside a sampling phase, the phase
itself, the recomputation of the coefficients, the filter on a lane, and the step. -/

namespace Sys2Proof.Machine

/-! What the decoder lets through on the CTL port. -/

/-- On the CTL port only WRPARAM and RDPARAM decode (R82 (b)). -/
theorem decode_ctl (w x1 x2 x3 : Word) (i : Instr) (h : decode .ctl w x1 x2 x3 = .ok i) :
    (∃ b f d, i = .wrparam b f d) ∨ (∃ b f, i = .rdparam b f) := by
  unfold decode at h
  split at h
  · cases h
  split at h
  · simp at h
  · simp at h
  · split at h
    · cases h
    · cases h; exact .inl ⟨_, _, _, rfl⟩
  · split at h
    · cases h
    · cases h; exact .inr ⟨_, _, rfl⟩
  · simp at h
  · simp at h
  · cases h

/-- A command taken off a port was decoded on that port. -/
theorem fetch_command (p : Port) (ws : List Word) (i : Instr) (len : Nat) (rest : List Word)
    (h : fetch p ws = .command i len rest) :
    ∃ w v, ws = w :: v ∧ len = opLength w ∧ len ≤ v.length + 1 ∧ rest = v.drop (len - 1) ∧
      decode p w (v.getD 0 0#32) (v.getD 1 0#32) (v.getD 2 0#32) = .ok i := by
  cases ws with
  | nil => simp [fetch] at h
  | cons w v =>
    simp only [fetch] at h
    split at h
    · cases h
    · next hlen =>
      split at h
      · cases h
      · next j hj =>
        cases h
        exact ⟨w, v, rfl, rfl, by omega, rfl, hj⟩

/-- An illegal command taken off a port takes up its own words only. -/
theorem fetch_illegal (p : Port) (ws : List Word) (e : Illegal) (len : Nat) (rest : List Word)
    (h : fetch p ws = .illegal e len rest) :
    ∃ w v, ws = w :: v ∧ len = opLength w ∧ len ≤ v.length + 1 ∧ rest = v.drop (len - 1) ∧
      decode p w (v.getD 0 0#32) (v.getD 1 0#32) (v.getD 2 0#32) = .error e := by
  cases ws with
  | nil => simp [fetch] at h
  | cons w v =>
    simp only [fetch] at h
    split at h
    · cases h
    · next hlen =>
      split at h
      · next j hj =>
        cases h
        exact ⟨w, v, rfl, rfl, by omega, rfl, hj⟩
      · cases h

/-! The CTL port. -/

/-- A step of the CTL port changes the parameter registers, its own stream, its output and the port noted. -/
theorem serveCtl_frame (s : State) :
    serveCtl s =
      { s with
        params := (serveCtl s).params
        ctlIn := (serveCtl s).ctlIn
        ctlPtr := (serveCtl s).ctlPtr
        ctlOut := (serveCtl s).ctlOut
        port := (serveCtl s).port } := by
  unfold serveCtl
  split
  · rfl
  · simp [raise, consume, respond, send]
  · next i len rest h =>
    obtain ⟨w, v, -, -, -, -, hd⟩ := fetch_command _ _ _ _ _ h
    obtain ⟨b, f, d, rfl⟩ | ⟨b, f, rfl⟩ := decode_ctl _ _ _ _ _ hd
    · simp only [ctlEffect, wrparam]
      split <;> simp [raise, consume, respond, send]
    · simp only [ctlEffect, rdparam]
      split <;> simp [raise, consume, respond, respondData, send]

/-- The same inside another command: the port noted stays. -/
theorem serveCtlInside_frame (s : State) :
    serveCtlInside s =
      { s with
        params := (serveCtlInside s).params
        ctlIn := (serveCtlInside s).ctlIn
        ctlPtr := (serveCtlInside s).ctlPtr
        ctlOut := (serveCtlInside s).ctlOut } := by
  simp only [serveCtlInside]
  rw [serveCtl_frame s]

/-- A step of the CTL port does not depend on the snapshot. -/
theorem serveCtlInside_psnap (s : State) (v : ParamFile) :
    serveCtlInside { s with psnap := v } = { serveCtlInside s with psnap := v } := by
  simp only [serveCtlInside, serveCtl]
  split
  · rfl
  · simp [raise, consume, respond, send]
  · next i len rest h =>
    obtain ⟨w, u, -, -, -, -, hd⟩ := fetch_command _ _ _ _ _ h
    obtain ⟨b, f, d, rfl⟩ | ⟨b, f, rfl⟩ := decode_ctl _ _ _ _ _ hd
    · simp only [ctlEffect, wrparam]
      split <;> simp [raise, consume, respond, send]
    · simp only [ctlEffect, rdparam]
      split <;> simp [raise, consume, respond, respondData, send]

/-- BYPASS registers hold one bit after a step of the CTL port if they did before (R23). -/
theorem setParam_bypassBits (v : ParamFile) (b : Band) (f : Field) (r : Reg) (d : Word) (hr : regOf b f = some r)
    (h : ∀ b, getParam v (bypassReg b) = 0#32 ∨ getParam v (bypassReg b) = 1#32) (b' : Band) :
    getParam (setParam v r (storedWord f d)) (bypassReg b') = 0#32 ∨
      getParam (setParam v r (storedWord f d)) (bypassReg b') = 1#32 := by
  rw [getParam_setParam]
  split
  · next he =>
    have : f = .bypass := by
      subst he
      revert hr; cases b <;> cases f <;> cases b' <;> decide
    subst this
    simp only [storedWord]
    split
    · exact .inl rfl
    · exact .inr rfl
  · exact h b'

theorem wrparam_params (b : Band) (f : Field) (d : Word) (s : State) :
    (wrparam b f d s).params = match regOf b f with
      | some r => setParam s.params r (storedWord f d)
      | none => s.params := by
  unfold wrparam
  cases regOf b f <;> simp

theorem serveCtl_bypassBits (s : State)
    (h : ∀ b, getParam s.params (bypassReg b) = 0#32 ∨ getParam s.params (bypassReg b) = 1#32) (b : Band) :
    getParam (serveCtl s).params (bypassReg b) = 0#32 ∨ getParam (serveCtl s).params (bypassReg b) = 1#32 := by
  unfold serveCtl
  split
  · exact h b
  · simpa using h b
  · next i len rest hf =>
    obtain ⟨w, v, -, -, -, -, hd⟩ := fetch_command _ _ _ _ _ hf
    obtain ⟨b', f, d, rfl⟩ | ⟨b', f, rfl⟩ := decode_ctl _ _ _ _ _ hd
    · simp only [ctlEffect, wrparam_params]
      cases hr : regOf b' f with
      | none => simpa using h b
      | some r => exact setParam_bypassBits _ b' f r d hr (by simpa using h) b
    · simp only [ctlEffect, rdparam]
      split <;> simpa using h b

/-! The sampling phase. -/

/-- The last reads of a phase, with nothing between them. -/
theorem sampleRest_eq (left : List Reg) (s : State) :
    left.foldl (fun t r => sampleReg r t) s = { s with psnap := (left.foldl (fun t r => sampleReg r t) s).psnap } := by
  induction left generalizing s with
  | nil => rfl
  | cons r left ih =>
    simp only [List.foldl_cons]
    rw [ih (sampleReg r s)]
    rfl

/-- What the last reads leave in the snapshot. -/
theorem getParam_sampleRest (left : List Reg) (s : State) (r : Reg) :
    getParam (left.foldl (fun t r => sampleReg r t) s).psnap r = if r ∈ left then getParam s.params r else getParam s.psnap r := by
  induction left generalizing s with
  | nil => simp
  | cons r' left ih =>
    simp only [List.foldl_cons]
    rw [ih (sampleReg r' s)]
    simp only [sampleReg_params, sampleReg_psnap, getParam_setParam, List.mem_cons]
    by_cases h : r' = r
    · subst h; simp
    · by_cases hl : r ∈ left
      · simp [hl]
      · simp [hl, h, Ne.symm h]

/-- A sampling phase changes the snapshot and what the CTL port changes. -/
theorem samplePhase_frame (es : List SampleTurn) (left : List Reg) (s : State) :
    samplePhase es left s =
      { s with
        psnap := (samplePhase es left s).psnap
        params := (samplePhase es left s).params
        ctlIn := (samplePhase es left s).ctlIn
        ctlPtr := (samplePhase es left s).ctlPtr
        ctlOut := (samplePhase es left s).ctlOut } := by
  induction es generalizing left s with
  | nil =>
    simp only [samplePhase]
    rw [sampleRest_eq]
  | cons e es ih =>
    cases e with
    | read r =>
      simp only [samplePhase]
      split
      · rw [ih]; rfl
      · exact ih left s
    | ctl =>
      simp only [samplePhase]
      rw [ih, serveCtlInside_frame s]

/-- A whole sampling phase also takes its list of events. -/
theorem samplingPhase_frame (s : State) :
    samplingPhase s =
      { s with
        psnap := (samplingPhase s).psnap
        params := (samplingPhase s).params
        ctlIn := (samplingPhase s).ctlIn
        ctlPtr := (samplingPhase s).ctlPtr
        ctlOut := (samplingPhase s).ctlOut
        sampling := s.sampling.tail } := by
  unfold samplingPhase
  rw [samplePhase_frame]

@[simp] theorem samplingPhase_cfg (s : State) : (samplingPhase s).cfg = s.cfg := by rw [samplingPhase_frame]
@[simp] theorem samplingPhase_st (s : State) : (samplingPhase s).st = s.st := by rw [samplingPhase_frame]
@[simp] theorem samplingPhase_coef (s : State) : (samplingPhase s).coef = s.coef := by rw [samplingPhase_frame]
@[simp] theorem samplingPhase_delay (s : State) : (samplingPhase s).delay = s.delay := by rw [samplingPhase_frame]
@[simp] theorem samplingPhase_factory (s : State) : (samplingPhase s).factory = s.factory := by rw [samplingPhase_frame]
@[simp] theorem samplingPhase_buf (s : State) : (samplingPhase s).buf = s.buf := by rw [samplingPhase_frame]
@[simp] theorem samplingPhase_cmdPtr (s : State) : (samplingPhase s).cmdPtr = s.cmdPtr := by rw [samplingPhase_frame]
@[simp] theorem samplingPhase_port (s : State) : (samplingPhase s).port = s.port := by rw [samplingPhase_frame]
@[simp] theorem samplingPhase_cmdIn (s : State) : (samplingPhase s).cmdIn = s.cmdIn := by rw [samplingPhase_frame]
@[simp] theorem samplingPhase_cmdOut (s : State) : (samplingPhase s).cmdOut = s.cmdOut := by rw [samplingPhase_frame]
@[simp] theorem samplingPhase_memIn (s : State) : (samplingPhase s).memIn = s.memIn := by rw [samplingPhase_frame]
@[simp] theorem samplingPhase_memOut (s : State) : (samplingPhase s).memOut = s.memOut := by rw [samplingPhase_frame]
@[simp] theorem samplingPhase_turns (s : State) : (samplingPhase s).turns = s.turns := by rw [samplingPhase_frame]

/-- BYPASS registers keep holding one bit through a sampling phase. -/
theorem samplePhase_bypassBits (es : List SampleTurn) (left : List Reg) (s : State)
    (h : ∀ b, getParam s.params (bypassReg b) = 0#32 ∨ getParam s.params (bypassReg b) = 1#32) (b : Band) :
    getParam (samplePhase es left s).params (bypassReg b) = 0#32 ∨
      getParam (samplePhase es left s).params (bypassReg b) = 1#32 := by
  induction es generalizing left s with
  | nil =>
    simp only [samplePhase]
    rw [sampleRest_eq]
    exact h b
  | cons e es ih =>
    cases e with
    | read r =>
      simp only [samplePhase]
      split
      · exact ih _ _ (by simpa using h)
      · exact ih _ _ h
    | ctl =>
      simp only [samplePhase]
      exact ih _ _ (serveCtl_bypassBits s h)

/-! The coefficients. -/

/-- The coefficient sets after the bands of a list are recomputed; nothing else but the factory changes. -/
theorem recomputeFold_eq (fs : Word) (bs : List Band) (s : State) :
    bs.foldl (recomputeBand fs) s =
        { s with coef := (bs.foldl (recomputeBand fs) s).coef, factory := (bs.foldl (recomputeBand fs) s).factory } ∧
      ∀ b, getCoef (bs.foldl (recomputeBand fs) s) b = if b ∈ bs then bandcoef b s.psnap fs else getCoef s b := by
  induction bs generalizing s with
  | nil => exact ⟨rfl, by simp⟩
  | cons b bs ih =>
    obtain ⟨h1, h2⟩ := ih (recomputeBand fs s b)
    simp only [List.foldl_cons]
    constructor
    · rw [h1]
      simp only [recomputeBand, factoryLoad, factoryRun, setcoef]
    · intro b'
      rw [h2 b']
      simp only [List.mem_cons, recomputeBand_psnap]
      by_cases hm : b' ∈ bs
      · simp [hm]
      · simp only [hm, or_false, if_false]
        unfold getCoef
        rw [recomputeBand_coef]
        simp only [Fin.getElem_fin, Vector.getElem_set]
        by_cases hb : b' = b
        · subst hb; simp
        · have hn : (bandIdx b).val ≠ (bandIdx b').val := fun he => hb (bandIdx_inj _ _ (Fin.ext he)).symm
          simp [hb, hn]

/-- Phase 2 of PROCESS: every set is BANDCOEF of the snapshot (R175); nothing else but the factory changes. -/
theorem recomputeAll_eq (s : State) :
    recomputeAll s = { s with coef := (recomputeAll s).coef, factory := (recomputeAll s).factory } ∧
      ∀ b, getCoef (recomputeAll s) b = bandcoef b s.psnap s.cfg.fs := by
  obtain ⟨h1, h2⟩ := recomputeFold_eq s.cfg.fs allBands s
  refine ⟨h1, fun b => ?_⟩
  have := h2 b
  rw [if_pos (by cases b <;> decide)] at this
  exact this

/-! A lane. -/

/-- The inner loop of BQPROC is the filter on the list of samples that stand in `BUF`: the pair it leaves, the outputs in
their places, every other byte as before. -/
theorem bqRun_spec (c : CoefSet Word) (n a : Nat) (d : Delay Word) (m : Memory) :
    (bqRun c n a d m).1 = (bqList arith32 c d ((List.range n).map fun k => bufRead m (a + k))).2 ∧
    (List.range n).map (fun k => bufRead (bqRun c n a d m).2 (a + k)) =
      (bqList arith32 c d ((List.range n).map fun k => bufRead m (a + k))).1 ∧
    (∀ k, (k / 4 < a ∨ a + n ≤ k / 4) → Memory.read? (bqRun c n a d m).2 k = Memory.read? m k) ∧
    (Memory.wf m = true → Memory.wf (bqRun c n a d m).2 = true) ∧
    ∀ x ∈ (bqRun c n a d m).2, x ∈ m ∨ (a ≤ x.1 / 4 ∧ x.1 / 4 < a + n) := by
  induction n generalizing a d m with
  | zero => exact ⟨rfl, rfl, fun k _ => rfl, id, fun x hx => .inl hx⟩
  | succ n ih =>
    have hread : ∀ (k : Nat) (w : Word), k / 4 ≠ a → Memory.read? (bufWrite m a w) k = Memory.read? m k := by
      intro k w hk
      simp only [bufWrite, Memory.read_write]
      simp [show 4 * a ≠ k by omega, show 4 * a + 1 ≠ k by omega, show 4 * a + 2 ≠ k by omega, show 4 * a + 3 ≠ k by omega]
    have hlist : (List.range (n + 1)).map (fun k => bufRead m (a + k)) =
        bufRead m a :: (List.range n).map fun k => bufRead m (a + 1 + k) := by
      rw [List.range_succ_eq_map]
      simp only [List.map_cons, List.map_map, Nat.add_zero]
      congr 1
      apply List.map_congr_left
      intro k _
      simp only [Function.comp_apply]
      congr 1; omega
    have htail : ∀ w, (List.range n).map (fun k => bufRead (bufWrite m a w) (a + 1 + k)) =
        (List.range n).map fun k => bufRead m (a + 1 + k) := by
      intro w
      apply List.map_congr_left
      intro k _
      exact bufRead_bufWrite_ne _ _ _ _ (by omega)
    obtain ⟨h1, h2, h3, h4, h5⟩ := ih (a + 1) (bqstep arith32 c d (bufRead m a)).2
      (bufWrite m a (bqstep arith32 c d (bufRead m a)).1)
    rw [htail] at h1 h2
    simp only [bqRun]
    rw [hlist]
    simp only [bqList]
    refine ⟨h1, ?_, ?_, fun hw => h4 (bufWrite_wf _ _ _ hw), ?_⟩
    · rw [List.range_succ_eq_map]
      simp only [List.map_cons, List.map_map, Nat.add_zero]
      congr 1
      · have : ∀ j, j / 4 = a → Memory.read? (bqRun c n (a + 1) (bqstep arith32 c d (bufRead m a)).2
            (bufWrite m a (bqstep arith32 c d (bufRead m a)).1)).2 j =
            Memory.read? (bufWrite m a (bqstep arith32 c d (bufRead m a)).1) j := fun j hj => h3 j (by omega)
        rw [bufRead_congr _ _ a this, bufRead_bufWrite_same]
      · rw [← h2]
        apply List.map_congr_left
        intro k _
        simp only [Function.comp_apply]
        congr 1; omega
    · intro k hk
      rw [h3 k (by omega), hread k _ (by omega)]
    · intro x hx
      rcases h5 x hx with h | h
      · rcases mem_bufWrite _ _ _ _ h with h | h
        · exact .inl h
        · exact .inr (by omega)
      · exact .inr (by omega)

/-- BQPROC on one channel changes that lane of `BUF` and that channel's pair of the band. -/
theorem bqLane_spec (b : Band) (n : Nat) (ch : Fin Config.maxCh) (s : State) :
    bqLane b n ch s = { s with buf := (bqLane b n ch s).buf, delay := (bqLane b n ch s).delay } ∧
    (∀ b' ch', getDelay (bqLane b n ch s) b' ch' =
      if b = b' ∧ ch = ch' then
        (bqList arith32 (getCoef s b) (getDelay s b ch) ((List.range n).map fun k => bufRead s.buf (bufAddr s ch k))).2
      else getDelay s b' ch') ∧
    (List.range n).map (fun k => bufRead (bqLane b n ch s).buf (bufAddr s ch k)) =
      (bqList arith32 (getCoef s b) (getDelay s b ch) ((List.range n).map fun k => bufRead s.buf (bufAddr s ch k))).1 ∧
    (∀ k, (∀ j < n, k / 4 ≠ bufAddr s ch j) → Memory.read? (bqLane b n ch s).buf k = Memory.read? s.buf k) ∧
    (Memory.wf s.buf = true → Memory.wf (bqLane b n ch s).buf = true) ∧
    ∀ x ∈ (bqLane b n ch s).buf, x ∈ s.buf ∨ ∃ j < n, x.1 / 4 = bufAddr s ch j := by
  have haddr : ∀ k, bufAddr s ch.val 0 + k = bufAddr s ch k := by intro k; simp [bufAddr]
  obtain ⟨h1, h2, h3, h4, h5⟩ := bqRun_spec (getCoef s b) n (bufAddr s ch 0) (getDelay s b ch) s.buf
  simp only [haddr] at h1 h2
  have hbuf : (bqLane b n ch s).buf = (bqRun (getCoef s b) n (bufAddr s ch 0) (getDelay s b ch) s.buf).2 := by
    simp [bqLane]
  refine ⟨by simp [bqLane, setDelay], ?_, by rw [hbuf]; exact h2, ?_, by rw [hbuf]; exact h4, ?_⟩
  · intro b' ch'
    simp only [bqLane]
    rw [getDelay_setDelay, h1]
    rfl
  · intro k hk
    rw [hbuf]
    apply h3
    by_contra hc
    have := hk (k / 4 - bufAddr s ch 0) (by omega)
    rw [← haddr] at this
    omega
  · intro x hx
    rw [hbuf] at hx
    rcases h5 x hx with h | h
    · exact .inl h
    · exact .inr ⟨x.1 / 4 - bufAddr s ch 0, by omega, by rw [← haddr]; omega⟩

/-- The two channels one after the other. -/
theorem bqproc_eq (b : Band) (n : Nat) (s : State) :
    bqproc b n s =
      (let t := if 0 < s.cfg.nch.toNat then bqLane b n 0 s else s
       if 1 < s.cfg.nch.toNat then bqLane b n 1 t else t) := by
  have hl : List.finRange Config.maxCh = [0, 1] := by decide
  simp only [bqproc, hl, List.foldl_cons, List.foldl_nil]
  by_cases h0 : 0 < s.cfg.nch.toNat
  · by_cases h1 : 1 < s.cfg.nch.toNat <;> simp [h0, h1]
  · have h1 : ¬ 1 < s.cfg.nch.toNat := by omega
    simp [h0, h1]

/-- Two lanes of a block that fits have no word in common. -/
theorem bufAddr_lane_ne (s : State) (n j k : Nat) (ch ch' : Fin Config.maxCh) (hn : n ≤ s.cfg.maxBlock.toNat) (hj : j < n)
    (hk : k < n) (hc : ch ≠ ch') : bufAddr s ch j ≠ bufAddr s ch' k := by
  have h2 : ch.val < 2 := ch.isLt
  have h2' : ch'.val < 2 := ch'.isLt
  have hne : ch.val ≠ ch'.val := fun h => hc (Fin.ext h)
  unfold bufAddr
  rcases (by omega : ch.val = 0 ∧ ch'.val = 1 ∨ ch.val = 1 ∧ ch'.val = 0) with ⟨h, h'⟩ | ⟨h, h'⟩ <;> rw [h, h'] <;> omega

/-- BQPROC of a block that fits (R155, R158): every lane below `CFG.nch` is the filter's output on the lane as it was, its
pair the one the filter leaves; everything else is as before. -/
theorem bqproc_spec (b : Band) (n : Nat) (s : State) (hn : n ≤ s.cfg.maxBlock.toNat) :
    bqproc b n s = { s with buf := (bqproc b n s).buf, delay := (bqproc b n s).delay } ∧
    (∀ ch : Fin Config.maxCh, ch.val < s.cfg.nch.toNat →
      (List.range n).map (fun k => bufRead (bqproc b n s).buf (bufAddr s ch k)) =
        (bqList arith32 (getCoef s b) (getDelay s b ch) ((List.range n).map fun k => bufRead s.buf (bufAddr s ch k))).1) ∧
    (∀ b' (ch : Fin Config.maxCh), getDelay (bqproc b n s) b' ch =
      if b = b' ∧ ch.val < s.cfg.nch.toNat then
        (bqList arith32 (getCoef s b) (getDelay s b ch) ((List.range n).map fun k => bufRead s.buf (bufAddr s ch k))).2
      else getDelay s b' ch) ∧
    (∀ k, (∀ (ch : Fin Config.maxCh) (j : Nat), ch.val < s.cfg.nch.toNat → j < n → k / 4 ≠ bufAddr s ch j) →
      Memory.read? (bqproc b n s).buf k = Memory.read? s.buf k) ∧
    (Memory.wf s.buf = true → Memory.wf (bqproc b n s).buf = true) ∧
    ∀ x ∈ (bqproc b n s).buf, x ∈ s.buf ∨
      ∃ (ch : Fin Config.maxCh) (j : Nat), ch.val < s.cfg.nch.toNat ∧ j < n ∧ x.1 / 4 = bufAddr s ch j := by
  have hch : ∀ ch : Fin Config.maxCh, ch = 0 ∨ ch = 1 := by decide
  rw [bqproc_eq]
  obtain ⟨e1, e2, e3, e4, e5, e6⟩ := bqLane_spec b n 0 s
  by_cases h0 : 0 < s.cfg.nch.toNat
  · by_cases h1 : 1 < s.cfg.nch.toNat
    · simp only [h0, h1, if_true]
      have hcoef : getCoef (bqLane b n 0 s) b = getCoef s b := by rw [e1]; rfl
      have haddr : ∀ ch k, bufAddr (bqLane b n 0 s) ch k = bufAddr s ch k := by intro ch k; rw [e1]; rfl
      obtain ⟨f1, f2, f3, f4, f5, f6⟩ := bqLane_spec b n 1 (bqLane b n 0 s)
      have hd1 : getDelay (bqLane b n 0 s) b 1 = getDelay s b 1 := by rw [e2]; simp
      have hlane1 : (List.range n).map (fun k => bufRead (bqLane b n 0 s).buf (bufAddr s (1 : Fin Config.maxCh) k)) =
          (List.range n).map fun k => bufRead s.buf (bufAddr s (1 : Fin Config.maxCh) k) := by
        apply List.map_congr_left
        intro k hk
        apply bufRead_congr
        intro x hx
        apply e4
        intro j hj
        rw [hx]
        exact bufAddr_lane_ne s n k j 1 0 hn (List.mem_range.1 hk) hj (by decide)
      simp only [hcoef, haddr, hd1, hlane1] at f2 f3 f4 f6
      refine ⟨?_, ?_, ?_, ?_, fun hw => f5 (e5 hw), ?_⟩
      · rw [f1, e1]
      · intro ch _
        rcases hch ch with rfl | rfl
        · rw [← e3]
          apply List.map_congr_left
          intro k hk
          apply bufRead_congr
          intro x hx
          apply f4
          intro j hj
          rw [hx]
          exact bufAddr_lane_ne s n k j 0 1 hn (List.mem_range.1 hk) hj (by decide)
        · exact f3
      · intro b' ch
        rw [f2, e2]
        by_cases hb : b = b'
        · subst hb
          rcases hch ch with rfl | rfl
          · simp [h0]
          · simp [h1]
        · simp [hb]
      · intro k hk
        rw [f4 k (fun j hj => hk 1 j h1 hj), e4 k (fun j hj => hk 0 j h0 hj)]
      · intro x hx
        rcases f6 x hx with h | ⟨j, hj, h⟩
        · rcases e6 x h with h | ⟨j, hj, h⟩
          · exact .inl h
          · exact .inr ⟨0, j, h0, hj, h⟩
        · exact .inr ⟨1, j, h1, hj, h⟩
    · simp only [h0, h1, if_true, if_false]
      refine ⟨e1, ?_, ?_, fun k hk => e4 k (fun j hj => hk 0 j h0 hj), e5, ?_⟩
      · intro ch hc
        rcases hch ch with rfl | rfl
        · exact e3
        · exact absurd hc h1
      · intro b' ch
        rw [e2]
        by_cases hb : b = b'
        · subst hb
          rcases hch ch with rfl | rfl
          · simp [h0]
          · simp [h1]
        · simp [hb]
      · intro x hx
        rcases e6 x hx with h | ⟨j, hj, h⟩
        · exact .inl h
        · exact .inr ⟨0, j, h0, hj, h⟩
  · have h1 : ¬ 1 < s.cfg.nch.toNat := by omega
    simp only [h0, h1, if_false]
    refine ⟨trivial, fun ch hc => absurd hc (by omega), fun b' ch => ?_, fun _ _ => trivial, id, fun x hx => .inl hx⟩
    rw [if_neg (by omega)]

/-- The bands of a list run one after the other on a block that fits: only `BUF` inside the lanes and the delay pairs
change. -/
theorem runBandsFold_spec (n : Nat) (bs : List Band) (s : State) (hn : n ≤ s.cfg.maxBlock.toNat) :
    bs.foldl (runBand n) s = { s with buf := (bs.foldl (runBand n) s).buf, delay := (bs.foldl (runBand n) s).delay } ∧
    (Memory.wf s.buf = true → Memory.wf (bs.foldl (runBand n) s).buf = true) ∧
    (∀ x ∈ (bs.foldl (runBand n) s).buf, x ∈ s.buf ∨
      ∃ (ch : Fin Config.maxCh) (j : Nat), ch.val < s.cfg.nch.toNat ∧ j < n ∧ x.1 / 4 = bufAddr s ch j) := by
  induction bs generalizing s with
  | nil => exact ⟨rfl, id, fun x h => .inl h⟩
  | cons b bs ih =>
    simp only [List.foldl_cons]
    by_cases hb : getParam s.psnap (bypassReg b) = 0#32
    · have : runBand n s b = bqproc b n s := by simp [runBand, hb]
      rw [this]
      obtain ⟨e1, e2, e3, e4, e5, e6⟩ := bqproc_spec b n s hn
      have hc : (bqproc b n s).cfg = s.cfg := by rw [e1]
      obtain ⟨f1, f2, f3⟩ := ih (bqproc b n s) (by rw [hc]; exact hn)
      refine ⟨by rw [f1, e1], fun h => f2 (e5 h), fun x hx => ?_⟩
      simp only [bufAddr, hc] at f3 e6 ⊢
      rcases f3 x hx with h | h
      · exact e6 x h
      · exact .inr h
    · have : runBand n s b = s := by simp [runBand, hb]
      rw [this]
      exact ih s hn

/-! PREPARE. -/

/-- The bands of a list cleared and recomputed, as PREPARE does (R170): the pairs of the channels below `nch` are zero, the
sets are BANDCOEF of the snapshot, nothing else but the factory changes. -/
theorem prepareFold_eq (fs : Word) (nch : Nat) (bs : List Band) (s : State) :
    bs.foldl (fun t b => recomputeBand fs (streset b nch t) b) s =
        { s with
          coef := (bs.foldl (fun t b => recomputeBand fs (streset b nch t) b) s).coef
          factory := (bs.foldl (fun t b => recomputeBand fs (streset b nch t) b) s).factory
          delay := (bs.foldl (fun t b => recomputeBand fs (streset b nch t) b) s).delay } ∧
      (∀ b, getCoef (bs.foldl (fun t b => recomputeBand fs (streset b nch t) b) s) b =
        if b ∈ bs then bandcoef b s.psnap fs else getCoef s b) ∧
      ∀ b (ch : Fin Config.maxCh), getDelay (bs.foldl (fun t b => recomputeBand fs (streset b nch t) b) s) b ch =
        if b ∈ bs ∧ ch.val < nch then zeroDelay else getDelay s b ch := by
  induction bs generalizing s with
  | nil => exact ⟨rfl, fun b => by simp, fun b ch => by simp⟩
  | cons b bs ih =>
    obtain ⟨h1, h2, h3⟩ := ih (recomputeBand fs (streset b nch s) b)
    rw [List.foldl_cons]
    refine ⟨?_, fun b' => ?_, fun b' ch => ?_⟩
    · rw [h1]
      simp only [recomputeBand, factoryLoad, factoryRun, setcoef, streset]
    · rw [h2 b', recomputeBand_psnap, streset_psnap]
      by_cases hm : b' ∈ bs
      · simp [hm]
      · have : getCoef (recomputeBand fs (streset b nch s) b) b' =
            if b = b' then bandcoef b s.psnap fs else getCoef s b' := by
          simp only [getCoef, recomputeBand_coef, Fin.getElem_fin, Vector.getElem_set, streset_coef, streset_psnap]
          by_cases hb : b = b'
          · subst hb; simp
          · have hn : (bandIdx b).val ≠ (bandIdx b').val := fun he => hb (bandIdx_inj _ _ (Fin.ext he))
            simp [hb, hn]
        rw [this]
        by_cases hb : b = b'
        · subst hb; simp [hm]
        · simp [hm, hb, Ne.symm hb]
    · have : getDelay (recomputeBand fs (streset b nch s) b) b' ch = getDelay (streset b nch s) b' ch := by
        unfold getDelay; rw [recomputeBand_delay]
      rw [h3 b' ch, this, getDelay_streset]
      by_cases hc : ch.val < nch
      · by_cases hm : b' ∈ bs
        · simp [hm, hc]
        · by_cases hb : b = b'
          · subst hb; simp [hc]
          · simp [hm, hb, Ne.symm hb]
      · simp [hc]

/-- `setPrepared` after such a fold, whatever the folded state is. -/
theorem setPrepared_configured (fs f m n : Word) (s u : State)
    (h1 : u = { setRateSubst (decide (fs ≠ f)) { s with cfg := ⟨fs, m, n⟩ } with
      coef := u.coef, factory := u.factory, delay := u.delay }) :
    setPrepared u =
      { s with
        cfg := ⟨fs, m, n⟩
        st := ⟨true, decide (fs ≠ f), s.st.err⟩
        coef := (setPrepared u).coef
        factory := (setPrepared u).factory
        delay := (setPrepared u).delay } := by
  rw [h1]; rfl

theorem getCoef_setPrepared (s : State) (b : Band) : getCoef (setPrepared s) b = getCoef s b := rfl

theorem getDelay_setPrepared (s : State) (b : Band) (ch : Fin Config.maxCh) :
    getDelay (setPrepared s) b ch = getDelay s b ch := rfl

/-- Everything PREPARE does after its sampling phase (R170, R172). -/
theorem prepareEffect_spec (f m n : Word) (s : State) :
    prepareEffect f m n s =
        { s with
          cfg := ⟨fsguard f, m, n⟩
          st := ⟨true, decide (fsguard f ≠ f), s.st.err⟩
          coef := (prepareEffect f m n s).coef
          factory := (prepareEffect f m n s).factory
          delay := (prepareEffect f m n s).delay } ∧
      (∀ b, getCoef (prepareEffect f m n s) b = bandcoef b s.psnap (fsguard f)) ∧
      ∀ b (ch : Fin Config.maxCh), getDelay (prepareEffect f m n s) b ch =
        if ch.val < n.toNat then zeroDelay else getDelay s b ch := by
  rw [prepareEffect]
  have hm : ∀ b, b ∈ allBands := by intro b; cases b <;> decide
  have key : ∀ (fs : Word) (c : State), c = setRateSubst (decide (fs ≠ f)) { s with cfg := ⟨fs, m, n⟩ } →
      let u := setPrepared (allBands.foldl (fun t b => recomputeBand fs (streset b n.toNat t) b) c)
      u = { s with
          cfg := ⟨fs, m, n⟩
          st := ⟨true, decide (fs ≠ f), s.st.err⟩
          coef := u.coef
          factory := u.factory
          delay := u.delay } ∧
        (∀ b, getCoef u b = bandcoef b s.psnap fs) ∧
        ∀ b (ch : Fin Config.maxCh), getDelay u b ch = if ch.val < n.toNat then zeroDelay else getDelay s b ch := by
    intro fs c hc
    obtain ⟨h1, h2, h3⟩ := prepareFold_eq fs n.toNat allBands c
    have hp : c.psnap = s.psnap := by rw [hc]; rfl
    have hd : ∀ b (ch : Fin Config.maxCh), getDelay c b ch = getDelay s b ch := by intro b ch; rw [hc]; rfl
    intro u
    refine ⟨setPrepared_configured fs f m n s _ ?_, fun b => ?_, fun b ch => ?_⟩
    · rw [← hc]; exact h1
    · rw [getCoef_setPrepared, h2, if_pos (hm b), hp]
    · rw [getDelay_setPrepared, h3, hd]
      simp only [hm b, true_and]
  exact key (fsguard f) _ rfl

/-! The step. -/

/-- The invariant speaks of `BUF`, the parameters, the configuration and two status bits only. -/
theorem State.Inv_of_same_fields (s t : State) (h : s.Inv) (h1 : t.buf = s.buf) (h2 : t.params = s.params) (h3 : t.cfg = s.cfg)
    (h4 : t.st.prepared = s.st.prepared) (h5 : t.st.rateSubst = s.st.rateSubst) : t.Inv := by
  obtain ⟨a, b, c, d, e, f, g⟩ := h
  refine ⟨?_, ?_, ?_, ?_, ?_, ?_, ?_⟩ <;> simp only [h1, h2, h3, h4, h5] <;> assumption


/-- What is served next, said by the agents: the CMD port only when no access issued before its command waits, the memory
port only when one does (R58 (d)); both in the RT agent's turn, or with no turn listed. -/
theorem nextTurn_cases (s : State) :
    (nextTurn s = .cmd ∧ memReady s = false ∧ (s.turns = [] ∨ s.turns.head? = some .rt)) ∨
    (nextTurn s = .mem ∧ memReady s = true ∧ (s.turns = [] ∨ s.turns.head? = some .rt)) ∨
    (nextTurn s = .ctl ∧ (s.turns = [] ∨ s.turns.head? = some .ctl)) ∨
    ∃ tag, nextTurn s = .internal tag ∧ s.turns.head? = some (.internal tag) := by
  unfold nextTurn rtServed
  rcases hs : s.turns with _ | ⟨t, ts⟩
  · cases memReady s <;> cases hasCommand .cmd s <;> cases hasCommand .ctl s <;> simp
  · cases t <;> cases memReady s <;> simp

/-- Everything a step that gives a next state can be: an idle turn, an illegal command answered, an instruction executed,
or an access at the memory port. -/
theorem step_cases (s t : State) (h : step s = .next t) :
    t = dropTurn s ∨
    (∃ p e len rest, fetch p (waiting p s) = .illegal e len rest ∧
      t = raise .illegal (consume p len rest (dropTurn s))) ∨
    (∃ p i len rest, fetch p (waiting p s) = .command i len rest ∧ exec i (consume p len rest (dropTurn s)) = .next t) ∨
    (∃ tag i, decodeTag tag = .ok i ∧ exec i (dropTurn s) = .next t) ∨
    (∃ k a rest, a < bufWords ∧ s.memIn = ⟨k, .read a⟩ :: rest ∧
      t = { dropTurn s with memIn := rest, memOut := s.memOut ++ [bufRead s.buf a] }) ∨
    (∃ k a w rest, a < bufWords ∧ s.memIn = ⟨k, .write a w⟩ :: rest ∧
      t = { dropTurn s with memIn := rest, buf := bufWrite s.buf a w }) := by
  have port : ∀ p, servePort exec p (dropTurn s) = .next t →
      t = dropTurn s ∨
      (∃ p e len rest, fetch p (waiting p s) = .illegal e len rest ∧
        t = raise .illegal (consume p len rest (dropTurn s))) ∨
      (∃ p i len rest, fetch p (waiting p s) = .command i len rest ∧
        exec i (consume p len rest (dropTurn s)) = .next t) := by
    intro p hp
    have hw : waiting p (dropTurn s) = waiting p s := by cases p <;> rfl
    unfold servePort at hp
    rw [hw] at hp
    split at hp
    · cases hp; exact .inl rfl
    · next e len rest hf => cases hp; exact .inr (.inl ⟨p, e, len, rest, hf, rfl⟩)
    · next i len rest hf => exact .inr (.inr ⟨p, i, len, rest, hf, hp⟩)
  unfold step at h
  split at h
  · rcases port _ h with h | h | h
    · exact .inl h
    · exact .inr (.inl h)
    · exact .inr (.inr (.inl h))
  · rcases port _ h with h | h | h
    · exact .inl h
    · exact .inr (.inl h)
    · exact .inr (.inr (.inl h))
  · unfold serveMem at h
    split at h
    · cases h; exact .inl rfl
    · next k a rest hm =>
      split at h
      · next ha => cases h; exact .inr (.inr (.inr (.inr (.inl ⟨k, a, rest, ha, hm, rfl⟩))))
      · cases h
    · next k a w rest hm =>
      split at h
      · next ha => cases h; exact .inr (.inr (.inr (.inr (.inr ⟨k, a, w, rest, ha, hm, rfl⟩))))
      · cases h
  · next tag ht =>
    unfold serveInternal at h
    split at h
    · next i hi => exact .inr (.inr (.inr (.inl ⟨tag, i, hi, h⟩)))
    · cases h

end Sys2Proof.Machine
end

