-- ==== Sys2Proof/Laws/Cascade.lean ====
section
/-! SUPPORT. The cascade as a function of a stream: a block in two parts, the two orders of running the bands, and that
phase 3 of PROCESS is the cascade on every lane. -/

namespace Sys2Proof.Claims

open Sys2Proof Sys2Proof.Machine

/-- The filter on a block in two parts (R180). -/
theorem bqList_append {F : Type} (A : Arith F) (c : CoefSet F) (d : Delay F) (xs ys : List F) :
    bqList A c d (xs ++ ys) =
      ((bqList A c d xs).1 ++ (bqList A c (bqList A c d xs).2 ys).1, (bqList A c (bqList A c d xs).2 ys).2) := by
  induction xs generalizing d with
  | nil => simp [bqList]
  | cons x xs ih => simp [bqList, ih]

/-- A stage on a block in two parts. -/
theorem stageRun_append {F : Type} (A : Arith F) (g : Stage F) (xs ys : List F) :
    stageRun A g (xs ++ ys) =
      ((stageRun A g xs).1 ++ (stageRun A (stageRun A g xs).2 ys).1, (stageRun A (stageRun A g xs).2 ys).2) := by
  unfold stageRun
  by_cases h : g.on = true <;> simp [h, bqList_append]

/-- The cascade on a block in two parts (R180). -/
theorem cascade_append {F : Type} (A : Arith F) (gs : List (Stage F)) (xs ys : List F) :
    cascade A gs (xs ++ ys) =
      ((cascade A gs xs).1 ++ (cascade A (cascade A gs xs).2 ys).1, (cascade A (cascade A gs xs).2 ys).2) := by
  induction gs generalizing xs ys with
  | nil => simp [cascade]
  | cons g gs ih => simp [cascade, stageRun_append, ih]

/-- The cascade of no samples leaves every stage as it is. -/
theorem cascade_nil {F : Type} (A : Arith F) (gs : List (Stage F)) : cascade A gs [] = ([], gs) := by
  have hs : ∀ g : Stage F, stageRun A g [] = ([], g) := by
    rintro ⟨c, on, pair⟩
    cases on <;> rfl
  induction gs with
  | nil => rfl
  | cons g gs ih => simp [cascade, hs, ih]

/-- One sample through the cascade is one frame. -/
theorem cascade_single {F : Type} (A : Arith F) (gs : List (Stage F)) (x : F) :
    cascade A gs [x] = ([(frameStep A gs x).1], (frameStep A gs x).2) := by
  induction gs generalizing x with
  | nil => rfl
  | cons g gs ih =>
    simp only [cascade, frameStep, stageRun]
    by_cases h : g.on = true <;> simp [h, bqList, ih]

/-- Running the bands frame by frame is running each over the whole block (R176). -/
theorem cascade_eq_frameRun {F : Type} (A : Arith F) (gs : List (Stage F)) (xs : List F) :
    cascade A gs xs = frameRun A gs xs := by
  induction xs generalizing gs with
  | nil => exact cascade_nil A gs
  | cons x xs ih =>
    rw [show x :: xs = [x] ++ xs from rfl, cascade_append, cascade_single]
    simp only [frameRun, ih, List.singleton_append]

/-- A stage keeps its coefficients and its switch; a cascade's stages after a block differ in their pairs only. -/
theorem cascade_stages {F : Type} (A : Arith F) (gs : List (Stage F)) (xs : List F) :
    (cascade A gs xs).2.map (fun g => (g.coefs, g.on)) = gs.map fun g => (g.coefs, g.on) := by
  induction gs generalizing xs with
  | nil => rfl
  | cons g gs ih =>
    simp only [cascade, List.map_cons, ih, stageRun]
    by_cases h : g.on = true <;> simp [h]

/-- The bands of a list as stages of a state. -/
def stagesIn (bs : List Band) (s : State) (ch : Fin Config.maxCh) : List (Stage Word) :=
  bs.map fun b => ⟨getCoef s b, decide (getParam s.psnap (bypassReg b) = 0#32), getDelay s b ch⟩

/-- The bands of a list run one after the other over a block that fits are the cascade on every lane (R155, R173, R176). -/
theorem runBandsFold_lanes (n : Nat) (bs : List Band) (hnd : bs.Nodup) (s : State) (hn : n ≤ s.cfg.maxBlock.toNat) :
    (∀ ch : Fin Config.maxCh, ch.val < s.cfg.nch.toNat →
      lane (bs.foldl (runBand n) s) ch n = (cascade arith32 (stagesIn bs s ch) (lane s ch n)).1 ∧
      bs.map (fun b => getDelay (bs.foldl (runBand n) s) b ch) =
        (cascade arith32 (stagesIn bs s ch) (lane s ch n)).2.map Stage.pair) ∧
    (∀ b ch, b ∉ bs ∨ s.cfg.nch.toNat ≤ ch.val → getDelay (bs.foldl (runBand n) s) b ch = getDelay s b ch) ∧
    (∀ a, (∀ (ch : Fin Config.maxCh) (k : Nat), ch.val < s.cfg.nch.toNat → k < n → a / 4 ≠ bufAddr s ch k) →
        Memory.read? (bs.foldl (runBand n) s).buf a = Memory.read? s.buf a) := by
  induction bs generalizing s with
  | nil => exact ⟨fun ch _ => ⟨rfl, rfl⟩, fun _ _ _ => rfl, fun _ _ => rfl⟩
  | cons b bs ih =>
    obtain ⟨hb, hnd⟩ := List.nodup_cons.1 hnd
    simp only [List.foldl_cons]
    by_cases hon : getParam s.psnap (bypassReg b) = 0#32
    · have hr : runBand n s b = bqproc b n s := by simp [runBand, hon]
      rw [hr]
      obtain ⟨e1, e2, e3, e4, e5, e6⟩ := bqproc_spec b n s hn
      generalize hu : bqproc b n s = u at *
      have hcfg : u.cfg = s.cfg := by rw [e1]
      have hps : u.psnap = s.psnap := by rw [e1]
      have hco : ∀ b, getCoef u b = getCoef s b := by intro b; unfold getCoef; rw [e1]
      have haddr : ∀ ch k, bufAddr u ch k = bufAddr s ch k := by intro ch k; unfold bufAddr; rw [hcfg]
      obtain ⟨f1, f2, f3⟩ := ih hnd u (by rw [hcfg]; exact hn)
      rw [hcfg] at f1 f2 f3
      refine ⟨fun ch hc => ?_, fun b' ch h => ?_, fun a ha => ?_⟩
      · obtain ⟨g1, g2⟩ := f1 ch hc
        have hl : lane u ch n = (bqList arith32 (getCoef s b) (getDelay s b ch) (lane s ch n)).1 := by
          simp only [lane, haddr]; exact e2 ch hc
        have hst : stagesIn bs u ch = stagesIn bs s ch := by
          apply List.map_congr_left
          intro b' hb'
          have : b ≠ b' := fun h => hb (h ▸ hb')
          rw [hco, hps, e3, if_neg (fun h => this h.1)]
        have hcas : cascade arith32 (stagesIn (b :: bs) s ch) (lane s ch n) =
            ((cascade arith32 (stagesIn bs s ch) (lane u ch n)).1,
             ⟨getCoef s b, true, (bqList arith32 (getCoef s b) (getDelay s b ch) (lane s ch n)).2⟩ :: (cascade arith32 (stagesIn bs s ch) (lane u ch n)).2) := by
          rw [hl]
          simp [stagesIn, cascade, stageRun, hon]
        rw [hcas]
        rw [hst] at g1 g2
        refine ⟨g1, ?_⟩
        simp only [List.map_cons, g2]
        congr 1
        rw [f2 b ch (.inl hb), e3, if_pos ⟨rfl, hc⟩]
        rfl
      · rcases h with h | h
        · rw [f2 b' ch (.inl (fun hh => h (List.mem_cons_of_mem _ hh))), e3, if_neg]
          rintro ⟨rfl, -⟩; exact h List.mem_cons_self
        · rw [f2 b' ch (.inr h), e3, if_neg]
          rintro ⟨-, hh⟩; omega
      · rw [f3 a (by simpa only [haddr] using ha), e4 a ha]
    · have hr : runBand n s b = s := by simp [runBand, hon]
      rw [hr]
      obtain ⟨f1, f2, f3⟩ := ih hnd s hn
      refine ⟨fun ch hc => ?_, fun b' ch h => ?_, f3⟩
      · obtain ⟨g1, g2⟩ := f1 ch hc
        have hcas : cascade arith32 (stagesIn (b :: bs) s ch) (lane s ch n) =
            ((cascade arith32 (stagesIn bs s ch) (lane s ch n)).1,
             ⟨getCoef s b, false, getDelay s b ch⟩ :: (cascade arith32 (stagesIn bs s ch) (lane s ch n)).2) := by
          simp [stagesIn, cascade, stageRun, hon]
        rw [hcas]
        refine ⟨g1, ?_⟩
        simp only [List.map_cons, g2]
        congr 1
        exact f2 b ch (.inl hb)
      · rcases h with h | h
        · exact f2 b' ch (.inl (fun hh => h (List.mem_cons_of_mem _ hh)))
        · exact f2 b' ch (.inr h)

end Sys2Proof.Claims
end

