-- ==== Sys2Proof/Laws/Float.lean ====
section
/-! SUPPORT. The small facts of the binary32 operations: packing, NaNs, the bounds of a rounding, the integer root. -/

namespace Sys2Proof.Machine

/-! Packing. -/

theorem fMag_fPack (neg : Bool) (mag : Nat) (h : mag < 2 ^ 31) : fMag (fPack neg mag) = mag := by
  cases neg <;> simp only [fMag, fPack, BitVec.toNat_ofNat] <;> simp <;> omega

theorem fNeg_fPack (neg : Bool) (mag : Nat) (h : mag < 2 ^ 31) : fNeg (fPack neg mag) = neg := by
  cases neg <;> simp only [fNeg, fPack, BitVec.msb_eq_decide, BitVec.toNat_ofNat] <;> simp <;> omega

theorem fMag_lt (w : Word) : fMag w < 2 ^ 31 := Nat.mod_lt _ (by decide)

/-- A word is its sign and its magnitude bits (R6). -/
theorem fPack_fNeg_fMag (w : Word) : fPack (fNeg w) (fMag w) = w := by
  apply BitVec.eq_of_toNat_eq
  have := w.isLt
  simp only [fNeg, fMag, fPack, BitVec.msb_eq_decide, BitVec.toNat_ofNat, decide_eq_true_eq]
  split <;> omega

theorem fNeg_fneg (w : Word) : fNeg (fneg w) = !fNeg w := by
  have h : (0x80000000#32).msb = true := by decide
  simp only [fNeg, fneg, BitVec.msb_xor, h, Bool.xor_true]

theorem fMag_fneg (w : Word) : fMag (fneg w) = fMag w := by
  have key : ∀ v : Word, fMag v = (v.setWidth 31).toNat := by intro v; simp [fMag]
  rw [key, key, fneg, BitVec.setWidth_xor]
  have : BitVec.setWidth 31 (0x80000000#32) = 0#31 := by decide
  rw [this, BitVec.xor_zero]

/-! The four kinds of word exclude each other and leave no fifth. -/

theorem isFinite_or (w : Word) : isFinite w = true ∨ isInf w = true ∨ isNaN w = true := by
  simp only [isFinite, isInf, isNaN, decide_eq_true_eq]; omega

theorem isNaN_of_isFinite (w : Word) (h : isFinite w = true) : isNaN w = false := by
  simp only [isFinite, decide_eq_true_eq] at h
  simp only [isNaN, decide_eq_false_iff_not]; omega

theorem isInf_of_isFinite (w : Word) (h : isFinite w = true) : isInf w = false := by
  simp only [isFinite, decide_eq_true_eq] at h
  simp only [isInf, decide_eq_false_iff_not]; omega

theorem isNaN_of_isInf (w : Word) (h : isInf w = true) : isNaN w = false := by
  simp only [isInf, decide_eq_true_eq] at h
  simp only [isNaN, decide_eq_false_iff_not]; omega

theorem isFinite_of_isZero (w : Word) (h : isZero w = true) : isFinite w = true := by
  simp only [isZero, decide_eq_true_eq] at h
  simp only [isFinite, decide_eq_true_eq, h]; decide

/-! NaNs (U6). -/

/-- The bits of a NaN that an operation makes. -/
theorem nanOf_bits (src : Config.NanSource) (a b : Word) : nanOf src a b &&& 0x7FC00000#32 = 0x7FC00000#32 := by
  unfold nanOf
  generalize Config.nanBits src a b = v
  ext i hi
  simp only [BitVec.getElem_and, BitVec.getElem_or]
  cases (0x7FC00000#32)[i] <;> simp

/-- A word with those bits is a NaN. -/
theorem isNaN_of_bits (w : Word) (h : w &&& 0x7FC00000#32 = 0x7FC00000#32) : isNaN w = true := by
  have h1 : (w.setWidth 31 &&& 0x7FC00000#31) = 0x7FC00000#31 := by
    have := congrArg (BitVec.setWidth 31) h
    rw [BitVec.setWidth_and] at this
    exact this
  have h2 : (0x7FC00000#31).toNat ≤ (w.setWidth 31).toNat := by
    have h3 := congrArg BitVec.toNat h1
    rw [BitVec.toNat_and] at h3
    rw [← h3]
    exact Nat.and_le_left
  have h4 : fMag w = (w.setWidth 31).toNat := by simp [fMag]
  simp only [isNaN, decide_eq_true_eq, h4, infMag]
  have h5 : (0x7FC00000#31).toNat = 2143289344 := by decide
  omega

theorem isNaN_nanOf (src : Config.NanSource) (a b : Word) : isNaN (nanOf src a b) = true :=
  isNaN_of_bits _ (nanOf_bits src a b)

theorem fadd_of_nan (a b : Word) (h : isNaN a = true ∨ isNaN b = true) : fadd a b = nanOf .add a b := by
  rcases h with h | h <;> simp [fadd, addCore, h]

theorem isNaN_fneg (w : Word) : isNaN (fneg w) = isNaN w := by simp only [isNaN, fMag_fneg]

theorem fsub_of_nan (a b : Word) (h : isNaN a = true ∨ isNaN b = true) : fsub a b = nanOf .sub a b := by
  rcases h with h | h <;> simp [fsub, addCore, isNaN_fneg, h]

theorem fmul_of_nan (a b : Word) (h : isNaN a = true ∨ isNaN b = true) : fmul a b = nanOf .mul a b := by
  rcases h with h | h <;> simp [fmul, h]

theorem fdiv_of_nan (a b : Word) (h : isNaN a = true ∨ isNaN b = true) : fdiv a b = nanOf .div a b := by
  rcases h with h | h <;> simp [fdiv, h]

/-! Rounding. -/

theorem roundNearest_le (num den : Nat) : roundNearest num den ≤ infMag := Nat.min_le_right _ _

theorem roundDown_le (num den : Nat) : roundDown num den ≤ infMag := Nat.min_le_right _ _

theorem roundUp_le (num den : Nat) : roundUp num den ≤ infMag := Nat.min_le_right _ _

theorem infMag_lt : infMag < 2 ^ 31 := by decide

/-- Zero rounds to zero. -/
theorem roundNearest_zero (den : Nat) : roundNearest 0 den = 0 := by
  have hs : roundShift 0 den = 0 := by simp [roundShift]
  simp [roundNearest, hs]

/-! The integer root. -/

/-- The bits found so far and the bits to come: the root found is the largest with its bits. -/
theorem sqrtBits_spec (n i r : Nat) (h1 : r * r ≤ n) (h2 : n < (r + 2 ^ i) * (r + 2 ^ i)) :
    sqrtBits n i r * sqrtBits n i r ≤ n ∧ n < (sqrtBits n i r + 1) * (sqrtBits n i r + 1) := by
  induction i generalizing r with
  | zero => exact ⟨h1, by simpa [sqrtBits] using h2⟩
  | succ i ih =>
    simp only [sqrtBits]
    split
    · next h =>
      refine ih _ h ?_
      rw [show r + 2 ^ i + 2 ^ i = r + 2 ^ (i + 1) by rw [pow_succ]; omega]
      exact h2
    · next h => exact ih _ h1 (by omega)

/-- The integer root is the integer root, for every number a word can lead to. -/
theorem natSqrt_spec (n : Nat) (h : n < 2 ^ 430) : natSqrt n * natSqrt n ≤ n ∧ n < (natSqrt n + 1) * (natSqrt n + 1) := by
  apply sqrtBits_spec
  · simp
  · have : (0 + 2 ^ 215) * (0 + 2 ^ 215) = 2 ^ 430 := by rw [Nat.zero_add, ← pow_add]
    rw [this]; exact h

/-- Every magnitude is below `2^24` times `2^254` units. -/
theorem fUnits_lt (w : Word) : fUnits w < 2 ^ 24 * 2 ^ 254 := by
  have hm := fMag_lt w
  simp only [fUnits]
  split
  · have : fMag w % 2 ^ 23 < 2 ^ 23 := Nat.mod_lt _ (by decide)
    exact lt_trans this (by decide)
  · have h1 : fMag w / 2 ^ 23 - 1 ≤ 254 := by omega
    have h2 : 2 ^ 23 + fMag w % 2 ^ 23 < 2 ^ 24 := by omega
    calc (2 ^ 23 + fMag w % 2 ^ 23) * 2 ^ (fMag w / 2 ^ 23 - 1)
        ≤ (2 ^ 23 + fMag w % 2 ^ 23) * 2 ^ 254 := Nat.mul_le_mul_left _ (Nat.pow_le_pow_right (by decide) h1)
      _ < 2 ^ 24 * 2 ^ 254 := Nat.mul_lt_mul_of_pos_right h2 (by decide)

/-! Comparisons. -/

theorem fle_refl (w : Word) (h : isNaN w = false) : fle w w = true := by simp [fle, h]

theorem fle_trans (a b c : Word) (h : fle a b = true) (h' : fle b c = true) : fle a c = true := by
  simp only [fle, Bool.and_eq_true, decide_eq_true_eq] at *
  exact ⟨⟨h.1.1, h'.1.2⟩, by omega⟩

theorem fle_total (a b : Word) (ha : isNaN a = false) (hb : isNaN b = false) : fle a b = true ∨ flt b a = true := by
  simp only [fle, flt, ha, hb, Bool.not_false, Bool.true_and, decide_eq_true_eq]
  omega

theorem flt_fle (a b : Word) (h : flt a b = true) : fle a b = true := by
  simp only [fle, flt, Bool.and_eq_true, decide_eq_true_eq] at *
  exact ⟨h.1, by omega⟩

/-! The kept intervals. -/

theorem keepBetween_spec (lo hi w : Word) (h : fle lo hi = true) :
    fle lo (keepBetween lo hi w) = true ∧ fle (keepBetween lo hi w) hi = true := by
  have hn : isNaN lo = false ∧ isNaN hi = false := by
    simp only [fle, Bool.and_eq_true, Bool.not_eq_true', decide_eq_true_eq] at h; exact h.1
  unfold keepBetween
  split
  · split
    · exact ⟨‹_›, ‹_›⟩
    · exact ⟨h, fle_refl hi hn.2⟩
  · exact ⟨fle_refl lo hn.1, h⟩

theorem pickBetween_spec (lo hi free : Word) :
    pickBetween lo hi free = lo ∨
      (isFinite (pickBetween lo hi free) = true ∧ fle lo (pickBetween lo hi free) = true ∧
        fle (pickBetween lo hi free) hi = true) := by
  unfold pickBetween
  split
  · next hc =>
    simp only [Bool.and_eq_true] at hc
    exact .inr ⟨hc.1.1, hc.1.2, hc.2⟩
  · exact .inl rfl

end Sys2Proof.Machine
end

