-- ==== Sys2Proof/Laws/PerInstr.lean ====
section
/-! SUPPORT. Statements made for each instruction as syntax: the length of its encoding (R72, R83) and that its op and its
fields stand where R71 puts them. -/

namespace Sys2Proof.Laws.EncodeLength

/-- The low 22 bits of every command word are zero (R71). -/
theorem zeroOf_commandWord (op : BitVec 4) (band sel : BitVec 3) : zeroOf (commandWord op band sel) = 0#22 := by
  simp only [zeroOf, commandWord]
  ext i hi
  rw [BitVec.getElem_extractLsb', Nat.zero_add]
  exact (BitVec.getLsbD_append (x := op ++ band ++ sel) (y := 0#22) (i := i)).trans (by simp [hi])

/-- A command is encoded in as many words as its command word's `op` says (R72); a shape operation is its 3-bit tag (R83). -/
def Statement (i : Instr) : Prop :=
  match encode i with
  | .words ws => i.isCommand = true ∧ ws.length = opLength (ws.headD 0#32) ∧ zeroOf (ws.headD 0#32) = 0#22
  | .tag t => i.isCommand = false ∧ decodeTag t = .ok i

theorem prepare (fs maxBlock nch : Word) : Statement (.prepare fs maxBlock nch) :=
  ⟨rfl, (by decide : 4 = opLength (commandWord 1#4 0#3 0#3)), zeroOf_commandWord _ _ _⟩
theorem process (frameCount : Word) : Statement (.process frameCount) :=
  ⟨rfl, (by decide : 2 = opLength (commandWord 2#4 0#3 0#3)), zeroOf_commandWord _ _ _⟩
theorem wrparam (band : Band) (field : Field) (data : Word) : Statement (.wrparam band field data) := by
  refine ⟨rfl, (?_ : 2 = opLength (commandWord 3#4 band.bits field.sel)), zeroOf_commandWord _ _ _⟩
  cases band <;> cases field <;> decide
theorem rdparam (band : Band) (field : Field) : Statement (.rdparam band field) := by
  cases band <;> cases field <;> exact ⟨rfl, by decide, zeroOf_commandWord _ _ _⟩
theorem rdcoef (band : Band) (member : Member) : Statement (.rdcoef band member) := by
  cases band <;> cases member <;> exact ⟨rfl, by decide, zeroOf_commandWord _ _ _⟩
theorem rdstat (sel : StatSel) : Statement (.rdstat sel) := by cases sel <;> exact ⟨rfl, by decide, zeroOf_commandWord _ _ _⟩
theorem coefLS : Statement .coefLS := ⟨rfl, rfl⟩
theorem coefHS : Statement .coefHS := ⟨rfl, rfl⟩
theorem coefPK : Statement .coefPK := ⟨rfl, rfl⟩
theorem coefHP : Statement .coefHP := ⟨rfl, rfl⟩
theorem coefLP : Statement .coefLP := ⟨rfl, rfl⟩

end Sys2Proof.Laws.EncodeLength
end

