-- ==== Sys2Proof/Tests/Slice0.lean ====
section
/-! SUPPORT. Tests on fixed values, each taken from spec/95_test_vectors.md or worked by hand from a rule, and a witness
for the hypotheses of every statement that has some. -/

namespace Sys2Proof.Tests

open Sys2Proof Sys2Proof.Machine Sys2Proof.Claims

/-! Helpers. -/

/-- The next state, or the reset state where there is none. -/
def nextOf : Host.Outcome State Fault Refusal → State
  | .next t => t
  | .fault _ => State.reset
  | .refused _ => State.reset

/-- Whether there is a next state. -/
def isNext : Host.Outcome State Fault Refusal → Bool
  | .next _ => true
  | .fault _ => false
  | .refused _ => false

/-- Reset with words waiting on the CMD port, whose turn it is. -/
def onCmd (ws : List Word) : State := { State.reset with cmdIn := ws, turns := [.rt] }

/-- Reset with words waiting on the CTL port, whose turn it is. -/
def onCtl (ws : List Word) : State := { State.reset with ctlIn := ws, turns := [.ctl] }

/-- A Prepared state: 44100.0, one frame, two channels. -/
def ready : State := { State.reset with cfg := ⟨0x472C4400#32, 1#32, 2#32⟩, st := ⟨true, true, true⟩ }

/-- Reset with operands in the factory. -/
def withOperands (cw alpha gain : Word) : State := { State.reset with factory := ⟨cw, alpha, gain, zeroCoefs⟩ }

/-! WellFormed refuses an ill-formed term for each check it makes (R82 (g), R22). -/

theorem test_wellFormed_refuses_hp_gain : (Instr.wrparam .hp .gain 0#32).wellFormed = false := by decide
theorem test_wellFormed_refuses_lp_q : (Instr.wrparam .lp .q 0#32).wellFormed = false := by decide
theorem test_wellFormed_refuses_read_of_hp_q : (Instr.rdparam .hp .q).wellFormed = false := by decide
theorem test_wellFormed_accepts_lp_bypass : (Instr.rdparam .lp .bypass).wellFormed = true := by decide
theorem test_ctl_port_refuses_rdstat : Instr.legalOn .ctl (.rdstat .st) = false := by decide

/-! Decoding: words written out from R71, R73 and R75 (op 31:28, band 27:25, sel 24:22, zeros 21:0). -/

theorem test_decode_prepare :
    decode .cmd 0b0001_000_000_0000000000000000000000#32 0x473B8000#32 8#32 2#32 = .ok (.prepare 0x473B8000#32 8#32 2#32) := by
  decide
theorem test_decode_process :
    decode .cmd 0b0010_000_000_0000000000000000000000#32 4#32 0#32 0#32 = .ok (.process 4#32) := by decide
theorem test_decode_wrparam_p2_q :
    decode .ctl 0b0011_011_010_0000000000000000000000#32 7#32 0#32 0#32 = .ok (.wrparam .p2 .q 7#32) := by decide
theorem test_decode_rdparam_hs_gain :
    decode .ctl 0b0100_100_001_0000000000000000000000#32 0#32 0#32 0#32 = .ok (.rdparam .hs .gain) := by decide
theorem test_decode_rdcoef_lp_a2 :
    decode .cmd 0b0101_101_100_0000000000000000000000#32 0#32 0#32 0#32 = .ok (.rdcoef .lp .a2) := by decide
theorem test_decode_rdstat_maxBlock :
    decode .cmd 0b0110_000_010_0000000000000000000000#32 0#32 0#32 0#32 = .ok (.rdstat .maxBlock) := by decide
theorem test_decode_shape_tags :
    [0#3, 1#3, 2#3, 3#3, 4#3].map decodeTag = [.ok .coefLS, .ok .coefHS, .ok .coefPK, .ok .coefHP, .ok .coefLP] := by decide
theorem test_decode_reserved_tags : [5#3, 6#3, 7#3].map decodeTag = [.error .reservedTag, .error .reservedTag, .error .reservedTag] := by
  decide

/-- The illegal words of 95_test_vectors.md section 2.1, by the clause the table names (0xFFFFFFFF falls under
clauses (a), (c) and (d); the decoder names (c)). -/
theorem test_decode_illegal_words :
    [(Port.cmd, 0x00000000#32), (.cmd, 0xFFFFFFFF#32), (.cmd, 0x70000000#32), (.ctl, 0x10000000#32), (.ctl, 0x52000000#32),
      (.cmd, 0x32400001#32), (.cmd, 0x3C000000#32), (.cmd, 0x4E000000#32), (.cmd, 0x12000000#32), (.cmd, 0x62000000#32),
      (.cmd, 0x20400000#32), (.cmd, 0x30400000#32), (.cmd, 0x3A800000#32), (.cmd, 0x40800000#32), (.cmd, 0x33000000#32),
      (.cmd, 0x51400000#32), (.cmd, 0x61000000#32)].map (fun pw => decode pw.1 pw.2 0#32 0#32 0#32) =
    [.error .reservedOp, .error .reservedBits, .error .reservedOp, .error .notOnThisPort, .error .notOnThisPort,
      .error .reservedBits, .error .reservedBand, .error .reservedBand, .error .bandNotZero, .error .bandNotZero,
      .error .selNotZero, .error .noSuchParam, .error .noSuchParam, .error .noSuchParam, .error .noSuchParam,
      .error .noSuchMember, .error .noSuchStatus] := by decide

/-- Rows of spec/opcode_table.json as the host numbers their bits. -/
theorem test_table_words :
    decodeTableWord 64 0x40C0000032400000 = some (.wrparam .ls .gain 0x40C00000#32) ∧
      decodeTableWord 32 0x60C00000 = some (.rdstat .nch) ∧ decodeTableWord 8 3 = some .coefHP ∧
      decodeTableWord 32 0x70000000 = none := by decide

/-! Binary32: results worked by hand from R7. -/

/-- 0.1 + 0.2 = 0.3 (nearest to the exact sum of the two words), 1/3, 2^-149 halved ties to zero, max + max overflows. -/
theorem test_float_rounding :
    fadd 0x3DCCCCCD#32 0x3E4CCCCD#32 = 0x3E99999A#32 ∧ fdiv 0x3F800000#32 0x40400000#32 = 0x3EAAAAAB#32 ∧
      fdiv 0x00000001#32 0x40000000#32 = 0x00000000#32 ∧ fadd 0x7F7FFFFF#32 0x7F7FFFFF#32 = 0x7F800000#32 := by decide +kernel

/-- √2 is 0x3FB504F3; 0.49 × 44100 is 21609 (section 2.3); -0 + -0 is -0; 1 - 1 is +0. -/
theorem test_float_values :
    fsqrt 0x40000000#32 = 0x3FB504F3#32 ∧ fmul 0x3EFAE148#32 0x472C4400#32 = 0x46A8D200#32 ∧
      fadd 0x80000000#32 0x80000000#32 = 0x80000000#32 ∧ fsub 0x3F800000#32 0x3F800000#32 = 0x00000000#32 := by decide +kernel

/-! Section 2.3: CLAMP, FSGUARD, EFFFREQ. -/

theorem test_clamp :
    [0x00000000#32, 0xC0A00000#32, 0x419FFDF4#32, 0x41A00000#32, 0x43C80000#32, 0x447A0000#32, 0x7FC00000#32, 0xFF800000#32,
      0x7F800000#32].map (clamp · 0x41A00000#32 0x43C80000#32) =
    [0x41A00000#32, 0x41A00000#32, 0x41A00000#32, 0x41A00000#32, 0x43C80000#32, 0x43C80000#32, 0x41A00000#32, 0x41A00000#32,
      0x43C80000#32] := by decide +kernel

theorem test_fsguard :
    [0x473B8000#32, 0x00000001#32, 0x00000000#32, 0x80000000#32, 0xBF800000#32, 0x7F800000#32, 0x7FC00000#32].map fsguard =
    [0x473B8000#32, 0x00000001#32, 0x472C4400#32, 0x472C4400#32, 0x472C4400#32, 0x472C4400#32, 0x472C4400#32] := by
  decide +kernel

theorem test_efffreq :
    [efffreq .lp 0x472C4400#32 0x472C4400#32, efffreq .lp 0x42C80000#32 0x472C4400#32, efffreq .lp 0x457A0000#32 0x45FA0000#32,
      efffreq .lp 0x457A0000#32 0x45FF2000#32, efffreq .hp 0x00000000#32 0x472C4400#32, efffreq .hp 0x42F00000#32 0x472C4400#32,
      efffreq .ls 0x40A00000#32 0x472C4400#32, efffreq .hs 0x469C4000#32 0x46AC4400#32] =
    [0x469C4000#32, 0x457A0000#32, 0x45750000#32, 0x457A0000#32, 0x41A00000#32, 0x42F00000#32, 0x41A00000#32, 0x469C4000#32] := by
  decide +kernel

/-- The (REF) results of section 2.4 and 2.3 lie inside the bounds of R8: sin and cos of V1's `w0`, `10^0.3`. -/
theorem test_elementary_bounds :
    fle (sinBounds 0x3D060A92#32).1 0x3D060472#32 = true ∧ fle 0x3D060472#32 (sinBounds 0x3D060A92#32).2 = true ∧
      fle (cosBounds 0x3D060A92#32).1 0x3F7FDCE9#32 = true ∧ fle 0x3F7FDCE9#32 (cosBounds 0x3D060A92#32).2 = true ∧
      fle (exp10Bounds 0x3E99999A#32).1 0x3FFF64C2#32 = true ∧ fle 0x3FFF64C2#32 (exp10Bounds 0x3E99999A#32).2 = true := by
  decide +kernel

/-- P4 as faithful rounding: the sine of the smallest words lies between the word and the next one inward (|sin x| < |x|),
and the powers of ten from 10^1 to 10^10, which are binary32 values, are the one result (10.0 is 0x41200000, 10^5 is
0x47C35000, 10^10 is 0x501502F9). -/
theorem test_elementary_bounds_are_faithful :
    sinBounds 0x00000001#32 = (0x00000000#32, 0x00000001#32) ∧ sinBounds 0x80800000#32 = (0x80800000#32, 0x807FFFFF#32) ∧
      exp10Bounds 0x3F800000#32 = (0x41200000#32, 0x41200000#32) ∧ exp10Bounds 0x40A00000#32 = (0x47C35000#32, 0x47C35000#32) ∧
      exp10Bounds 0x41200000#32 = (0x501502F9#32, 0x501502F9#32) := by decide +kernel

/-! Section 2.4: the vectors V1 to V5 and V6, from their operands. -/

theorem test_v1_low_shelf :
    (nextOf (exec .coefLS (withOperands 0x3F7FDCE9#32 0x3CBD8778#32 0x3FFF64C2#32))).factory.result =
      ⟨0x3F810834#32, 0xBFFAF804#32, 0x3F7440DC#32, 0xBFFB0424#32, 0x3F763907#32⟩ := by decide +kernel
theorem test_v2_high_shelf :
    (nextOf (exec .coefHS (withOperands 0x3ED5E5F3#32 0x3F247734#32 0x3F004DCE#32))).factory.result =
      ⟨0x3F260ABD#32, 0xBE51EB1D#32, 0x3DFB6FF4#32, 0xBF30DCF6#32, 0x3E83B5D2#32⟩ := by decide +kernel
theorem test_v3_peak :
    (nextOf (exec .coefPK (withOperands 0x3F7DCF55#32 0x3D85A8A9#32 0x3FFF64C2#32))).factory.result =
      ⟨0x3F85A041#32, 0xBFF299DE#32, 0x3F5E230C#32, 0xBFF299DE#32, 0x3F69638E#32⟩ := by decide +kernel
theorem test_v4_high_pass :
    (nextOf (exec .coefHP (withOperands 0x3F7FFFC7#32 0x3A72A3F1#32 0x00000000#32))).factory.result =
      ⟨0x3F7FC34A#32, 0xBFFFC34A#32, 0x3F7FC34A#32, 0xBFFFC32D#32, 0x3F7F86CC#32⟩ := by decide +kernel
theorem test_v5_low_pass :
    (nextOf (exec .coefLP (withOperands 0xBF752872#32 0x3DD07DB4#32 0x3F800000#32))).factory.result =
      ⟨0x3F636D2D#32, 0x3FE36D2D#32, 0x3F636D2D#32, 0x3FDE81A0#32, 0x3F50B175#32⟩ := by decide +kernel

/-! Section 2.5: B1 and B3. -/

theorem test_b1_exact :
    bqList arith32 ⟨0x3F000000#32, 0x3E800000#32, 0x3E000000#32, 0xBF000000#32, 0x3E800000#32⟩ zeroDelay
        [0x3F800000#32, 0#32, 0#32] =
      ([0x3F000000#32, 0x3F000000#32, 0x3E800000#32], ⟨0x00000000#32, 0xBD800000#32⟩) := by decide +kernel

theorem test_b3_identity :
    bqList arith32 ⟨0x3F800000#32, 0xBFF42904#32, 0x3F695E41#32, 0xBFF42904#32, 0x3F695E41#32⟩ zeroDelay
        [0x3F000000#32, 0x80000000#32] =
      ([0x3F000000#32, 0x00000000#32], ⟨0x00000000#32, 0x80000000#32⟩) := by decide +kernel

/-! Section 2.2: parameter access. -/

theorem test_rdparam_ls_q : (nextOf (step (onCmd [0x42800000#32]))).cmdOut = [0x00000000#32, 0x3F3504F3#32] := by decide
theorem test_wrparam_bypass_holds_one_bit :
    getParam (nextOf (step (onCtl [0x32C00000#32, 0x80000000#32]))).params .lsBypass = 1#32 ∧
      (nextOf (step (onCtl [0x32C00000#32, 0x80000000#32]))).ctlOut = [0#32] := by decide
theorem test_wrparam_stores_a_nan :
    getParam (nextOf (step (onCmd [0x34800000#32, 0x7FC00000#32]))).params .p1Q = 0x7FC00000#32 := by decide
theorem test_rdcoef_not_ready :
    (nextOf (step (onCmd [0x52000000#32]))).cmdOut = [1#32] ∧ (nextOf (step (onCmd [0x52000000#32]))).st.err = true := by decide
theorem test_rdcoef_reads_the_member :
    (nextOf (exec (.rdcoef .hp .a1) { ready with coef := State.reset.coef.set 0 ⟨1#32, 2#32, 3#32, 4#32, 5#32⟩ })).cmdOut =
      [0#32, 4#32] := by decide
theorem test_rdstat_st : (nextOf (step (onCmd [0x60000000#32]))).cmdOut = [0#32, 0#32] ∧
    (nextOf (exec (.rdstat .st) ready)).cmdOut = [0#32, 7#32] := by decide

/-! PREPARE and PROCESS. -/

/-- E1: PREPARE of a rate of 0.0 takes 44100.0 and says so (program P2); one frame fits every `MAXBLK_HW`. -/
theorem test_prepare_substitutes_the_rate :
    ∃ t, exec (.prepare 0#32 1#32 2#32) State.reset = .next t ∧ t.cfg = ⟨0x472C4400#32, 1#32, 2#32⟩ ∧
      statusWord t.st = 3#32 ∧ t.cmdOut = [0#32] := by
  have hc : prepareCheck 1#32 2#32 = none := by
    have := maxBlkHw_pos
    rw [prepareCheck, if_neg (by decide), if_neg (by simp; omega)]
  refine ⟨prepare 0#32 1#32 2#32 State.reset, rfl, ?_⟩
  obtain ⟨h, -, -⟩ := prepareEffect_spec 0#32 1#32 2#32 (samplingPhase State.reset)
  simp only [prepare, hc]
  rw [respond_cfg, respond_st, respond_cmdOut _ _ (by rw [h]; simp; rfl), h]
  simp only [samplingPhase_st, samplingPhase_cmdOut]
  decide +kernel

theorem test_prepare_of_one_channel_is_rejected :
    (nextOf (exec (.prepare 0x473B8000#32 0#32 1#32) State.reset)).cmdOut = [2#32] := by decide

/-- E3, R177: with all six bands bypassed the words of BUF come back bit for bit. -/
theorem test_process_all_bypassed :
    (nextOf (exec (.process 1#32)
      { ready with
        params := setParam (setParam (setParam (setParam ready.params .lsBypass 1#32) .p1Bypass 1#32) .p2Bypass 1#32) .hsBypass 1#32
        buf := bufWrite [] 0 0x7FC00000#32 })).buf = bufWrite [] 0 0x7FC00000#32 := by decide

theorem test_process_of_too_many_frames : (nextOf (exec (.process 2#32) ready)).cmdOut = [3#32] := by decide

/-- R56: a WRPARAM of the CTL port between the reads of LS_FREQ and LS_GAIN is seen by the second only. -/
theorem test_sampling_with_a_write_between :
    (let s := { onCtl [0x32000000#32, 5#32, 0x32400000#32, 6#32] with
        sampling := [[.read .lsFreq, .ctl, .ctl, .read .lsGain]] }
     (getParam (samplingPhase s).psnap .lsFreq, getParam (samplingPhase s).psnap .lsGain)) = (0x437A0000#32, 6#32) := by decide

/-! The step, the memory port, the text form. -/

theorem test_placed_word_runs_next :
    step (State.reset.withFetchWord 64 0x0000000730400000) =
      .next (raise .illegal (consume .cmd 2 [0#32, 0#32] (dropTurn (State.reset.withFetchWord 64 0x0000000730400000)))) := by rfl

/-- R58 (d): the RT agent writes a sample and then issues PROCESS, and both wait: the write is served first. -/
theorem test_memory_port_write_before_process (hb : 0 < bufWords) :
    (let s := { onCmd [0x20000000#32, 1#32] with memIn := [⟨0, .write 0 0x3F800000#32⟩] }
     bufRead (nextOf (step s)).buf 0 = 0x3F800000#32 ∧ (nextOf (step s)).cmdIn = [0x20000000#32, 1#32]) := by
  have h : step { onCmd [0x20000000#32, 1#32] with memIn := [⟨0, .write 0 0x3F800000#32⟩] } =
      .next { onCmd [0x20000000#32, 1#32] with turns := [], buf := bufWrite [] 0 0x3F800000#32 } := by
    have ht : nextTurn { onCmd [0x20000000#32, 1#32] with memIn := [⟨0, .write 0 0x3F800000#32⟩] } = .mem := by decide
    simp only [step, ht, serveMem, dropTurn, hb, if_true]
    rfl
  simp only [h, nextOf]
  exact ⟨bufRead_bufWrite_same _ _ _, rfl⟩

/-- R52: an access issued after the PROCESS waits for its response. -/
theorem test_memory_port_read_after_process :
    nextTurn { onCmd [0x20000000#32, 1#32] with memIn := [⟨2, .read 0⟩] } = .cmd ∧
      nextTurn { onCmd [0x20000000#32] with memIn := [⟨2, .read 0⟩] } = .cmd := by decide

theorem test_assemble_wrparam :
    assembleLine "CTL: WRPARAM LS_GAIN, 6.0 ; six dB".toList = some (.ctl, [.wrparam .ls .gain 0x40C00000#32]) := by decide +kernel
theorem test_assemble_prepare :
    assembleLine "PREPARE 48000.0, 8, 2".toList = some (.cmd, [.prepare 0x473B8000#32 8#32 2#32]) := by decide +kernel

/-! Witnesses: for every statement with hypotheses, a state and operands that meet all of them together. -/

/-- A state that meets the invariant, in which every clause of it says something. -/
theorem ready_inv : ready.Inv := by
  have h := maxBlkHw_pos
  refine ⟨rfl, fun c hc => ?_, fun b => ?_, fun _ => by decide, fun _ => ?_, fun _ => by decide, fun _ => by decide⟩
  · simp [ready, State.reset] at hc
  · cases b <;> decide
  · exact ⟨by decide, by simpa [ready] using h⟩

theorem witness_DecodingAnEncodedInstructionGivesItBack :
    (Instr.wrparam .lp .bypass 5#32).wellFormed = true ∧ (Instr.wrparam .lp .bypass 5#32).legalOn .ctl = true ∧
      (Instr.prepare 1#32 2#32 3#32).legalOn .cmd = true ∧ Instr.coefLP.wellFormed = true ∧ Instr.coefLP.isCommand = false := by
  decide

theorem witness_LegalCommandHasOneEncoding : decode .cmd 0x53000000#32 0#32 0#32 0#32 = .ok (.rdcoef .ls .a2) := by decide

theorem witness_DecodedCommandIsWellFormedAndLegal : decode .ctl 0x3AC00000#32 1#32 0#32 0#32 = .ok (.wrparam .lp .bypass 1#32) := by
  decide

/-- One illegal word for each port; the CTL word is legal on the other port. -/
theorem witness_IllegalWordsAreRefusedWithoutEffect :
    (nextTurn (onCmd [0x32400001#32, 0#32]) = .cmd ∧ wordLength 0x32400001#32 ≤ [0#32].length + 1 ∧
      IllegalWord .cmd 0x32400001#32) ∧
    (nextTurn (onCtl [0x52000000#32]) = .ctl ∧ wordLength 0x52000000#32 ≤ ([] : List Word).length + 1 ∧
      IllegalWord .ctl 0x52000000#32) := by
  refine ⟨⟨by decide, by decide, .inr (.inr (.inl (by decide)))⟩, by decide, by decide, .inr (.inl (by decide))⟩

theorem witness_StepRunsTheDecodedCommand :
    nextTurn (onCtl [0x32400000#32, 6#32, 9#32]) = turnOf .ctl ∧
      fetch .ctl (waiting .ctl (onCtl [0x32400000#32, 6#32, 9#32])) = .command (.wrparam .ls .gain 6#32) 2 [9#32] := by decide

/-- The last tag that runs and the first that is reserved. -/
theorem witness_StepRunsAnInternalOperation :
    nextTurn { State.reset with turns := [.internal 4#3] } = .internal 4#3 ∧ decodeTag 4#3 = .ok .coefLP ∧
      nextTurn { State.reset with turns := [.internal 5#3] } = .internal 5#3 ∧ 5 ≤ (5#3).toNat := by decide

/-- Nothing waits, and one word less than a PREPARE has waits. -/
theorem witness_CommandWaitsForAllItsWords :
    (nextTurn (onCtl []) = turnOf .ctl ∧ waiting .ctl (onCtl []) = []) ∧
      (nextTurn (onCmd [0x10000000#32, 1#32, 2#32]) = turnOf .cmd ∧
        waiting .cmd (onCmd [0x10000000#32, 1#32, 2#32]) = 0x10000000#32 :: [1#32, 2#32] ∧
        [1#32, 2#32].length + 1 < wordLength 0x10000000#32) := by decide

/-- A whole PREPARE on the CMD port; a legal and an illegal command on the CTL port. -/
theorem witness_EveryCommandMovesTheStreamByItsLength :
    (nextTurn (onCmd [0x10000000#32, 1#32, 2#32, 3#32]) = turnOf .cmd ∧
      waiting .cmd (onCmd [0x10000000#32, 1#32, 2#32, 3#32]) = 0x10000000#32 :: [1#32, 2#32, 3#32] ∧
      wordLength 0x10000000#32 ≤ [1#32, 2#32, 3#32].length + 1) ∧
    (nextTurn (onCtl [0x32400000#32, 6#32]) = turnOf .ctl ∧
      waiting .ctl (onCtl [0x32400000#32, 6#32]) = 0x32400000#32 :: [6#32] ∧ wordLength 0x32400000#32 ≤ [6#32].length + 1) ∧
    nextTurn (onCtl [0x60000000#32]) = turnOf .ctl ∧ wordLength 0x60000000#32 ≤ ([] : List Word).length + 1 := by decide

/-- The first address outside BUF, and the first reserved tag. -/
theorem witness_OnlyMemoryPortAndReservedTagsStop :
    (∃ s, step s = .fault .noSuchBufWord ∧ s.memIn.head? = some ⟨0, .read bufWords⟩) ∧
      ∃ s, step s = .refused .reservedTag ∧ nextTurn s = .internal 5#3 := by
  refine ⟨⟨{ State.reset with turns := [.rt], memIn := [⟨0, .read bufWords⟩] }, ?_, rfl⟩,
    ⟨{ State.reset with turns := [.internal 5#3] }, rfl, rfl⟩⟩
  have ht : nextTurn { State.reset with turns := [.rt], memIn := [⟨0, .read bufWords⟩] } = .mem := rfl
  simp [step, ht, serveMem, dropTurn]

/-- The first and the last address of BUF, for a read and for a write; the last access before a PROCESS is whole and the
first one after it. -/
theorem witness_MemoryPortReadsAndWritesOneWord :
    (0 < bufWords ∧ bufWords - 1 < bufWords) ∧
      (∃ s : State, nextTurn s = .mem ∧ s.memIn = ⟨0, .read 0⟩ :: []) ∧
      (∃ s : State, nextTurn s = .mem ∧ s.memIn = ⟨0, .write (bufWords - 1) 7#32⟩ :: []) ∧
      (∃ s : State, s.memIn = ⟨1, .read 0⟩ :: [] ∧ s.cmdIn = 0x20000000#32 :: [1#32] ∧ s.turns.head? = some .rt ∧
        1 < s.cmdPtr + wordLength 0x20000000#32) ∧
      ∃ s : State, s.memIn = ⟨2, .read 0⟩ :: [] ∧ s.cmdIn = 0x20000000#32 :: [1#32] ∧ s.turns.head? = some .rt ∧
        s.cmdPtr + wordLength 0x20000000#32 ≤ 2 := by
  have h : 0 < bufWords := Nat.mul_pos (by decide) maxBlkHw_pos
  exact ⟨⟨h, by omega⟩, ⟨{ State.reset with turns := [.rt], memIn := [⟨0, .read 0⟩] }, rfl, rfl⟩,
    ⟨{ State.reset with turns := [.rt], memIn := [⟨0, .write (bufWords - 1) 7#32⟩] }, rfl, rfl⟩,
    ⟨{ onCmd [0x20000000#32, 1#32] with memIn := [⟨1, .read 0⟩] }, rfl, rfl, rfl, by decide⟩,
    ⟨{ onCmd [0x20000000#32, 1#32] with memIn := [⟨2, .read 0⟩] }, rfl, rfl, rfl, by decide⟩⟩

theorem witness_EveryStepKeepsTheInvariant : ∃ t, ready.Inv ∧ step ready = .next t := ⟨dropTurn ready, ready_inv, rfl⟩

theorem witness_PreparedAndErrAreNeverCleared : ∃ t, step ready = .next t ∧ ready.st.prepared = true ∧ ready.st.err = true :=
  ⟨dropTurn ready, rfl, rfl, rfl⟩

theorem witness_ErrNeverInfluencesACommand : ∃ t, Instr.process 1#32 ≠ .rdstat .st ∧ exec (.process 1#32) ready = .next t :=
  ⟨process 1#32 ready, by decide, rfl⟩

theorem witness_OnlyPrepareWritesTheConfiguration :
    ∃ t, (∀ fs mb n, Instr.process 1#32 ≠ .prepare fs mb n) ∧ exec (.process 1#32) ready = .next t :=
  ⟨process 1#32 ready, by intros; simp, rfl⟩

theorem witness_EngineNeverWritesAParameter :
    ∃ t, (∀ b f d, Instr.process 1#32 ≠ .wrparam b f d) ∧ QuietSampling ready ∧ exec (.process 1#32) ready = .next t :=
  ⟨process 1#32 ready, by intros; simp, by simp [QuietSampling, ready, State.reset], rfl⟩

theorem witness_CtlPortReachesParametersOnly :
    ∃ t, nextTurn (onCtl [0x32400000#32, 6#32]) = .ctl ∧ step (onCtl [0x32400000#32, 6#32]) = .next t :=
  ⟨wrparam .ls .gain 6#32 (consume .ctl 2 [] (dropTurn (onCtl [0x32400000#32, 6#32]))), rfl, rfl⟩

/-- PROCESS while Unprepared. -/
theorem witness_RefusedCommandHasNoPartialEffect :
    ∃ t, State.reset.port = .cmd ∧ (Instr.process 4#32).isCommand = true ∧ exec (.process 4#32) State.reset = .next t ∧
      t.cmdOut = State.reset.cmdOut ++ [1#32] ∧ 1#32 ≠ 0#32 :=
  ⟨process 4#32 State.reset, rfl, rfl, rfl, by decide, by decide⟩

/-- One command of each port. -/
theorem witness_EveryCommandIsAnsweredOnce :
    (Instr.rdstat .st).legalOn State.reset.port = true ∧
      (Instr.rdparam .ls .q).legalOn ({ State.reset with port := Port.ctl } : State).port = true := by decide

/-- The first and the last register, a word that sets a bypass bit and one that clears it. -/
theorem witness_WrparamStoresTheWord :
    regOf .hp .freq = some .hpFreq ∧ regOf .lp .bypass = some .lpBypass ∧ Reg.hpFreq ≠ .lpBypass ∧ 0x80000000#32 ≠ 0#32 := by
  decide

theorem witness_RdparamAnswersTheStoredWord : regOf .lp .freq = some .lpFreq := rfl

theorem witness_RdcoefAnswersTheActiveCoefficient :
    (ready.port = .cmd ∧ ready.st.prepared = true) ∧ State.reset.port = .cmd ∧ State.reset.st.prepared = false := by decide

theorem witness_RdstatAnswersStatusAndConfiguration :
    (ready.port = .cmd ∧ ready.st.prepared = true) ∧ State.reset.port = .cmd ∧ State.reset.st.prepared = false ∧
      StatSel.fs ≠ .st := by decide

theorem witness_SaveThenLoadRestoresAllParameters : ready.Inv ∧ ready.port = .cmd := ⟨ready_inv, rfl⟩

/-- A number of `MAXBLK_HW`'s range as a word. -/
theorem toNat_of_le (k : Nat) (h : k ≤ Config.maxBlkHw + 1) : (BitVec.ofNat 32 k).toNat = k := by
  have := Nat.mod_lt (8191 + Config.maxBlkFree) (show 0 < 2 ^ 31 by decide)
  unfold Config.maxBlkHw at h
  rw [BitVec.toNat_ofNat]
  omega

/-- The smallest and the largest block size that is accepted. -/
theorem witness_AcceptedPrepareConfiguresAndRestarts :
    State.reset.port = .cmd ∧ (2#32).toNat ∈ Config.allowedCh ∧ (1 ≤ (1#32).toNat ∧ (1#32).toNat ≤ Config.maxBlkHw) ∧
      1 ≤ (BitVec.ofNat 32 Config.maxBlkHw).toNat ∧ (BitVec.ofNat 32 Config.maxBlkHw).toNat ≤ Config.maxBlkHw := by
  have h := maxBlkHw_pos
  rw [toNat_of_le _ (Nat.le_succ _)]
  exact ⟨rfl, by decide, ⟨by decide, by simpa using h⟩, h, Nat.le_refl _⟩

/-- A wrong channel count; block size 0; the smallest block size too large. -/
theorem witness_RejectedPrepareChangesNothing :
    State.reset.port = .cmd ∧ (1#32 ≠ 2#32 ∧ 3#32 ≠ 2#32) ∧
      Config.maxBlkHw < (BitVec.ofNat 32 (Config.maxBlkHw + 1)).toNat := by
  rw [toNat_of_le _ (Nat.le_refl _)]
  exact ⟨rfl, by decide, Nat.lt_succ_self _⟩

/-- Unprepared; Prepared with one frame too many; Prepared with the largest block that fits. -/
theorem witness_RefusedProcessChangesNothing :
    (State.reset.port = .cmd ∧ State.reset.st.prepared = false) ∧ ready.port = .cmd ∧ ready.st.prepared = true ∧
      ready.cfg.maxBlock.toNat < (2#32).toNat ∧ (1#32).toNat ≤ ready.cfg.maxBlock.toNat := by decide

/-- The largest block that fits. -/
theorem witness_AcceptedProcessRecomputesEveryBand :
    ready.port = .cmd ∧ ready.st.prepared = true ∧ (1#32).toNat ≤ ready.cfg.maxBlock.toNat := by decide

/-- Both channels of the largest block that fits, and a byte of BUF outside its lanes. -/
theorem witness_AcceptedProcessFiltersEveryLane :
    (ready.port = .cmd ∧ ready.st.prepared = true ∧ (1#32).toNat ≤ ready.cfg.maxBlock.toNat) ∧
      (∀ ch : Fin Config.maxCh, ch.val < ready.cfg.nch.toNat) ∧
      (∀ (ch : Fin Config.maxCh) (k : Nat), ch.val < ready.cfg.nch.toNat → k < (1#32).toNat → 8 / 4 ≠ bufAddr ready ch k) ∧
      ∃ ch : Fin Config.maxCh, ({ ready with cfg := ⟨0#32, 1#32, 1#32⟩ } : State).cfg.nch.toNat ≤ ch.val := by
  refine ⟨by decide, by decide, fun ch k _ hk => ?_, 1, by decide⟩
  have h1 : ch.val < 2 := ch.isLt
  have h2 : k < 1 := hk
  have h3 : ready.cfg.maxBlock.toNat = 1 := by decide
  unfold bufAddr
  rw [h3]
  omega

/-- HP and LP are bypassed at reset; and a state with all six bypassed. -/
theorem witness_BypassedBandsTouchNothing :
    (ready.port = .cmd ∧ ready.st.prepared = true ∧ (1#32).toNat ≤ ready.cfg.maxBlock.toNat) ∧
      getParam (samplingPhase ready).psnap (bypassReg .hp) ≠ 0#32 ∧
      ∀ b, getParam (samplingPhase { ready with params := Vector.replicate 20 1#32 }).psnap (bypassReg b) ≠ 0#32 := by
  refine ⟨by decide, by decide, fun b => ?_⟩
  cases b <;> decide

theorem witness_ProcessOfZeroFramesOnlyRecomputes : ready.port = .cmd ∧ ready.st.prepared = true := by decide

/-- The last word of the last lane. -/
theorem witness_ProcessStaysInsideTheBuffer :
    ready.Inv ∧ ready.st.prepared = true ∧ 1 ≤ ready.cfg.maxBlock.toNat ∧ 1 < ready.cfg.nch.toNat ∧ 0 < 1 :=
  ⟨ready_inv, by decide, by decide, by decide, by decide⟩

/-- Two states that differ in the other channel's pairs. -/
theorem witness_ChannelsAreIndependent :
    ∃ s s' t t' : State, s ≠ s' ∧ s.st = s'.st ∧ s.cfg = s'.cfg ∧ s.params = s'.params ∧ s.ctlIn = s'.ctlIn ∧
      s.sampling = s'.sampling ∧ (0 : Fin Config.maxCh).val < s.cfg.nch.toNat ∧
      lane s 0 (1#32).toNat = lane s' 0 (1#32).toNat ∧ (∀ b, getDelay s b 0 = getDelay s' b 0) ∧
      exec (.process 1#32) s = .next t ∧ exec (.process 1#32) s' = .next t' := by
  refine ⟨ready, setDelay ready .ls 1 ⟨1#32, 2#32⟩, process 1#32 ready, process 1#32 (setDelay ready .ls 1 ⟨1#32, 2#32⟩),
    by decide, rfl, rfl, rfl, rfl, rfl, by decide, rfl, fun b => ?_, rfl, rfl⟩
  cases b <;> decide

/-- A Prepared state of two frames, with the words 7 and 8 at frame 1 of the two lanes. -/
def readyTwo : State := { ready with cfg := ⟨0x472C4400#32, 2#32, 2#32⟩, buf := bufWrite (bufWrite [] 1 7#32) 3 8#32 }

/-- What a block of one frame leaves, with the words 7 and 8 refilled to frame 0 of the two lanes. -/
def refilled : State :=
  { readyTwo with
    st := (process 1#32 readyTwo).st
    cfg := (process 1#32 readyTwo).cfg
    params := (process 1#32 readyTwo).params
    delay := (process 1#32 readyTwo).delay
    buf := bufWrite (bufWrite [] 0 7#32) 2 8#32 }

theorem refilled_cfg : refilled.cfg = readyTwo.cfg := by
  obtain ⟨c1, -⟩ := recomputeAll_eq (samplingPhase readyTwo)
  have h1 : (recomputeAll (samplingPhase readyTwo)).cfg = readyTwo.cfg := by rw [c1, samplingPhase_cfg]
  obtain ⟨q1, -, -⟩ := runBandsFold_spec (1#32).toNat allBands (recomputeAll (samplingPhase readyTwo)) (by rw [h1]; decide)
  rw [refilled]
  show (process 1#32 readyTwo).cfg = readyTwo.cfg
  rw [process, if_neg (by decide), if_neg (by decide), respond_cfg, runBands, q1, h1]

/-- The refilled lanes are the other frames of the lanes as they were. -/
theorem refilled_lanes (ch : Fin Config.maxCh) (k : Nat) (hk : k < (1#32).toNat) :
    bufRead refilled.buf (bufAddr refilled ch k) = bufRead readyTwo.buf (bufAddr readyTwo ch ((1#32).toNat + k)) := by
  have two : ∀ m : Memory, ∀ a b : Nat, a ≠ b →
      bufRead (bufWrite (bufWrite m a 7#32) b 8#32) a = 7#32 ∧ bufRead (bufWrite (bufWrite m a 7#32) b 8#32) b = 8#32 := by
    intro m a b h
    rw [bufRead_bufWrite_ne _ _ _ _ h.symm, bufRead_bufWrite_same, bufRead_bufWrite_same]
    exact ⟨rfl, rfl⟩
  have hc : ch = 0 ∨ ch = 1 := by revert ch; decide
  have hm : readyTwo.cfg.maxBlock.toNat = 2 := by decide
  have h0 : k = 0 := by simpa using hk
  subst h0
  simp only [bufAddr, refilled_cfg, hm]
  rcases hc with rfl | rfl
  · exact (two [] 0 2 (by decide)).1.trans (two [] 1 3 (by decide)).1.symm
  · exact (two [] 0 2 (by decide)).2.trans (two [] 1 3 (by decide)).2.symm

/-- Two blocks of one frame against one of two. -/
theorem witness_BlocksJoinIntoOneStream :
    (readyTwo.port = .cmd ∧ readyTwo.st.prepared = true ∧ QuietSampling readyTwo ∧
      (2#32).toNat = (1#32).toNat + (1#32).toNat ∧ (2#32).toNat ≤ readyTwo.cfg.maxBlock.toNat ∧
      exec (.process 1#32) readyTwo = .next (process 1#32 readyTwo)) ∧
    refilled.port = .cmd ∧ refilled.st = (process 1#32 readyTwo).st ∧ refilled.cfg = (process 1#32 readyTwo).cfg ∧
      refilled.params = (process 1#32 readyTwo).params ∧ refilled.delay = (process 1#32 readyTwo).delay ∧
      QuietSampling refilled ∧
      ∀ (ch : Fin Config.maxCh) (k : Nat), ch.val < readyTwo.cfg.nch.toNat → k < (1#32).toNat →
        bufRead refilled.buf (bufAddr refilled ch k) = bufRead readyTwo.buf (bufAddr readyTwo ch ((1#32).toNat + k)) := by
  have hq : ∀ s : State, s.sampling = [] → QuietSampling s := by
    intro s hs
    simp [QuietSampling, hs]
  exact ⟨⟨rfl, rfl, hq _ rfl, by decide, by decide, rfl⟩, rfl, rfl, rfl, rfl, rfl, hq _ rfl, fun ch k _ hk => refilled_lanes ch k hk⟩

/-- The largest block that fits, on both channels. -/
theorem witness_FrameByFrameEqualsBandByBand :
    ready.port = .cmd ∧ ready.st.prepared = true ∧ (1#32).toNat ≤ ready.cfg.maxBlock.toNat ∧
      ∀ ch : Fin Config.maxCh, ch.val < ready.cfg.nch.toNat := by decide

theorem witness_QuietSamplingCopiesTheRegisters : QuietSampling { State.reset with sampling := [[.read .lsQ]] } := by
  simp [QuietSampling]

theorem witness_EveryCombinationOfMomentsCanBeSampled : ∀ r : Reg, (if r = Reg.lsGain then 1 else 0) ≤ 1 := by
  intro r; split <;> decide

/-- A NaN, a value below, a value above, and both ends of the range. -/
theorem witness_ClampGivesAFiniteValueInRange :
    (isFinite 0x41A00000#32 = true ∧ isFinite 0x43C80000#32 = true ∧ fle 0x41A00000#32 0x43C80000#32 = true) ∧
      isNaN 0x7FC00000#32 = true ∧ flt 0x419FFFFF#32 0x41A00000#32 = true ∧ fgt 0x43C80001#32 0x43C80000#32 = true ∧
      fle 0x41A00000#32 0x41A00000#32 = true ∧ fle 0x43C80000#32 0x43C80000#32 = true := by decide +kernel

/-- The smallest positive word; zero, which is not positive; an infinity, which is not finite. -/
theorem witness_GuardedRateIsFiniteAndPositive :
    (isFinite 1#32 = true ∧ fgt 1#32 0#32 = true) ∧ fgt 0#32 0#32 = false ∧ isFinite 0x7F800000#32 = false := by decide +kernel

/-- A rate that limits the low-pass band, and one that does not; both ends of the high-pass band's range, a NaN, and the words
just outside the range. -/
theorem witness_EffectiveFrequencyIsInRange :
    (isFinite 0x45FA0000#32 = true ∧ fgt 0x45FA0000#32 0#32 = true) ∧ Band.hp ≠ .lp ∧
      flt (fmul 0x3EFAE148#32 0x45FA0000#32) (clamp 0x469C4000#32 (freqLo .lp) (freqHi .lp)) = true ∧
      fle (clamp 0x469C4000#32 (freqLo .lp) (freqHi .lp)) (fmul 0x3EFAE148#32 0x472C4400#32) = true ∧
      (isFinite 0x472C4400#32 = true ∧ fgt 0x472C4400#32 0#32 = true) ∧
      isNaN 0x7FC00000#32 = true ∧ flt 0x419FFFFF#32 (freqLo .hp) = true ∧ fgt 0x43C80001#32 (freqHi .hp) = true ∧
      (fle (freqLo .hp) 0x41A00000#32 = true ∧ fle 0x41A00000#32 (freqHi .hp) = true) ∧
      (fle (freqLo .hp) 0x43C80000#32 = true ∧ fle 0x43C80000#32 (freqHi .hp) = true) := by decide +kernel

/-- Two snapshots that differ in every other band. -/
theorem witness_BandcoefReadsItsOwnBandOnly :
    State.reset.params ≠ setParam State.reset.params .p1Gain 5#32 ∧
      ∀ f r, f ≠ Field.bypass → regOf .ls f = some r →
        getParam State.reset.params r = getParam (setParam State.reset.params .p1Gain 5#32) r := by
  refine ⟨by decide, fun f r _ hr => ?_⟩
  rw [getParam_setParam_ne]
  intro h
  subst h
  revert hr
  cases f <;> decide

/-- Both ends of the range of `cw`, for each of the three shapes. -/
theorem witness_ZeroDecibelSetsAreIdentities :
    (isZero 0xBF800000#32 = false ∧ fle 0xBF800000#32 0xBF800000#32 = true ∧ fle 0xBF800000#32 0x3F800000#32 = true) ∧
      (isZero 0x3F800000#32 = false ∧ fle 0xBF800000#32 0x3F800000#32 = true ∧ fle 0x3F800000#32 0x3F800000#32 = true) ∧
      isFinite 0x3F000000#32 = true ∧
      (isFinite (fadd 0x3F800000#32 0x3F000000#32) = true ∧ isZero (fadd 0x3F800000#32 0x3F000000#32) = false) ∧
      isFinite (fadd 0x40000000#32 (fmul 0x40000000#32 0x3F000000#32)) = true ∧
      isZero (fadd 0x40000000#32 (fmul 0x40000000#32 0x3F000000#32)) = false := by decide +kernel

/-- The largest finite word and the smallest; a divisor that is no zero; the largest and the smallest radicand. -/
theorem witness_ArithmeticIsCorrectlyRounded :
    isFinite 0x7F7FFFFF#32 = true ∧ isFinite 0x00000001#32 = true ∧ isZero 0x00000001#32 = false ∧
      fNeg 0x7F7FFFFF#32 = false ∧ fNeg 0x00000000#32 = false := by decide +kernel

/-- One pair of operands for each clause; the sums and differences that are zero are those of both signs. -/
theorem witness_SpecialOperandsFollowIeee :
    (fVal 0x3F800000#32 + fVal 0xBF800000#32 = 0 ∧ fVal 0x80000000#32 + fVal 0x80000000#32 = 0 ∧
      fVal 0x3F800000#32 - fVal 0x3F800000#32 = 0 ∧ isFinite 0xBF800000#32 = true ∧ isFinite 0x80000000#32 = true ∧
      fNeg 0x7F800000#32 = false) ∧
    isNaN 0x7F800001#32 = true ∧ (isInf 0x7F800000#32 = true ∧ isInf 0xFF800000#32 = true ∧ fNeg 0x7F800000#32 ≠ fNeg 0xFF800000#32) ∧
      isZero 0x80000000#32 = true ∧ (isFinite 0x3F800000#32 = true ∧ isZero 0x3F800000#32 = false) ∧
      (isZero 0x80000001#32 = false ∧ fNeg 0x80000001#32 = true) := by decide +kernel

/-- Finite words, both ends of the range P3 names, a NaN, an infinity. -/
theorem witness_ElementaryFunctionsKeepTheirProperties :
    isFinite 0x7F7FFFFF#32 = true ∧ (fle 0xBF400000#32 0xBF400000#32 = true ∧ fle 0xBF400000#32 0x3F400000#32 = true) ∧
      fle 0x3F400000#32 0x3F400000#32 = true ∧ isNaN 0x7FC00000#32 = true ∧ isInf 0xFF800000#32 = true := by decide +kernel

/-- The set V6, a pair of zeros of both signs, the samples 0.5 and -0.0. -/
theorem witness_IdentitySetPassesFiniteSamples :
    isZero 0x00000000#32 = true ∧ isZero 0x80000000#32 = true ∧
      ∀ x ∈ [0x3F000000#32, 0x80000000#32], isFinite x = true ∧ isFinite (fmul 0xBFF42904#32 x) = true ∧
        isFinite (fmul 0x3F695E41#32 x) = true := by
  refine ⟨by decide, by decide, fun x hx => ?_⟩
  rcases List.mem_cons.1 hx with rfl | hx
  · exact ⟨by decide +kernel, by decide +kernel, by decide +kernel⟩
  · rcases List.mem_singleton.1 hx with rfl
    exact ⟨by decide +kernel, by decide +kernel, by decide +kernel⟩

theorem witness_NanInTheDelayStateStays : isNaN (⟨0x7FC00000#32, 0xFFC00000#32⟩ : Delay Word).s1 = true ∧
    isNaN (⟨0x7FC00000#32, 0xFFC00000#32⟩ : Delay Word).s2 = true := by decide

/-- The last sample of a list. -/
theorem witness_FilterRealisesTheRecurrence : 2 < ([1, 0, 3] : List ℝ).length := by simp

theorem witness_FactoryIsStableInExactArithmetic :
    (0 : ℝ) < 48000 ∧ (0 : ℝ) < 1000 ∧ (1000 : ℝ) < 48000 / 2 ∧ (0 : ℝ) < 1 ∧ (0 : ℝ) < 2 := by norm_num

theorem witness_ReferenceGainsInExactArithmetic :
    (0 : ℝ) < 44100 ∧ (0 : ℝ) < 20 ∧ (20 : ℝ) < 44100 / 2 ∧ (0 : ℝ) < 0.3 ∧ (0 : ℝ) < 4 := by norm_num

end Sys2Proof.Tests
end

/-! R82: which words the decoder rejects, and what the step that meets one does. -/

namespace Sys2Proof.Machine

open Sys2Proof Sys2Proof.Claims

/-! The fields of a command word as numbers (R71). -/

theorem toNat_opOf (w : Word) : (opOf w).toNat = opNum w := by
  have := w.isLt
  simp only [opOf, opNum, BitVec.extractLsb'_toNat, Nat.shiftRight_eq_div_pow]
  omega

theorem toNat_bandOf (w : Word) : (bandOf w).toNat = bandNum w := by
  simp only [bandOf, bandNum, BitVec.extractLsb'_toNat, Nat.shiftRight_eq_div_pow]

theorem toNat_selOf (w : Word) : (selOf w).toNat = selNum w := by
  simp only [selOf, selNum, BitVec.extractLsb'_toNat, Nat.shiftRight_eq_div_pow]

theorem zeroOf_eq_zero_iff (w : Word) : zeroOf w = 0#22 ↔ lowNum w = 0 := by
  simp [← BitVec.toNat_inj, zeroOf, lowNum]

theorem bandOf_eq_zero_iff (w : Word) : bandOf w = 0#3 ↔ bandNum w = 0 := by
  simp [← BitVec.toNat_inj, toNat_bandOf]

theorem selOf_eq_zero_iff (w : Word) : selOf w = 0#3 ↔ selNum w = 0 := by
  simp [← BitVec.toNat_inj, toNat_selOf]

/-- The decoder's length is the length of R72 in arithmetic. -/
theorem opLength_eq_wordLength (w : Word) : opLength w = wordLength w := by
  unfold opLength wordLength
  rw [toNat_opOf]
  split <;> simp_all

/-! The selectors that name nothing (R75). -/

theorem bandOfBits_eq_none_iff : ∀ b, Band.ofBits b = none ↔ 6 ≤ b.toNat := by decide

theorem memberOfSel_eq_none_iff : ∀ k, Member.ofSel k = none ↔ 5 ≤ k.toNat := by decide

theorem statSelOfSel_eq_none_iff : ∀ k, StatSel.ofSel k = none ↔ 4 ≤ k.toNat := by decide

/-- The registers that do not exist (R22, R75). -/
theorem fieldOfBand_eq_none_iff : ∀ b k : BitVec 3,
    ((Band.ofBits b).bind fun band => (Field.ofSel k).filter band.hasField) = none ↔
      6 ≤ b.toNat ∨ 4 ≤ k.toNat ∨ ((b.toNat = 0 ∨ b.toNat = 5) ∧ (k.toNat = 1 ∨ k.toNat = 2)) := by decide

/-! Rejection, clause by clause. -/

/-- The decoder answers an error. -/
def Rejects {α : Type} (r : Except Illegal α) : Prop := ∃ e, r = .error e

@[simp] theorem rejects_error {α : Type} (e : Illegal) : Rejects (.error e : Except Illegal α) := ⟨e, rfl⟩

@[simp] theorem not_rejects_ok {α : Type} (a : α) : ¬ Rejects (.ok a) := by simp [Rejects]

@[simp] theorem rejects_ite_error {α : Type} (c : Prop) [Decidable c] (e : Illegal) (r : Except Illegal α) :
    Rejects (if c then .error e else r) ↔ c ∨ Rejects r := by
  by_cases h : c <;> simp [h]

/-- The same with the error in the other branch, where `simp` puts it when the test is a negation. -/
@[simp] theorem rejects_ite_else_error {α : Type} (c : Prop) [Decidable c] (e : Illegal) (r : Except Illegal α) :
    Rejects (if c then r else .error e) ↔ ¬ c ∨ Rejects r := by
  by_cases h : c <;> simp [h]

/-- R82 (d) and (g): a parameter register that does not exist. -/
theorem rejects_decodeReg_iff (w : Word) :
    Rejects (decodeReg w) ↔
      6 ≤ bandNum w ∨ 4 ≤ selNum w ∨ ((bandNum w = 0 ∨ bandNum w = 5) ∧ (selNum w = 1 ∨ selNum w = 2)) := by
  rw [← toNat_bandOf, ← toNat_selOf, ← fieldOfBand_eq_none_iff, decodeReg]
  rcases Band.ofBits (bandOf w) with _ | b <;> rcases Field.ofSel (selOf w) with _ | f <;> simp

section

variable (p : Port) (w x1 x2 x3 : Word)

/-- R82 (c). -/
theorem rejects_decode_of_lowNum (h : lowNum w ≠ 0) : Rejects (decode p w x1 x2 x3) := by
  simp [decode, zeroOf_eq_zero_iff, h]

/-- R82 (a). -/
theorem rejects_decode_of_reservedOp (h : opNum w = 0 ∨ 7 ≤ opNum w) : Rejects (decode p w x1 x2 x3) := by
  rw [decode, rejects_ite_error, toNat_opOf]
  right
  split
  case h_7 => exact rejects_error _
  all_goals omega

/-- PREPARE and PROCESS: R82 (b), (e), (f). -/
theorem rejects_engine_iff (h0 : lowNum w = 0) (h : opNum w = 1 ∨ opNum w = 2) :
    Rejects (decode p w x1 x2 x3) ↔ p = .ctl ∨ bandNum w ≠ 0 ∨ selNum w ≠ 0 := by
  rcases h with h | h <;>
    simp [decode, toNat_opOf, zeroOf_eq_zero_iff, bandOf_eq_zero_iff, selOf_eq_zero_iff, h0, h]

/-- WRPARAM and RDPARAM: R82 (d), (g). -/
theorem rejects_param_iff (h0 : lowNum w = 0) (h : opNum w = 3 ∨ opNum w = 4) :
    Rejects (decode p w x1 x2 x3) ↔ Rejects (decodeReg w) := by
  rcases h with h | h <;> rcases hr : decodeReg w with _ | ⟨b, f⟩ <;>
    simp [decode, toNat_opOf, zeroOf_eq_zero_iff, h0, h, hr]

/-- RDCOEF: R82 (b), (d), (h). -/
theorem rejects_rdcoef_iff (h0 : lowNum w = 0) (h : opNum w = 5) :
    Rejects (decode p w x1 x2 x3) ↔ p = .ctl ∨ 6 ≤ bandNum w ∨ 5 ≤ selNum w := by
  rw [← toNat_bandOf, ← toNat_selOf, ← bandOfBits_eq_none_iff, ← memberOfSel_eq_none_iff]
  rcases hb : Band.ofBits (bandOf w) with _ | b <;> rcases hk : Member.ofSel (selOf w) with _ | k <;>
    simp [decode, toNat_opOf, zeroOf_eq_zero_iff, h0, h, hb, hk]

/-- RDSTAT: R82 (b), (e), (i). -/
theorem rejects_rdstat_iff (h0 : lowNum w = 0) (h : opNum w = 6) :
    Rejects (decode p w x1 x2 x3) ↔ p = .ctl ∨ bandNum w ≠ 0 ∨ 4 ≤ selNum w := by
  rw [← toNat_selOf, ← statSelOfSel_eq_none_iff]
  rcases hk : StatSel.ofSel (selOf w) with _ | k <;>
    simp [decode, toNat_opOf, zeroOf_eq_zero_iff, bandOf_eq_zero_iff, h0, h, hk]

/-- The nine clauses of R82 are what the decoder rejects. -/
theorem illegalWord_iff_rejects : IllegalWord p w ↔ Rejects (decode p w x1 x2 x3) := by
  by_cases h0 : lowNum w = 0
  case neg => exact iff_of_true (.inr (.inr (.inl h0))) (rejects_decode_of_lowNum p w x1 x2 x3 h0)
  have ops : (opNum w = 0 ∨ 7 ≤ opNum w) ∨ (opNum w = 1 ∨ opNum w = 2) ∨ (opNum w = 3 ∨ opNum w = 4) ∨
      opNum w = 5 ∨ opNum w = 6 := by omega
  rcases ops with h | h | h | h | h
  · exact iff_of_true (.inl h) (rejects_decode_of_reservedOp p w x1 x2 x3 h)
  · rw [rejects_engine_iff p w x1 x2 x3 h0 h]
    unfold IllegalWord
    grind
  · rw [rejects_param_iff p w x1 x2 x3 h0 h, rejects_decodeReg_iff]
    unfold IllegalWord
    omega
  · rw [rejects_rdcoef_iff p w x1 x2 x3 h0 h]
    unfold IllegalWord
    grind
  · rw [rejects_rdstat_iff p w x1 x2 x3 h0 h]
    unfold IllegalWord
    grind

end

/-! The step that meets an illegal command. -/

/-- An illegal command that has arrived whole is taken off by the length rule (R72). -/
theorem fetch_of_illegalWord (p : Port) (w : Word) (ws : List Word) (hlen : wordLength w ≤ ws.length + 1)
    (hw : IllegalWord p w) : ∃ e, fetch p (w :: ws) = .illegal e (wordLength w) (ws.drop (wordLength w - 1)) := by
  obtain ⟨e, he⟩ := (illegalWord_iff_rejects p w (ws.getD 0 0#32) (ws.getD 1 0#32) (ws.getD 2 0#32)).1 hw
  refine ⟨e, ?_⟩
  simp only [fetch, opLength_eq_wordLength, he]
  rw [if_neg (by omega)]

/-- On either port the step takes the command's words off and raises ILLEGAL. -/
theorem step_of_illegalWord (p : Port) (s : State) (w : Word) (ws : List Word) (hturn : nextTurn s = turnOf p)
    (hin : waiting p s = w :: ws) (hlen : wordLength w ≤ ws.length + 1) (hw : IllegalWord p w) :
    step s = .next (raise .illegal (consume p (wordLength w) (ws.drop (wordLength w - 1)) (dropTurn s))) := by
  obtain ⟨e, he⟩ := fetch_of_illegalWord p w ws hlen hw
  have serve : step s = servePort exec p (dropTurn s) := by
    unfold step
    rw [hturn]
    cases p <;> rfl
  have hwait : waiting p (dropTurn s) = w :: ws := by
    rw [← hin]
    cases p <;> rfl
  rw [serve, servePort, hwait, he]

/-- Settles O4: the clauses of R82 operation by operation, and the step through `raise` on each port. -/
theorem illegalWordsAreRefusedWithoutEffect : Obligations.IllegalWordsAreRefusedWithoutEffect := by
  refine ⟨illegalWord_iff_rejects, fun s w ws hturn hin hlen hw => ?_, fun s w ws hturn hin hlen hw => ?_⟩
  · rw [step_of_illegalWord .cmd s w ws hturn hin hlen hw, raise_of_cmd _ _ rfl]
    rfl
  · rw [step_of_illegalWord .ctl s w ws hturn hin hlen hw, raise_of_ctl _ _ rfl]
    rfl

end Sys2Proof.Machine

/-! R100 to R103: what the parameter and read-back commands store and answer. -/

namespace Sys2Proof.Machine

open Sys2Proof Sys2Proof.Claims

/-! The four commands never stop: `exec` answers the next state their meanings give. -/

theorem exec_wrparam (b : Band) (f : Field) (d : Word) (s : State) :
    exec (.wrparam b f d) s = .next (wrparam b f d s) := rfl

theorem exec_rdparam (b : Band) (f : Field) (s : State) : exec (.rdparam b f) s = .next (rdparam b f s) := rfl

theorem exec_rdcoef (b : Band) (k : Member) (s : State) : exec (.rdcoef b k) s = .next (rdcoef b k s) := rfl

theorem exec_rdstat (k : StatSel) (s : State) : exec (.rdstat k) s = .next (rdstat k s) := rfl

/-! Responses on the port of the command, whichever it is (R80). -/

theorem send_port_eq_withSent (ws : List Word) (s : State) : send s.port ws s = withSent ws s := by
  cases h : s.port <;> simp [send, withSent, h]

theorem respond_eq_withSent (c : Code) (s : State) : respond c s = withSent [codeWord c] s :=
  send_port_eq_withSent _ s

theorem respondData_eq_withSent (d : Word) (s : State) : respondData d s = withSent [0#32, d] s :=
  send_port_eq_withSent _ s

/-! WRPARAM and RDPARAM of an implemented register. -/

/-- R23, R100: only a BYPASS register changes the word, to the one bit of "not zero". -/
theorem storedWord_eq_ite (f : Field) (d : Word) :
    storedWord f d = if f = .bypass then (if d ≠ 0#32 then 1#32 else 0#32) else d := by
  cases f <;> simp [storedWord]

theorem wrparam_of_regOf {b : Band} {f : Field} {r : Reg} (d : Word) (s : State) (hr : regOf b f = some r) :
    wrparam b f d s = withSent [0#32] { s with params := setParam s.params r (storedWord f d) } := by
  simp only [wrparam, hr, respond_eq_withSent, codeWord]

theorem rdparam_of_regOf {b : Band} {f : Field} {r : Reg} (s : State) (hr : regOf b f = some r) :
    rdparam b f s = withSent [0#32, getParam s.params r] s := by
  simp only [rdparam, hr, respondData_eq_withSent]

/-- Settles O23: the new parameter file is the old one with the stored word at the register named. -/
theorem wrparamStoresTheWord : Obligations.WrparamStoresTheWord := by
  intro s b f d r hr
  refine ⟨_, exec_wrparam b f d s, ?_⟩
  rw [wrparam_of_regOf d s hr]
  refine ⟨?_, fun r' hne => ?_, rfl⟩
  · exact (getParam_setParam_same _ r _).trans (storedWord_eq_ite f d)
  · exact getParam_setParam_ne _ r r' _ hne.symm

/-- Settles O24: the response with data is the command's only effect. -/
theorem rdparamAnswersTheStoredWord : Obligations.RdparamAnswersTheStoredWord := by
  intro s b f r hr
  rw [exec_rdparam, rdparam_of_regOf s hr]

/-! RDCOEF in the two engine states. -/

theorem rdcoef_of_prepared (b : Band) (k : Member) {s : State} (hp : s.st.prepared = true) :
    rdcoef b k s = respondData (coefMember (getCoef s b) k) s := if_pos hp

theorem rdcoef_of_unprepared (b : Band) (k : Member) {s : State} (hp : s.st.prepared = false) :
    rdcoef b k s = raise .notReady s := by
  simp [rdcoef, hp]

/-- Settles O25: RDCOEF answers data when Prepared and raises NOT_READY otherwise, member by member. -/
theorem rdcoefAnswersTheActiveCoefficient : Obligations.RdcoefAnswersTheActiveCoefficient := by
  refine fun s b k hport => ⟨fun hp => ?_, fun hp => ?_⟩
  · rw [exec_rdcoef, rdcoef_of_prepared b k hp, respondData_of_cmd _ s hport]
    cases k <;> rfl
  · rw [exec_rdcoef, rdcoef_of_unprepared b k hp, raise_of_cmd _ s hport, codeWord]

/-! RDSTAT: the status word as a number, and the configuration in the two engine states. -/

/-- R28: bit 0 PREPARED, bit 1 RATE_SUBST, bit 2 ERR, and zeros above. -/
theorem toNat_statusWord (st : Status) :
    (statusWord st).toNat =
      (if st.prepared then 1 else 0) + (if st.rateSubst then 2 else 0) + (if st.err then 4 else 0) := by
  obtain ⟨p, r, e⟩ := st
  cases p <;> cases r <;> cases e <;> rfl

theorem rdstat_of_prepared {s : State} (hp : s.st.prepared = true) :
    rdstat .fs s = respondData s.cfg.fs s ∧ rdstat .maxBlock s = respondData s.cfg.maxBlock s ∧
      rdstat .nch s = respondData s.cfg.nch s := ⟨if_pos hp, if_pos hp, if_pos hp⟩

/-- R103: every selector but ST is refused before the first accepted PREPARE. -/
theorem rdstat_of_unprepared {k : StatSel} (hk : k ≠ .st) {s : State} (hp : s.st.prepared = false) :
    rdstat k s = raise .notReady s := by
  cases k with
  | st => exact absurd rfl hk
  | fs | maxBlock | nch => simp [rdstat, hp]

/-- Settles O26: ST by its word in arithmetic, the configuration by the engine state. -/
theorem rdstatAnswersStatusAndConfiguration : Obligations.RdstatAnswersStatusAndConfiguration := by
  refine fun s hport => ⟨⟨statusWord s.st, ?_, toNat_statusWord s.st⟩, fun hp => ?_, fun hp k hk => ?_⟩
  · rw [exec_rdstat, rdstat, respondData_of_cmd _ s hport, codeWord]
  · obtain ⟨hfs, hmax, hnch⟩ := rdstat_of_prepared hp
    simp only [exec_rdstat, hfs, hmax, hnch, respondData_of_cmd _ s hport, codeWord, and_self]
  · rw [exec_rdstat, rdstat_of_unprepared hk hp, raise_of_cmd _ s hport, codeWord]

end Sys2Proof.Machine

/-! R120, R126, R128 to R131: the repair of a parameter, the band wrapper and the shelf and peak operations. -/

namespace Sys2Proof.Machine

open Sys2Proof Sys2Proof.Claims

/-! Finite words among the words that are no NaN. -/

/-- The magnitude of a word's value is its units. -/
theorem natAbs_fInt (w : Word) : (fInt w).natAbs = fUnits w := by
  unfold fInt
  split <;> omega

/-- An infinity stands for `2^277` units. -/
theorem fUnits_of_isInf {w : Word} (h : isInf w = true) : fUnits w = 2 ^ 24 * 2 ^ 253 := by
  simp only [isInf, decide_eq_true_eq] at h
  simp only [fUnits, h]
  decide

/-- Every finite word stays below an infinity's units. -/
theorem fUnits_lt_of_isFinite {w : Word} (h : isFinite w = true) : fUnits w < 2 ^ 24 * 2 ^ 253 := by
  simp only [isFinite, infMag, decide_eq_true_eq] at h
  simp only [fUnits]
  split
  · exact (Nat.mod_lt _ (by decide)).trans (by decide)
  · have hexp : fMag w / 2 ^ 23 - 1 ≤ 253 := by omega
    have hsig : 2 ^ 23 + fMag w % 2 ^ 23 < 2 ^ 24 := by omega
    calc (2 ^ 23 + fMag w % 2 ^ 23) * 2 ^ (fMag w / 2 ^ 23 - 1)
        ≤ (2 ^ 23 + fMag w % 2 ^ 23) * 2 ^ 253 := Nat.mul_le_mul_left _ (Nat.pow_le_pow_right (by decide) hexp)
      _ < 2 ^ 24 * 2 ^ 253 := Nat.mul_lt_mul_of_pos_right hsig (by decide)

/-- Only a finite word lies between two finite words. -/
theorem isFinite_of_fle_fle {lo v hi : Word} (hlo : isFinite lo = true) (hhi : isFinite hi = true)
    (h : fle lo v = true) (h' : fle v hi = true) : isFinite v = true := by
  have blo := natAbs_fInt lo ▸ fUnits_lt_of_isFinite hlo
  have bhi := natAbs_fInt hi ▸ fUnits_lt_of_isFinite hhi
  simp only [fle, Bool.and_eq_true, Bool.not_eq_true', decide_eq_true_eq] at h h'
  rcases isFinite_or v with hv | hv | hv
  · exact hv
  · have bv := natAbs_fInt v ▸ fUnits_of_isInf hv
    omega
  · simp [hv] at h

theorem not_fle_of_flt {a b : Word} (h : flt a b = true) : fle b a = false := by
  simp only [flt, Bool.and_eq_true, decide_eq_true_eq] at h
  simp only [fle, Bool.and_eq_false_iff, decide_eq_false_iff_not]
  omega

theorem not_flt_of_fle {a b : Word} (h : fle a b = true) : flt b a = false := by
  simp only [fle, Bool.and_eq_true, decide_eq_true_eq] at h
  simp only [flt, Bool.and_eq_false_iff, decide_eq_false_iff_not]
  omega

/-! CLAMP, case by case. -/

theorem clamp_of_not_fle {v lo : Word} (hi : Word) (h : fle lo v = false) : clamp v lo hi = lo := by
  simp [clamp, fge, h]

theorem clamp_of_flt {v lo hi : Word} (hlo : fle lo v = true) (h : flt hi v = true) : clamp v lo hi = hi := by
  simp [clamp, fge, fgt, hlo, h]

theorem clamp_of_fle {v lo hi : Word} (hlo : fle lo v = true) (h : flt hi v = false) : clamp v lo hi = v := by
  simp [clamp, fge, fgt, hlo, h]

/-- What CLAMP answers lies between its bounds. -/
theorem fle_clamp_fle {v lo hi : Word} (h : fle lo hi = true) (hlo : isNaN lo = false) (hhi : isNaN hi = false) :
    fle lo (clamp v lo hi) = true ∧ fle (clamp v lo hi) hi = true := by
  rcases hl : fle lo v with _ | _
  · rw [clamp_of_not_fle hi hl]
    exact ⟨fle_refl lo hlo, h⟩
  · rcases hh : flt hi v with _ | _
    · have hv : isNaN v = false := by
        simp only [fle, Bool.and_eq_true, Bool.not_eq_true'] at hl
        exact hl.1.2
      rw [clamp_of_fle hl hh]
      exact ⟨hl, (fle_total v hi hv hhi).resolve_right (by simp [hh])⟩
    · rw [clamp_of_flt hl hh]
      exact ⟨h, fle_refl hi hhi⟩

/-- Settles O42: the three cases of CLAMP, and a word between two finite words is finite. -/
theorem clampGivesAFiniteValueInRange : Obligations.ClampGivesAFiniteValueInRange := by
  intro v lo hi hlo hhi h
  obtain ⟨hge, hle⟩ := fle_clamp_fle (v := v) h (isNaN_of_isFinite lo hlo) (isNaN_of_isFinite hi hhi)
  refine ⟨isFinite_of_fle_fle hlo hhi hge hle, hge, hle, fun hnan => ?_, fun hbelow => ?_, fun habove => ?_,
    fun hl hh => ?_⟩
  · exact clamp_of_not_fle hi (by simp [fle, hnan])
  · exact clamp_of_not_fle hi (not_fle_of_flt hbelow)
  · exact clamp_of_flt (fle_trans lo hi v h (flt_fle hi v habove)) habove
  · exact clamp_of_fle hl (not_flt_of_fle hh)

/-! BANDCOEF and the shape operations. -/

/-- COEF is the shape on COMMON of the guarded rate, written out (R125, R127). -/
theorem coef_eq (sh : Shape) (fs f q g : Word) :
    coef sh fs f q g =
      shapeCoefs arith32 sh (f32Cos (fdiv (fmul Config.twoPi f) (fsguard fs)))
        (fdiv (f32Sin (fdiv (fmul Config.twoPi f) (fsguard fs))) (fmul 0x40000000#32 q)) g := by
  simp only [coef, common, arith32]

/-- Settles O47: each band's registers and constants, put into COEF. -/
theorem bandcoefRepairsParametersAndRunsTheFactory : Obligations.BandcoefRepairsParametersAndRunsTheFactory := by
  intro v fs
  exact ⟨coef_eq .highPass fs _ _ _, coef_eq .lowShelf fs _ _ _, coef_eq .peaking fs _ _ _, coef_eq .peaking fs _ _ _,
    coef_eq .highShelf fs _ _ _, coef_eq .lowPass fs _ _ _⟩

/-! A shape operation runs its shape on the operands in the factory and never stops. -/

theorem exec_coefLS (s : State) : exec .coefLS s = .next (factoryRun .lowShelf s) := rfl

theorem exec_coefHS (s : State) : exec .coefHS s = .next (factoryRun .highShelf s) := rfl

theorem exec_coefPK (s : State) : exec .coefPK s = .next (factoryRun .peaking s) := rfl

/-- Settles O48: the low-shelf formulas of the factory, over binary32. -/
theorem coefLsComputesTheLowShelf : Obligations.CoefLsComputesTheLowShelf := by
  intro s
  rw [exec_coefLS]
  simp only [factoryRun, shapeCoefs, lowShelf, shelfTerms, normalise, arith32]

/-- Settles O49: the high-shelf formulas of the factory, over binary32. -/
theorem coefHsComputesTheHighShelf : Obligations.CoefHsComputesTheHighShelf := by
  intro s
  rw [exec_coefHS]
  simp only [factoryRun, shapeCoefs, highShelf, shelfTerms, normalise, arith32]

/-- Settles O50: the peaking formulas of the factory, over binary32. -/
theorem coefPkComputesThePeak : Obligations.CoefPkComputesThePeak := by
  intro s
  rw [exec_coefPK]
  simp only [factoryRun, shapeCoefs, peaking, normalise, arith32]

end Sys2Proof.Machine

/-! R139, R141: the factory over the real numbers. -/

namespace Sys2Proof.Claims

open Sys2Proof Sys2Proof.Machine

/-! The operations of the real arithmetic that the shelf terms and the quotients use. -/

section

variable (x y : ℝ)

@[simp] theorem realArith_add : realArith.add x y = x + y := rfl
@[simp] theorem realArith_sub : realArith.sub x y = x - y := rfl
@[simp] theorem realArith_mul : realArith.mul x y = x * y := rfl
@[simp] theorem realArith_div : realArith.div x y = x / y := rfl
@[simp] theorem realArith_sqrt : realArith.sqrt x = √x := rfl
@[simp] theorem realArith_one : realArith.one = 1 := rfl
@[simp] theorem realArith_two : realArith.two = 2 := rfl

end

/-- The angle of a frequency, `w0` of COMMON (R125). -/
noncomputable def angle (fs f : ℝ) : ℝ := 2 * Real.pi * f / fs

/-- The real factory is the shape on `cw` and `alpha` of that angle. -/
theorem realCoefs_eq (sh : Shape) (fs f q g : ℝ) :
    realCoefs sh fs f q g =
      shapeCoefs realArith sh (Real.cos (angle fs f)) (Real.sin (angle fs f) / (2 * q)) g := rfl

theorem circleAt_eq_exp (f fs : ℝ) : circleAt f fs = Complex.exp (angle fs f * Complex.I) := rfl

theorem angle_mem_Ioo {fs f : ℝ} (hfs : 0 < fs) (hf : 0 < f) (hhalf : f < fs / 2) :
    angle fs f ∈ Set.Ioo 0 Real.pi := by
  have hpi := Real.pi_pos
  refine ⟨by unfold angle; positivity, ?_⟩
  rw [angle, div_lt_iff₀ hfs]
  nlinarith

/-- For `0 < f < fs/2` the angle lies strictly inside the upper half circle. -/
theorem sin_angle_pos_and_abs_cos_angle_lt_one {fs f : ℝ} (hfs : 0 < fs) (hf : 0 < f) (hhalf : f < fs / 2) :
    0 < Real.sin (angle fs f) ∧ |Real.cos (angle fs f)| < 1 := by
  have hsin := Real.sin_pos_of_mem_Ioo (angle_mem_Ioo hfs hf hhalf)
  refine ⟨hsin, (sq_lt_one_iff_abs_lt_one _).1 ?_⟩
  nlinarith [Real.sin_sq_add_cos_sq (angle fs f)]

/-! The terms of the shelves (R129). -/

section

variable (c α g : ℝ)

theorem shelfTerms_m_sub_v : (shelfTerms realArith c α g).m - (shelfTerms realArith c α g).v = 2 * (1 - c) := by
  simp only [shelfTerms, realArith_add, realArith_sub, realArith_mul, realArith_one]
  ring

theorem shelfTerms_m_add_v : (shelfTerms realArith c α g).m + (shelfTerms realArith c α g).v = 2 * √g * (1 + c) := by
  simp only [shelfTerms, realArith_add, realArith_sub, realArith_mul, realArith_one, realArith_sqrt]
  ring

theorem shelfTerms_p_sub_u : (shelfTerms realArith c α g).p - (shelfTerms realArith c α g).u = 2 * (1 + c) := by
  simp only [shelfTerms, realArith_add, realArith_sub, realArith_mul, realArith_one]
  ring

theorem shelfTerms_p_add_u : (shelfTerms realArith c α g).p + (shelfTerms realArith c α g).u = 2 * √g * (1 - c) := by
  simp only [shelfTerms, realArith_add, realArith_sub, realArith_mul, realArith_one, realArith_sqrt]
  ring

theorem shelfTerms_beta_pos (hα : 0 < α) (hg : 0 < g) : 0 < (shelfTerms realArith c α g).beta := by
  simp only [shelfTerms, realArith_mul, realArith_two, realArith_sqrt]
  positivity

theorem abs_shelfTerms_v_lt_m (hc : |c| < 1) (hg : 0 < g) :
    |(shelfTerms realArith c α g).v| < (shelfTerms realArith c α g).m := by
  obtain ⟨hlo, hhi⟩ := abs_lt.1 hc
  have hsub := shelfTerms_m_sub_v c α g
  have hadd := shelfTerms_m_add_v c α g
  have : 0 < 2 * √g * (1 + c) := mul_pos (by positivity) (by linarith)
  exact abs_lt.2 ⟨by linarith, by linarith⟩

theorem abs_shelfTerms_u_lt_p (hc : |c| < 1) (hg : 0 < g) :
    |(shelfTerms realArith c α g).u| < (shelfTerms realArith c α g).p := by
  obtain ⟨hlo, hhi⟩ := abs_lt.1 hc
  have hsub := shelfTerms_p_sub_u c α g
  have hadd := shelfTerms_p_add_u c α g
  have : 0 < 2 * √g * (1 - c) := mul_pos (by positivity) (by linarith)
  exact abs_lt.2 ⟨by linarith, by linarith⟩

end

/-! The five sets as normalised raw values (R128 to R133). -/

section

variable (c α g : ℝ)

theorem lowShelf_real :
    lowShelf realArith c α g =
      let t := shelfTerms realArith c α g
      normalise realArith (√g * (t.p + t.beta)) (2 * √g * t.u) (√g * (t.p - t.beta))
        (t.m + t.beta) (-2 * t.v) (t.m - t.beta) := rfl

theorem highShelf_real :
    highShelf realArith c α g =
      let t := shelfTerms realArith c α g
      normalise realArith (√g * (t.m + t.beta)) (-2 * √g * t.v) (√g * (t.m - t.beta))
        (t.p + t.beta) (2 * t.u) (t.p - t.beta) := rfl

theorem peaking_real :
    peaking realArith c α g =
      normalise realArith (1 + α * √g) (-2 * c) (1 - α * √g) (1 + α / √g) (-2 * c) (1 - α / √g) := rfl

theorem highPass_real :
    highPass realArith c α =
      normalise realArith ((1 + c) / 2) (-(1 + c)) ((1 + c) / 2) (1 + α) (-2 * c) (1 - α) := rfl

theorem lowPass_real :
    lowPass realArith c α =
      normalise realArith ((1 - c) / 2) (1 - c) ((1 - c) / 2) (1 + α) (-2 * c) (1 - α) := rfl

end

/-! Stability (R139). -/

theorem abs_two_mul_lt {t m : ℝ} (ht : |t| < m) : |2 * t| < 2 * m := by
  rw [abs_mul, abs_two]
  linarith

theorem abs_neg_two_mul_lt {t m : ℝ} (ht : |t| < m) : |-2 * t| < 2 * m := by
  rw [abs_mul, abs_neg, abs_two]
  linarith

/-- Every shape divides by a denominator of one form, `(m + β) z² + a1 z + (m - β)` with `β > 0` and `|a1| < 2 m`. -/
theorem shapeCoefs_denominator (sh : Shape) {c α g : ℝ} (hc : |c| < 1) (hα : 0 < α) (hg : 0 < g) :
    ∃ b0 b1 b2 m β a1 : ℝ, 0 < β ∧ |a1| < 2 * m ∧
      shapeCoefs realArith sh c α g = normalise realArith b0 b1 b2 (m + β) a1 (m - β) := by
  have hbeta := shelfTerms_beta_pos c α g hα hg
  cases sh with
  | lowShelf => exact ⟨_, _, _, _, _, _, hbeta, abs_neg_two_mul_lt (abs_shelfTerms_v_lt_m c α g hc hg), lowShelf_real c α g⟩
  | highShelf => exact ⟨_, _, _, _, _, _, hbeta, abs_two_mul_lt (abs_shelfTerms_u_lt_p c α g hc hg), highShelf_real c α g⟩
  | peaking =>
    have hquotient : 0 < α / √g := by positivity
    exact ⟨_, _, _, _, _, _, hquotient, abs_neg_two_mul_lt hc, peaking_real c α g⟩
  | highPass => exact ⟨_, _, _, _, _, _, hα, abs_neg_two_mul_lt hc, highPass_real c α⟩
  | lowPass => exact ⟨_, _, _, _, _, _, hα, abs_neg_two_mul_lt hc, lowPass_real c α⟩

/-- A denominator of that form meets the two inequalities of R139. -/
theorem normalise_inequalities (b0 b1 b2 : ℝ) {m β a1 : ℝ} (hβ : 0 < β) (ha1 : |a1| < 2 * m) :
    |(normalise realArith b0 b1 b2 (m + β) a1 (m - β)).a2| < 1 ∧
      |(normalise realArith b0 b1 b2 (m + β) a1 (m - β)).a1| <
        1 + (normalise realArith b0 b1 b2 (m + β) a1 (m - β)).a2 := by
  have hm : 0 < 2 * m := (abs_nonneg a1).trans_lt ha1
  have ha0 : 0 < m + β := by linarith
  simp only [normalise, realArith_div]
  constructor
  · rw [abs_div, abs_of_pos ha0, div_lt_one ha0]
    exact abs_lt.2 ⟨by linarith, by linarith⟩
  · rw [abs_div, abs_of_pos ha0, one_add_div ha0.ne', div_lt_div_iff_of_pos_right ha0]
    linarith

/-- The two inequalities put every root strictly inside the unit circle: a real root by the signs at `1` and `-1`, a pair
of conjugate roots by their product `a2`. -/
theorem norm_lt_one_of_root {a1 a2 : ℝ} (h2 : |a2| < 1) (h1 : |a1| < 1 + a2) {z : ℂ}
    (hz : z ^ 2 + a1 * z + a2 = 0) : ‖z‖ < 1 := by
  obtain ⟨hlo2, hhi2⟩ := abs_lt.1 h2
  obtain ⟨hlo1, hhi1⟩ := abs_lt.1 h1
  have hre : z.re ^ 2 - z.im ^ 2 + a1 * z.re + a2 = 0 := by
    simpa [pow_two] using congrArg Complex.re hz
  have him : z.im * (2 * z.re + a1) = 0 := by
    have := congrArg Complex.im hz
    simp [pow_two] at this
    linarith
  have hsq : z.re ^ 2 + z.im ^ 2 < 1 := by
    rcases mul_eq_zero.1 him with hreal | hpair
    · have hroot : z.re ^ 2 + a1 * z.re + a2 = 0 := by simpa [hreal] using hre
      have hbelow : z.re < 1 := by
        by_contra hge
        nlinarith [mul_nonneg (sub_nonneg.2 (not_lt.1 hge)) (by linarith : 0 ≤ z.re + 1 + a1)]
      have habove : -1 < z.re := by
        by_contra hle
        nlinarith [mul_nonneg (neg_nonneg.2 (by linarith : z.re + 1 ≤ 0)) (by linarith : 0 ≤ 1 - z.re - a1)]
      nlinarith
    · have hproduct : z.re ^ 2 + z.im ^ 2 = a2 := by
        rw [show a1 = -(2 * z.re) by linarith] at hre
        linarith
      linarith
  rw [← sq_lt_one_iff₀ (norm_nonneg z), Complex.sq_norm, Complex.normSq_apply]
  linarith

/-- Settles O59: the common form of the denominators, its inequalities, and the roots they bound. -/
theorem factoryIsStableInExactArithmetic : Obligations.FactoryIsStableInExactArithmetic := by
  intro sh fs f q g hfs hf hhalf hq hg
  obtain ⟨hsin, hcos⟩ := sin_angle_pos_and_abs_cos_angle_lt_one hfs hf hhalf
  obtain ⟨b0, b1, b2, m, β, a1, hβ, ha1, heq⟩ :=
    shapeCoefs_denominator sh hcos (div_pos hsin (by positivity : 0 < 2 * q)) hg
  rw [realCoefs_eq, heq]
  obtain ⟨h2, h1⟩ := normalise_inequalities b0 b1 b2 hβ ha1
  exact ⟨h2, h1, fun z hz => norm_lt_one_of_root h2 h1 hz⟩

/-! The gains (R141). -/

/-- `r0 z² + r1 z + r2`, a raw numerator or denominator at a point. -/
noncomputable def quadratic (r0 r1 r2 : ℝ) (z : ℂ) : ℂ := r0 * z ^ 2 + r1 * z + r2

/-- The gain of a normalised set is that of its raw values. -/
theorem gainAt_normalise (b0 b1 b2 a1 a2 : ℝ) {a0 : ℝ} {z : ℂ} (ha0 : a0 ≠ 0) (hz : z ≠ 0) :
    gainAt (normalise realArith b0 b1 b2 a0 a1 a2) z = ‖quadratic b0 b1 b2 z‖ / ‖quadratic a0 a1 a2 z‖ := by
  have ha0' : (a0 : ℂ) ≠ 0 := Complex.ofReal_ne_zero.2 ha0
  have hscale : (a0 : ℂ) * z ^ 2 ≠ 0 := mul_ne_zero ha0' (pow_ne_zero 2 hz)
  simp only [gainAt, normalise, realArith_div, Complex.ofReal_div]
  rw [← norm_div, ← div_div_div_cancel_right₀ hscale (quadratic b0 b1 b2 z)]
  congr 2 <;> simp only [quadratic] <;> field_simp

theorem norm_quadratic_one (r0 r1 r2 : ℝ) : ‖quadratic r0 r1 r2 1‖ = |r0 + r1 + r2| := by
  have hreal : quadratic r0 r1 r2 1 = ((r0 + r1 + r2 : ℝ) : ℂ) := by simp [quadratic]
  rw [hreal, Complex.norm_real, Real.norm_eq_abs]

theorem norm_quadratic_neg_one (r0 r1 r2 : ℝ) : ‖quadratic r0 r1 r2 (-1)‖ = |r0 - r1 + r2| := by
  have hreal : quadratic r0 r1 r2 (-1) = ((r0 - r1 + r2 : ℝ) : ℂ) := by simp [quadratic, sub_eq_add_neg]
  rw [hreal, Complex.norm_real, Real.norm_eq_abs]

/-- On the unit circle a factor `z` comes out and leaves `r1 + r0 z + r2 / z`, by its real and imaginary part. -/
theorem norm_quadratic_exp (r0 r1 r2 w : ℝ) :
    ‖quadratic r0 r1 r2 (Complex.exp (w * Complex.I))‖ =
      √(((r0 + r2) * Real.cos w + r1) ^ 2 + ((r0 - r2) * Real.sin w) ^ 2) := by
  have hfactor : quadratic r0 r1 r2 (Complex.exp (w * Complex.I)) =
      Complex.exp (w * Complex.I) *
        (((r0 + r2) * Real.cos w + r1 : ℝ) + ((r0 - r2) * Real.sin w : ℝ) * Complex.I) := by
    have hpythagoras : (Complex.sin w) ^ 2 + (Complex.cos w) ^ 2 = 1 := Complex.sin_sq_add_cos_sq w
    rw [Complex.exp_mul_I]
    push_cast [quadratic]
    linear_combination (-r2 : ℂ) * hpythagoras + (r2 : ℂ) * Complex.sin w ^ 2 * Complex.I_sq
  rw [hfactor, norm_mul, Complex.norm_exp_ofReal_mul_I, one_mul, Complex.norm_add_mul_I]

/-- The denominators of COEF.PK, COEF.HP and COEF.LP at their own frequency (R131 to R133). -/
theorem norm_quadratic_exp_of_cos (k w : ℝ) :
    ‖quadratic (1 + k) (-2 * Real.cos w) (1 - k) (Complex.exp (w * Complex.I))‖ = |2 * k * Real.sin w| := by
  rw [norm_quadratic_exp, ← Real.sqrt_sq_eq_abs]
  congr 1
  ring

/-- The numerators of COEF.HP and COEF.LP at their own frequency. -/
theorem norm_quadratic_exp_of_symm (r0 r1 w : ℝ) :
    ‖quadratic r0 r1 r0 (Complex.exp (w * Complex.I))‖ = |2 * r0 * Real.cos w + r1| := by
  rw [norm_quadratic_exp, ← Real.sqrt_sq_eq_abs]
  congr 1
  ring

/-! The gain of a normalised set whose denominator has the form of `shapeCoefs_denominator`: read off where the numerator is
`k` times the denominator. -/

theorem gainAt_normalise_of_norm {b0 b1 b2 a0 a1 a2 k : ℝ} {z : ℂ} (ha0 : a0 ≠ 0) (hz : z ≠ 0)
    (hden : ‖quadratic a0 a1 a2 z‖ ≠ 0) (h : ‖quadratic b0 b1 b2 z‖ = k * ‖quadratic a0 a1 a2 z‖) :
    gainAt (normalise realArith b0 b1 b2 a0 a1 a2) z = k := by
  rw [gainAt_normalise b0 b1 b2 a1 a2 ha0 hz, h, mul_div_cancel_right₀ k hden]

section

variable {b0 b1 b2 m β a1 k : ℝ} (hβ : 0 < β) (ha1 : |a1| < 2 * m) (hk : 0 ≤ k)
include hβ ha1 hk

theorem gainAt_normalise_one (h : b0 + b1 + b2 = k * (2 * m + a1)) :
    gainAt (normalise realArith b0 b1 b2 (m + β) a1 (m - β)) 1 = k := by
  obtain ⟨hlo, hhi⟩ := abs_lt.1 ha1
  have hsum : m + β + a1 + (m - β) = 2 * m + a1 := by ring
  refine gainAt_normalise_of_norm (by linarith) one_ne_zero ?_ ?_
  · rw [norm_quadratic_one, hsum]
    exact abs_ne_zero.2 (by linarith)
  · rw [norm_quadratic_one, norm_quadratic_one, hsum, h, abs_mul, abs_of_nonneg hk]

theorem gainAt_normalise_neg_one (h : b0 - b1 + b2 = k * (2 * m - a1)) :
    gainAt (normalise realArith b0 b1 b2 (m + β) a1 (m - β)) (-1) = k := by
  obtain ⟨hlo, hhi⟩ := abs_lt.1 ha1
  have hsum : m + β - a1 + (m - β) = 2 * m - a1 := by ring
  refine gainAt_normalise_of_norm (by linarith) (neg_ne_zero.2 one_ne_zero) ?_ ?_
  · rw [norm_quadratic_neg_one, hsum]
    exact abs_ne_zero.2 (by linarith)
  · rw [norm_quadratic_neg_one, norm_quadratic_neg_one, hsum, h, abs_mul, abs_of_nonneg hk]

end

theorem gainAt_normalise_exp {b0 b1 b2 β k w : ℝ} (hβ : 0 < β) (hsin : 0 < Real.sin w)
    (h : ‖quadratic b0 b1 b2 (Complex.exp (w * Complex.I))‖ = k * (2 * β * Real.sin w)) :
    gainAt (normalise realArith b0 b1 b2 (1 + β) (-2 * Real.cos w) (1 - β)) (Complex.exp (w * Complex.I)) = k := by
  have hpos : 0 < 2 * β * Real.sin w := by positivity
  have hden := norm_quadratic_exp_of_cos β w
  rw [abs_of_pos hpos] at hden
  exact gainAt_normalise_of_norm (by linarith) (Complex.exp_ne_zero _) (hden ▸ hpos.ne') (by rw [h, hden])

/-! The gains of the five shapes at 0 and `fs/2`. -/

section

variable {c α g : ℝ} (hc : |c| < 1) (hα : 0 < α)
include hc hα

theorem gainAt_lowShelf (hg : 0 < g) :
    gainAt (lowShelf realArith c α g) 1 = g ∧ gainAt (lowShelf realArith c α g) (-1) = 1 := by
  have hbeta := shelfTerms_beta_pos c α g hα hg
  have hv := abs_neg_two_mul_lt (abs_shelfTerms_v_lt_m c α g hc hg)
  rw [lowShelf_real]
  refine ⟨gainAt_normalise_one hbeta hv hg.le ?_, gainAt_normalise_neg_one hbeta hv zero_le_one ?_⟩
  · linear_combination 2 * √g * shelfTerms_p_add_u c α g - 2 * g * shelfTerms_m_sub_v c α g +
      4 * (1 - c) * Real.sq_sqrt hg.le
  · linear_combination 2 * √g * shelfTerms_p_sub_u c α g - 2 * shelfTerms_m_add_v c α g

theorem gainAt_highShelf (hg : 0 < g) :
    gainAt (highShelf realArith c α g) 1 = 1 ∧ gainAt (highShelf realArith c α g) (-1) = g := by
  have hbeta := shelfTerms_beta_pos c α g hα hg
  have hu := abs_two_mul_lt (abs_shelfTerms_u_lt_p c α g hc hg)
  rw [highShelf_real]
  refine ⟨gainAt_normalise_one hbeta hu zero_le_one ?_, gainAt_normalise_neg_one hbeta hu hg.le ?_⟩
  · linear_combination 2 * √g * shelfTerms_m_sub_v c α g - 2 * shelfTerms_p_add_u c α g
  · linear_combination 2 * √g * shelfTerms_m_add_v c α g - 2 * g * shelfTerms_p_sub_u c α g +
      4 * (1 + c) * Real.sq_sqrt hg.le

theorem gainAt_peaking (hg : 0 < g) :
    gainAt (peaking realArith c α g) 1 = 1 ∧ gainAt (peaking realArith c α g) (-1) = 1 := by
  have hquotient : 0 < α / √g := by positivity
  rw [peaking_real]
  exact ⟨gainAt_normalise_one hquotient (abs_neg_two_mul_lt hc) zero_le_one (by ring),
    gainAt_normalise_neg_one hquotient (abs_neg_two_mul_lt hc) zero_le_one (by ring)⟩

theorem gainAt_lowPass : gainAt (lowPass realArith c α) 1 = 1 ∧ gainAt (lowPass realArith c α) (-1) = 0 := by
  rw [lowPass_real]
  exact ⟨gainAt_normalise_one hα (abs_neg_two_mul_lt hc) zero_le_one (by ring),
    gainAt_normalise_neg_one hα (abs_neg_two_mul_lt hc) le_rfl (by ring)⟩

theorem gainAt_highPass : gainAt (highPass realArith c α) 1 = 0 ∧ gainAt (highPass realArith c α) (-1) = 1 := by
  rw [highPass_real]
  exact ⟨gainAt_normalise_one hα (abs_neg_two_mul_lt hc) le_rfl (by ring),
    gainAt_normalise_neg_one hα (abs_neg_two_mul_lt hc) zero_le_one (by ring)⟩

end

/-! The gains of the peak and pass shapes at their own frequency. -/

section

variable {w : ℝ} (hsin : 0 < Real.sin w)
include hsin

theorem gainAt_peaking_exp {α g : ℝ} (hα : 0 < α) (hg : 0 < g) :
    gainAt (peaking realArith (Real.cos w) α g) (Complex.exp (w * Complex.I)) = g := by
  have hroot : 0 < √g := Real.sqrt_pos.2 hg
  have hnum : 0 < 2 * (α * √g) * Real.sin w := by positivity
  rw [peaking_real]
  refine gainAt_normalise_exp (by positivity) hsin ?_
  rw [norm_quadratic_exp_of_cos, abs_of_pos hnum]
  field_simp
  exact Real.sq_sqrt hg.le

theorem gainAt_lowPass_exp {q : ℝ} (hq : 0 < q) :
    gainAt (lowPass realArith (Real.cos w) (Real.sin w / (2 * q))) (Complex.exp (w * Complex.I)) = q := by
  have hnum : 2 * ((1 - Real.cos w) / 2) * Real.cos w + (1 - Real.cos w) = Real.sin w ^ 2 := by
    linear_combination -Real.sin_sq_add_cos_sq w
  rw [lowPass_real]
  refine gainAt_normalise_exp (by positivity) hsin ?_
  rw [norm_quadratic_exp_of_symm, hnum, abs_of_nonneg (sq_nonneg _)]
  field_simp

theorem gainAt_highPass_exp {q : ℝ} (hq : 0 < q) :
    gainAt (highPass realArith (Real.cos w) (Real.sin w / (2 * q))) (Complex.exp (w * Complex.I)) = q := by
  have hnum : 2 * ((1 + Real.cos w) / 2) * Real.cos w + -(1 + Real.cos w) = -Real.sin w ^ 2 := by
    linear_combination Real.sin_sq_add_cos_sq w
  rw [highPass_real]
  refine gainAt_normalise_exp (by positivity) hsin ?_
  rw [norm_quadratic_exp_of_symm, hnum, abs_neg, abs_of_nonneg (sq_nonneg _)]
  field_simp

end

/-- Settles O60: the gains shape by shape, with `cw` and `alpha` as COMMON gives them. -/
theorem referenceGainsInExactArithmetic : Obligations.ReferenceGainsInExactArithmetic := by
  intro fs f q g hfs hf hhalf hq hg
  obtain ⟨hsin, hcos⟩ := sin_angle_pos_and_abs_cos_angle_lt_one hfs hf hhalf
  have hα : 0 < Real.sin (angle fs f) / (2 * q) := by positivity
  obtain ⟨hpk1, hpk2⟩ := gainAt_peaking hcos hα hg
  obtain ⟨hlp1, hlp2⟩ := gainAt_lowPass hcos hα
  obtain ⟨hhp1, hhp2⟩ := gainAt_highPass hcos hα
  simp only [realCoefs_eq, circleAt_eq_exp]
  exact ⟨gainAt_lowShelf hcos hα hg, gainAt_highShelf hcos hα hg,
    ⟨hpk1, hpk2, gainAt_peaking_exp hsin hα hg⟩,
    ⟨hlp1, hlp2, gainAt_lowPass_exp hsin hq⟩,
    ⟨hhp1, hhp2, gainAt_highPass_exp hsin hq⟩⟩

end Sys2Proof.Claims

/-! R153: the recurrence of the source, over the real numbers. -/

namespace Sys2Proof.Claims

open Sys2Proof Sys2Proof.Machine

/-! One sample, and then the rest of the list. -/

/-- R152 over the real numbers. -/
theorem bqstep_real (c : CoefSet ℝ) (d : Delay ℝ) (x : ℝ) :
    bqstep realArith c d x =
      (c.b0 * x + d.s1,
        ⟨c.b1 * x - c.a1 * (c.b0 * x + d.s1) + d.s2, c.b2 * x - c.a2 * (c.b0 * x + d.s1)⟩) := rfl

theorem bqList_cons_fst {F : Type} (A : Arith F) (c : CoefSet F) (d : Delay F) (x : F) (xs : List F) :
    (bqList A c d (x :: xs)).1 = (bqstep A c d x).1 :: (bqList A c (bqstep A c d x).2 xs).1 := rfl

theorem past_cons_zero (x : ℝ) (xs : List ℝ) (k : Nat) : past (x :: xs) 0 k = if k = 0 then x else 0 := by
  cases k <;> simp [past]

/-- Seen from one sample later, the past of a longer list is the shorter list's, and its first sample where that one is
not yet begun. -/
theorem past_cons_succ (x : ℝ) (xs : List ℝ) (n k : Nat) :
    past (x :: xs) (n + 1) k = past xs n k + if k = n + 1 then x else 0 := by
  rcases Nat.lt_trichotomy k (n + 1) with hk | rfl | hk
  · have hsub : n + 1 - k = (n - k) + 1 := by omega
    simp [past, hk.le, Nat.le_of_lt_succ hk, hk.ne, hsub]
  · simp [past]
  · simp [past, Nat.not_le.2 hk, Nat.not_le.2 ((Nat.lt_succ_self n).trans hk), hk.ne']

/-- What a delay pair adds to output `n` in place of the samples before the list's start: `s1` is due with the next
output and `s2` with the one after it. -/
def pendingAt (d : Delay ℝ) : Nat → ℝ
  | 0 => d.s1
  | 1 => d.s2
  | _ + 2 => 0

theorem pendingAt_zero_pair (n : Nat) : pendingAt ⟨0, 0⟩ n = 0 := by
  rcases n with _ | _ | n <;> rfl

/-- Each BQSTEP turns the `b1`, `b2`, `a1` and `a2` terms of its sample and output into what is pending for the next two
outputs. -/
theorem pendingAt_bqstep (c : CoefSet ℝ) (d : Delay ℝ) (x : ℝ) (n : Nat) :
    pendingAt (bqstep realArith c d x).2 n =
      c.b1 * (if 1 = n + 1 then x else 0) + c.b2 * (if 2 = n + 1 then x else 0)
        - c.a1 * (if 1 = n + 1 then (bqstep realArith c d x).1 else 0)
        - c.a2 * (if 2 = n + 1 then (bqstep realArith c d x).1 else 0) + pendingAt d (n + 1) := by
  rcases n with _ | _ | n <;> simp [bqstep_real, pendingAt]

/-- The recurrence from any pair, with what the pair has pending added. -/
theorem bqList_recurrence (c : CoefSet ℝ) (d : Delay ℝ) (xs : List ℝ) (n : Nat) (hn : n < xs.length) :
    past (bqList realArith c d xs).1 n 0 =
      c.b0 * past xs n 0 + c.b1 * past xs n 1 + c.b2 * past xs n 2
        - c.a1 * past (bqList realArith c d xs).1 n 1 - c.a2 * past (bqList realArith c d xs).1 n 2
        + pendingAt d n := by
  induction xs generalizing d n with
  | nil => exact absurd hn (Nat.not_lt_zero n)
  | cons x xs ih =>
    rw [bqList_cons_fst]
    cases n with
    | zero => simp [past_cons_zero, bqstep_real, pendingAt]
    | succ n =>
      have hrest := ih (bqstep realArith c d x).2 n (Nat.lt_of_succ_lt_succ hn)
      simp only [past_cons_succ, (Nat.succ_ne_zero n).symm, if_false]
      linear_combination hrest + pendingAt_bqstep c d x n

/-- Settles O58: a zero pair has nothing pending. -/
theorem filterRealisesTheRecurrence : Obligations.FilterRealisesTheRecurrence := by
  intro c xs n hn
  have h := bqList_recurrence c ⟨0, 0⟩ xs n hn
  rwa [pendingAt_zero_pair, add_zero] at h

end Sys2Proof.Claims

/-! R171, R174, R179: PREPARE refused, PROCESS refused, and a block of zero frames. -/

namespace Sys2Proof.Machine

open Sys2Proof Sys2Proof.Claims

theorem exec_prepare (fsw maxBlock nch : Word) (s : State) :
    exec (.prepare fsw maxBlock nch) s = .next (prepare fsw maxBlock nch s) := rfl

theorem exec_process (n : Word) (s : State) : exec (.process n) s = .next (process n s) := rfl

/-! PREPARE refused (R171). -/

theorem toNat_mem_allowedCh_iff (nch : Word) : nch.toNat ∈ Config.allowedCh ↔ nch = 2#32 := by
  simp [Config.allowedCh, ← BitVec.toNat_inj]

/-- The channel count is tested first, whatever the block size is. -/
theorem prepareCheck_of_layout (maxBlock : Word) {nch : Word} (h : nch ≠ 2#32) :
    prepareCheck maxBlock nch = some .rejLayout :=
  if_pos ((toNat_mem_allowedCh_iff nch).not.2 h)

theorem prepareCheck_of_block {maxBlock : Word} (h : maxBlock = 0#32 ∨ Config.maxBlkHw < maxBlock.toNat) :
    prepareCheck maxBlock 2#32 = some .rejBlock := by
  have hsize : maxBlock.toNat = 0 ∨ Config.maxBlkHw < maxBlock.toNat :=
    h.imp_left fun h0 => by rw [h0, BitVec.toNat_zero]
  rw [prepareCheck, if_neg (by decide), if_pos hsize]

theorem prepare_of_prepareCheck (fsw : Word) {maxBlock nch : Word} {c : Code} (s : State)
    (h : prepareCheck maxBlock nch = some c) : prepare fsw maxBlock nch s = raise c s := by
  rw [prepare, h]

/-- Settles O29: each refusal of the acceptance check goes through `raise`. -/
theorem rejectedPrepareChangesNothing : Obligations.RejectedPrepareChangesNothing := by
  refine fun s fsw maxBlock nch hport => ⟨fun hlayout => ?_, fun hnch hblock => ?_⟩
  · rw [exec_prepare, prepare_of_prepareCheck fsw s (prepareCheck_of_layout maxBlock hlayout),
      raise_of_cmd _ s hport, codeWord]
  · rw [hnch, exec_prepare, prepare_of_prepareCheck fsw s (prepareCheck_of_block hblock), raise_of_cmd _ s hport, codeWord]

/-! PROCESS, its three cases (R173, R174). -/

theorem process_of_unprepared (n : Word) {s : State} (hp : s.st.prepared = false) :
    process n s = raise .notReady s := by
  simp [process, hp]

theorem process_of_too_long {n : Word} {s : State} (hp : s.st.prepared = true) (hn : s.cfg.maxBlock.toNat < n.toNat) :
    process n s = raise .rejBlock s := by
  simp [process, hp, hn]

theorem process_of_fits {n : Word} {s : State} (hp : s.st.prepared = true) (hn : n.toNat ≤ s.cfg.maxBlock.toNat) :
    process n s = respond .ok (runBands n.toNat (recomputeAll (samplingPhase s))) := by
  simp [process, hp, Nat.not_lt.2 hn]

/-! What phase 2 of PROCESS leaves unchanged (R175). -/

@[simp] theorem recomputeAll_cfg (s : State) : (recomputeAll s).cfg = s.cfg := by rw [(recomputeAll_eq s).1]
@[simp] theorem recomputeAll_delay (s : State) : (recomputeAll s).delay = s.delay := by rw [(recomputeAll_eq s).1]
@[simp] theorem recomputeAll_psnap (s : State) : (recomputeAll s).psnap = s.psnap := by rw [(recomputeAll_eq s).1]
@[simp] theorem recomputeAll_buf (s : State) : (recomputeAll s).buf = s.buf := by rw [(recomputeAll_eq s).1]
@[simp] theorem recomputeAll_port (s : State) : (recomputeAll s).port = s.port := by rw [(recomputeAll_eq s).1]
@[simp] theorem recomputeAll_cmdOut (s : State) : (recomputeAll s).cmdOut = s.cmdOut := by rw [(recomputeAll_eq s).1]

/-! Phase 3 of PROCESS (R176): on a block that fits it changes `BUF` and the delay pairs only. -/

theorem runBands_frame {n : Nat} {s : State} (hn : n ≤ s.cfg.maxBlock.toNat) :
    runBands n s = { s with buf := (runBands n s).buf, delay := (runBands n s).delay } :=
  (runBandsFold_spec n allBands s hn).1

/-- An accepted PROCESS answers one OK word on the CMD port. -/
theorem process_cmdOut_of_fits {n : Word} {s : State} (hport : s.port = .cmd) (hp : s.st.prepared = true)
    (hn : n.toNat ≤ s.cfg.maxBlock.toNat) : (process n s).cmdOut = s.cmdOut ++ [0#32] := by
  have hframe := runBands_frame (s := recomputeAll (samplingPhase s)) (n := n.toNat) (by simpa using hn)
  rw [process_of_fits hp hn, respond_cmdOut _ _ (by rw [hframe]; simpa using hport), hframe]
  simp [codeWord]

/-- Settles O30: PROCESS case by case. -/
theorem refusedProcessChangesNothing : Obligations.RefusedProcessChangesNothing := by
  refine fun s n hport => ⟨fun hp => ?_, fun hp hlong => ?_, fun hp hfits => ?_⟩
  · rw [exec_process, process_of_unprepared n hp, raise_of_cmd _ s hport, codeWord]
  · rw [exec_process, process_of_too_long hp hlong, raise_of_cmd _ s hport, codeWord]
  · exact ⟨_, exec_process n s, process_cmdOut_of_fits hport hp hfits⟩

/-! A block of zero frames filters nothing (R179). -/

theorem setDelay_getDelay (s : State) (b : Band) (ch : Fin Config.maxCh) : setDelay s b ch (getDelay s b ch) = s := by
  simp [setDelay, getDelay]

/-- No sample is read, so the pair is written back as it was. -/
theorem bqLane_zero (b : Band) (ch : Fin Config.maxCh) (s : State) : bqLane b 0 ch s = s :=
  setDelay_getDelay s b ch

theorem bqproc_zero (b : Band) (s : State) : bqproc b 0 s = s := by
  simp only [bqproc_eq, bqLane_zero, ite_self]

theorem runBand_zero (s : State) (b : Band) : runBand 0 s b = s := by
  rw [runBand, bqproc_zero, ite_self]

theorem runBands_zero (s : State) : runBands 0 s = s := by
  simp only [runBands, allBands, List.foldl_cons, List.foldl_nil, runBand_zero]

theorem process_zero {s : State} (hp : s.st.prepared = true) :
    process 0#32 s = respond .ok (recomputeAll (samplingPhase s)) := by
  rw [process_of_fits hp (Nat.zero_le _), BitVec.toNat_zero, runBands_zero]

/-- Settles O34: without phase 3 what is left is sampling, recomputation and the response. -/
theorem processOfZeroFramesOnlyRecomputes : Obligations.ProcessOfZeroFramesOnlyRecomputes := by
  intro s hport hp
  have hcoef (b : Band) : getCoef (recomputeAll (samplingPhase s)) b = bandcoef b (samplingPhase s).psnap s.cfg.fs := by
    rw [(recomputeAll_eq (samplingPhase s)).2 b, samplingPhase_cfg]
  refine ⟨_, exec_process _ s, ?_, ?_, ?_, ?_, process_cmdOut_of_fits hport hp (Nat.zero_le _)⟩ <;> rw [process_zero hp]
  · rw [respond_psnap, recomputeAll_psnap]
  · intro b
    rw [respond_psnap, recomputeAll_psnap, ← hcoef b, getCoef, respond_coef, getCoef]
  · rw [respond_delay, recomputeAll_delay, samplingPhase_delay]
  · rw [respond_buf, recomputeAll_buf, samplingPhase_buf]

end Sys2Proof.Machine

/-! R71 to R83: which words the decoder accepts, and that each has one encoding. -/

namespace Sys2Proof.Machine

open Sys2Proof Sys2Proof.Claims

/-! A command word as the number of its fields (R71, R87). -/

theorem toNat_commandWord (op : BitVec 4) (band sel : BitVec 3) :
    (commandWord op band sel).toNat = op.toNat * 2 ^ 28 + band.toNat * 2 ^ 25 + sel.toNat * 2 ^ 22 := by
  have hband := band.isLt
  have hsel := sel.isLt
  simp only [commandWord, BitVec.toNat_append, BitVec.toNat_zero, Nat.or_zero]
  rw [← Nat.shiftLeft_add_eq_or_of_lt hband, ← Nat.shiftLeft_add_eq_or_of_lt hsel]
  simp only [Nat.shiftLeft_eq]
  ring

@[simp] theorem opOf_commandWord (op : BitVec 4) (band sel : BitVec 3) : opOf (commandWord op band sel) = op := by
  have hband := band.isLt
  have hsel := sel.isLt
  apply BitVec.eq_of_toNat_eq
  rw [toNat_opOf, opNum, toNat_commandWord]
  omega

@[simp] theorem bandOf_commandWord (op : BitVec 4) (band sel : BitVec 3) : bandOf (commandWord op band sel) = band := by
  have hband := band.isLt
  have hsel := sel.isLt
  apply BitVec.eq_of_toNat_eq
  rw [toNat_bandOf, bandNum, toNat_commandWord]
  omega

@[simp] theorem selOf_commandWord (op : BitVec 4) (band sel : BitVec 3) : selOf (commandWord op band sel) = sel := by
  have hsel := sel.isLt
  apply BitVec.eq_of_toNat_eq
  rw [toNat_selOf, selNum, toNat_commandWord]
  omega

/-- A word whose low bits are zero is the command word of its fields. -/
theorem eq_commandWord {w : Word} (h : zeroOf w = 0#22) : w = commandWord (opOf w) (bandOf w) (selOf w) := by
  have hlow : lowNum w = 0 := (zeroOf_eq_zero_iff w).1 h
  apply BitVec.eq_of_toNat_eq
  rw [toNat_commandWord, toNat_opOf, toNat_bandOf, toNat_selOf]
  unfold lowNum at hlow
  unfold opNum bandNum selNum
  omega

/-! The selectors and their numbers (R21, R75). -/

theorem ofBits_eq_some_iff (k : BitVec 3) (b : Band) : Band.ofBits k = some b ↔ k = b.bits := by
  revert k; cases b <;> decide

theorem fieldOfSel_eq_some_iff (k : BitVec 3) (f : Field) : Field.ofSel k = some f ↔ k = f.sel := by
  revert k; cases f <;> decide

theorem memberOfSel_eq_some_iff (k : BitVec 3) (m : Member) : Member.ofSel k = some m ↔ k = m.sel := by
  revert k; cases m <;> decide

theorem statSelOfSel_eq_some_iff (k : BitVec 3) (q : StatSel) : StatSel.ofSel k = some q ↔ k = q.sel := by
  revert k; cases q <;> decide

theorem decodeReg_eq_ok_iff (w : Word) (b : Band) (f : Field) :
    decodeReg w = .ok (b, f) ↔ b.hasField f = true ∧ bandOf w = b.bits ∧ selOf w = f.sel := by
  rw [← ofBits_eq_some_iff, ← fieldOfSel_eq_some_iff, decodeReg]
  rcases Band.ofBits (bandOf w) with _ | b' <;> rcases Field.ofSel (selOf w) with _ | f'
  case some.some =>
    by_cases h : b'.hasField f' = true
    · simp only [h, if_true, Except.ok.injEq, Prod.mk.injEq, Option.some.injEq]
      constructor
      · rintro ⟨rfl, rfl⟩; exact ⟨h, rfl, rfl⟩
      · exact And.right
    · simp only [h, Option.some.injEq]
      constructor
      · rintro ⟨⟩
      · rintro ⟨hf, rfl, rfl⟩; exact absurd hf h
  all_goals simp

/-- What the decoder accepts, command by command: the port, the command word, the instruction (R73, R75). -/
inductive Accepts (p : Port) (x1 x2 x3 : Word) : Word → Instr → Prop
  | prepare (hp : p = .cmd) : Accepts p x1 x2 x3 (commandWord 1#4 0#3 0#3) (.prepare x1 x2 x3)
  | process (hp : p = .cmd) : Accepts p x1 x2 x3 (commandWord 2#4 0#3 0#3) (.process x1)
  | wrparam (b : Band) (f : Field) (hf : b.hasField f = true) :
      Accepts p x1 x2 x3 (commandWord 3#4 b.bits f.sel) (.wrparam b f x1)
  | rdparam (b : Band) (f : Field) (hf : b.hasField f = true) :
      Accepts p x1 x2 x3 (commandWord 4#4 b.bits f.sel) (.rdparam b f)
  | rdcoef (b : Band) (k : Member) (hp : p = .cmd) : Accepts p x1 x2 x3 (commandWord 5#4 b.bits k.sel) (.rdcoef b k)
  | rdstat (k : StatSel) (hp : p = .cmd) : Accepts p x1 x2 x3 (commandWord 6#4 0#3 k.sel) (.rdstat k)

section

variable {p : Port} {w x1 x2 x3 : Word} {i : Instr}

theorem decode_of_accepts (h : Accepts p x1 x2 x3 w i) : decode p w x1 x2 x3 = .ok i := by
  have hreg (op : BitVec 4) {b : Band} {f : Field} (hf : b.hasField f = true) :
      decodeReg (commandWord op b.bits f.sel) = .ok (b, f) :=
    (decodeReg_eq_ok_iff _ b f).2 ⟨hf, bandOf_commandWord .., selOf_commandWord ..⟩
  cases h with
  | prepare hp | process hp => simp [decode, Laws.EncodeLength.zeroOf_commandWord, hp]
  | wrparam b f hf | rdparam b f hf => simp [decode, Laws.EncodeLength.zeroOf_commandWord, hreg _ hf]
  | rdcoef b k hp =>
    simp [decode, Laws.EncodeLength.zeroOf_commandWord, hp, (ofBits_eq_some_iff _ b).2 rfl,
      (memberOfSel_eq_some_iff _ k).2 rfl]
  | rdstat k hp =>
    simp [decode, Laws.EncodeLength.zeroOf_commandWord, hp, (statSelOfSel_eq_some_iff _ k).2 rfl]

/-- The checks of PREPARE and PROCESS, passed. -/
theorem engineChecks_eq_ok {j : Instr}
    (h : (if p = .ctl then Except.error Illegal.notOnThisPort
      else if bandOf w ≠ 0#3 then .error .bandNotZero
      else if selOf w ≠ 0#3 then .error .selNotZero
      else .ok j) = .ok i) : p = .cmd ∧ bandOf w = 0#3 ∧ selOf w = 0#3 ∧ j = i := by
  cases p with
  | ctl => cases h
  | cmd => by_cases hb : bandOf w = 0#3 <;> by_cases hs : selOf w = 0#3 <;> simp_all

/-- A register that decodes, and the instruction made of it. -/
theorem ofDecodeReg_eq_ok {j : Band → Field → Instr}
    (h : (match decodeReg w with
      | .error e => Except.error e
      | .ok (b, f) => .ok (j b f)) = .ok i) :
    ∃ b f, Band.hasField b f = true ∧ bandOf w = b.bits ∧ selOf w = f.sel ∧ j b f = i := by
  split at h
  · cases h
  · next b f hr =>
    obtain ⟨hf, hb, hs⟩ := (decodeReg_eq_ok_iff w b f).1 hr
    exact ⟨b, f, hf, hb, hs, Except.ok.inj h⟩

theorem accepts_of_decode (h : decode p w x1 x2 x3 = .ok i) : Accepts p x1 x2 x3 w i := by
  have hzero : zeroOf w = 0#22 := by
    by_contra hz
    simp [decode, hz] at h
  have hcmd {q : Port} (hq : ¬ q = .ctl) : q = .cmd := by cases q <;> simp_all
  have hop {n : Nat} (hn : (opOf w).toNat = n) : opOf w = BitVec.ofNat 4 n := by simp [← hn]
  rw [eq_commandWord hzero]
  rw [decode, if_neg (not_not.2 hzero)] at h
  split at h
  case h_1 hn =>
    obtain ⟨hp, hb, hs, rfl⟩ := engineChecks_eq_ok h
    rw [hop hn, hb, hs]
    exact .prepare hp
  case h_2 hn =>
    obtain ⟨hp, hb, hs, rfl⟩ := engineChecks_eq_ok h
    rw [hop hn, hb, hs]
    exact .process hp
  case h_3 hn =>
    obtain ⟨b, f, hf, hb, hs, rfl⟩ := ofDecodeReg_eq_ok (j := fun b f => .wrparam b f x1) h
    rw [hop hn, hb, hs]
    exact .wrparam b f hf
  case h_4 hn =>
    obtain ⟨b, f, hf, hb, hs, rfl⟩ := ofDecodeReg_eq_ok (j := .rdparam) h
    rw [hop hn, hb, hs]
    exact .rdparam b f hf
  case h_5 hn =>
    split at h
    · cases h
    next hp =>
    split at h
    case h_3 b k hb hk =>
      rw [hop hn, (ofBits_eq_some_iff _ b).1 hb, (memberOfSel_eq_some_iff _ k).1 hk, ← Except.ok.inj h]
      exact .rdcoef b k (hcmd hp)
    all_goals cases h
  case h_6 hn =>
    split at h
    · cases h
    next hp =>
    split at h
    · cases h
    next hb =>
    split at h
    · cases h
    next k hk =>
    rw [hop hn, not_not.1 hb, (statSelOfSel_eq_some_iff _ k).1 hk, ← Except.ok.inj h]
    exact .rdstat k (hcmd hp)
  case h_7 => cases h

theorem encode_of_accepts (h : Accepts p x1 x2 x3 w i) : encode i = .words ((w :: [x1, x2, x3]).take (opLength w)) := by
  cases h <;> simp [encode, opLength]

theorem wellFormed_of_accepts (h : Accepts p x1 x2 x3 w i) : i.wellFormed = true := by
  cases h with
  | wrparam b f hf | rdparam b f hf => exact hf
  | prepare | process | rdcoef | rdstat => rfl

theorem legalOn_of_accepts (h : Accepts p x1 x2 x3 w i) : i.legalOn p = true := by
  cases h with
  | wrparam | rdparam => cases p <;> rfl
  | prepare hp | process hp | rdcoef _ _ hp | rdstat _ hp => subst hp; rfl

end

/-- A legal command whose words all wait is taken off whole (R72). -/
theorem fetch_of_decode {p : Port} {w : Word} {ws : List Word} {i : Instr} (hlen : opLength w ≤ ws.length + 1)
    (h : decode p w (ws.getD 0 0#32) (ws.getD 1 0#32) (ws.getD 2 0#32) = .ok i) :
    fetch p (w :: ws) = .command i (opLength w) (ws.drop (opLength w - 1)) := by
  simp only [fetch, h]
  rw [if_neg (by omega)]

/-- Only WRPARAM and RDPARAM are legal on the CTL port. -/
theorem eq_cmd_of_legalOn {p : Port} {i : Instr} (h : i.legalOn p = true)
    (hi : i.legalOn .ctl = false) : p = .cmd := by
  cases p with
  | cmd => rfl
  | ctl => exact absurd h (by simp [hi])

/-- A legal command's encoding is its command word and operands, which the decoder accepts. -/
theorem accepts_encode {p : Port} {i : Instr} (hw : i.wellFormed = true) (hp : i.legalOn p = true) :
    ∃ w ws, encode i = .words (w :: ws) ∧ Accepts p (ws.getD 0 0#32) (ws.getD 1 0#32) (ws.getD 2 0#32) w i := by
  cases i with
  | prepare fs mb nch => exact ⟨_, _, rfl, .prepare (eq_cmd_of_legalOn hp rfl)⟩
  | process n => exact ⟨_, _, rfl, .process (eq_cmd_of_legalOn hp rfl)⟩
  | wrparam b f d => exact ⟨_, _, rfl, .wrparam b f hw⟩
  | rdparam b f => exact ⟨_, _, rfl, .rdparam b f hw⟩
  | rdcoef b k => exact ⟨_, _, rfl, .rdcoef b k (eq_cmd_of_legalOn hp rfl)⟩
  | rdstat k => exact ⟨_, _, rfl, .rdstat k (eq_cmd_of_legalOn hp rfl)⟩
  | coefLS | coefHS | coefPK | coefHP | coefLP => cases p <;> cases hp

/-- An encoding is as long as the length rule says of its command word. -/
theorem opLength_of_encode {p : Port} {i : Instr} {w : Word} {ws : List Word} {x1 x2 x3 : Word}
    (he : encode i = .words (w :: ws)) (h : Accepts p x1 x2 x3 w i) : opLength w ≤ ws.length + 1 := by
  cases h <;> cases he <;> simp [opLength]

theorem decodeEncoded_of_legal {p : Port} {i : Instr} (hw : i.wellFormed = true) (hp : i.legalOn p = true) :
    decodeEncoded p (encode i) = some i := by
  obtain ⟨w, ws, he, ha⟩ := accepts_encode hw hp
  rw [he, decodeEncoded, fetch_of_decode (opLength_of_encode he ha) (decode_of_accepts ha)]

/-- A shape operation is its tag on every port (R83). -/
theorem decodeEncoded_of_shape (p : Port) {i : Instr} (h : i.isCommand = false) : decodeEncoded p (encode i) = some i := by
  cases i with
  | prepare | process | wrparam | rdparam | rdcoef | rdstat => cases h
  | coefLS | coefHS | coefPK | coefHP | coefLP => rfl

/-- Settles O1: commands by what the decoder accepts, shape operations by their tags. -/
theorem decodingAnEncodedInstructionGivesItBack : Obligations.DecodingAnEncodedInstructionGivesItBack := by
  intro p i hw hp
  rcases hp with hp | hshape
  · exact decodeEncoded_of_legal hw hp
  · exact decodeEncoded_of_shape p hshape

/-- Settles O2: what is accepted is the encoding's words. -/
theorem legalCommandHasOneEncoding : Obligations.LegalCommandHasOneEncoding := by
  intro p w x1 x2 x3 i h
  rw [← opLength_eq_wordLength]
  exact encode_of_accepts (accepts_of_decode h)

/-- Settles O3: from what the decoder accepts. -/
theorem decodedCommandIsWellFormedAndLegal : Obligations.DecodedCommandIsWellFormedAndLegal := by
  intro p w x1 x2 x3 i h
  exact ⟨wellFormed_of_accepts (accepts_of_decode h), legalOn_of_accepts (accepts_of_decode h)⟩

/-! The table of legal words. -/

theorem mem_legalWords_of_accepts {p : Port} {x1 x2 x3 w : Word} {i : Instr} (h : Accepts p x1 x2 x3 w i) :
    w ∈ legalWords p := by
  cases h with
  | prepare hp | process hp => subst hp; decide
  | wrparam b f hf | rdparam b f hf => revert hf; cases p <;> cases b <;> cases f <;> decide
  | rdcoef b k hp => subst hp; cases b <;> cases k <;> decide
  | rdstat k hp => subst hp; cases k <;> decide

theorem decode_isOk_of_mem (p : Port) : (legalWords p).all fun w => (decode p w 0#32 0#32 0#32).isOk := by
  cases p <;> decide

/-- No word of the table falls under a clause of R82. -/
theorem not_illegalWord_of_mem {p : Port} {w : Word} (hw : w ∈ legalWords p) : ¬ IllegalWord p w := by
  intro hill
  obtain ⟨e, he⟩ := (illegalWord_iff_rejects p w 0#32 0#32 0#32).1 hill
  have hok := List.all_eq_true.1 (decode_isOk_of_mem p) w hw
  rw [he] at hok
  cases hok

/-- Settles O5: the words accepted are in the table, and no word of the table is rejected. -/
theorem legalWordsAreTheSeventySixOfTheTable : Obligations.LegalWordsAreTheSeventySixOfTheTable := by
  refine ⟨by decide, by decide, by decide, fun p w x1 x2 x3 => ⟨?_, fun hw => ?_⟩⟩
  · rintro ⟨i, h⟩
    exact mem_legalWords_of_accepts (accepts_of_decode h)
  · cases h : decode p w x1 x2 x3 with
    | ok i => exact ⟨i, rfl⟩
    | error e => exact absurd ((illegalWord_iff_rejects p w x1 x2 x3).2 ⟨e, h⟩) (not_illegalWord_of_mem hw)

/-- Settles O6: by evaluating the decoder on the seven words. -/
theorem sampleWordsDecodeAsTheTableSays : Obligations.SampleWordsDecodeAsTheTableSays := by
  unfold Obligations.SampleWordsDecodeAsTheTableSays
  decide

end Sys2Proof.Machine

/-! R54 to R57: what a sampling phase reads. -/

namespace Sys2Proof.Machine

open Sys2Proof Sys2Proof.Claims

/-! Steps of the CTL port inside a phase. -/

/-- The snapshot takes no part in the CTL port's steps. -/
theorem iterate_serveCtlInside_psnap (k : Nat) (s : State) (v : ParamFile) :
    serveCtlInside^[k] { s with psnap := v } = { serveCtlInside^[k] s with psnap := v } := by
  induction k generalizing s with
  | zero => rfl
  | succ k ih => rw [Function.iterate_succ_apply, Function.iterate_succ_apply, serveCtlInside_psnap, ih]

theorem iterate_serveCtlInside_sampleReg (k : Nat) (s : State) (r : Reg) :
    (serveCtlInside^[k] (sampleReg r s)).params = (serveCtlInside^[k] s).params := by
  rw [sampleReg, iterate_serveCtlInside_psnap]

@[simp] theorem serveCtlInside_keeps_psnap (s : State) : (serveCtlInside s).psnap = s.psnap := by
  rw [serveCtlInside_frame]

/-! The phase as its CTL steps and its reads. -/

/-- The number of CTL steps before a register's first read; a register the events leave unread is read after them all. -/
def readMoment (r : Reg) : List SampleTurn → Nat
  | [] => 0
  | .read r' :: es => if r' = r then 0 else readMoment r es
  | .ctl :: es => readMoment r es + 1

theorem readMoment_le (r : Reg) (es : List SampleTurn) : readMoment r es ≤ es.count .ctl := by
  induction es with
  | nil => exact Nat.zero_le _
  | cons e es ih =>
    cases e with
    | read r' =>
      rw [readMoment, List.count_cons_of_ne (by simp)]
      split
      · exact Nat.zero_le _
      · exact ih
    | ctl =>
      rw [readMoment, List.count_cons_self]
      exact Nat.succ_le_succ ih

/-- Apart from the snapshot a phase is its CTL steps. -/
theorem samplePhase_eq_iterate (es : List SampleTurn) (left : List Reg) (s : State) :
    samplePhase es left s =
      { serveCtlInside^[es.count .ctl] s with psnap := (samplePhase es left s).psnap } := by
  induction es generalizing left s with
  | nil => exact sampleRest_eq left s
  | cons e es ih =>
    cases e with
    | read r =>
      rw [List.count_cons_of_ne (by simp), samplePhase]
      split
      · rw [ih, sampleReg, iterate_serveCtlInside_psnap]
      · exact ih left s
    | ctl =>
      rw [List.count_cons_self, Function.iterate_succ_apply, samplePhase]
      exact ih left _

/-- A register still to be read contributes its word at the moment of its read (R54, R56). -/
theorem getParam_samplePhase (es : List SampleTurn) (left : List Reg) (hnd : left.Nodup) (s : State) (r : Reg) :
    getParam (samplePhase es left s).psnap r =
      if r ∈ left then getParam (serveCtlInside^[readMoment r es] s).params r else getParam s.psnap r := by
  induction es generalizing left s with
  | nil => exact getParam_sampleRest left s r
  | cons e es ih =>
    cases e with
    | read r' =>
      rw [samplePhase, readMoment]
      by_cases hr : r' = r
      · subst hr
        by_cases hl : r' ∈ left
        · simp [hl, ih _ (hnd.erase r'), hnd.mem_erase_iff]
        · simp [hl, ih _ hnd]
      · by_cases hl : r' ∈ left
        · rw [if_pos hl, if_neg hr, ih _ (hnd.erase r'), iterate_serveCtlInside_sampleReg, sampleReg_psnap,
            getParam_setParam_ne _ _ _ _ hr]
          simp [hnd.mem_erase_iff, Ne.symm hr]
        · rw [if_neg hl, if_neg hr, ih _ hnd]
    | ctl =>
      rw [samplePhase, readMoment, ih _ hnd, Function.iterate_succ_apply, serveCtlInside_keeps_psnap]

theorem nodup_regAll : Reg.all.Nodup := by decide

/-- Every register is read in a whole phase. -/
theorem getParam_samplePhase_all (es : List SampleTurn) (s : State) (r : Reg) :
    getParam (samplePhase es Reg.all s).psnap r = getParam (serveCtlInside^[readMoment r es] s).params r := by
  rw [getParam_samplePhase es _ nodup_regAll, if_pos (Reg.mem_all r)]

/-- With no CTL step in it a phase copies the registers and takes its events. -/
theorem samplingPhase_of_quiet {s : State} (h : QuietSampling s) :
    samplingPhase s = { s with psnap := s.params, sampling := s.sampling.tail } := by
  have hcount : (s.sampling.headD []).count .ctl = 0 := List.count_eq_zero.2 h
  have hsnap : (samplingPhase s).psnap = s.params := by
    refine ParamFile.ext_getParam _ _ fun r => ?_
    have hmoment : readMoment r (s.sampling.headD []) = 0 := Nat.le_zero.1 (hcount ▸ readMoment_le r _)
    rw [samplingPhase, getParam_samplePhase_all, hmoment, Function.iterate_zero_apply]
  have hframe : samplingPhase s = { s with psnap := (samplingPhase s).psnap, sampling := s.sampling.tail } := by
    rw [samplingPhase, samplePhase_eq_iterate, hcount, Function.iterate_zero_apply]
  exact hframe.trans (by rw [hsnap])

/-- Settles O39: the phase as its reads, all before any CTL step. -/
theorem quietSamplingCopiesTheRegisters : Obligations.QuietSamplingCopiesTheRegisters :=
  fun _ h => samplingPhase_of_quiet h

/-- Settles O40: the number of steps is that of the moment of the register's read. -/
theorem sampledValuesAreHeldDuringThePhase : Obligations.SampledValuesAreHeldDuringThePhase := by
  refine fun s es => ⟨?_, ?_, fun r => ⟨readMoment r es, readMoment_le r es, getParam_samplePhase_all es s r⟩⟩ <;>
    rw [samplePhase_eq_iterate]

/-! Events for given moments. -/

/-- Events with `m` CTL steps from moment `j` on: before each step the registers of that moment are read. -/
def eventsFrom (moment : Reg → Nat) : Nat → Nat → List SampleTurn
  | _, 0 => []
  | j, m + 1 => (Reg.all.filter fun r => moment r = j).map .read ++ .ctl :: eventsFrom moment (j + 1) m

theorem count_ctl_map_read (rs : List Reg) : (rs.map SampleTurn.read).count .ctl = 0 :=
  List.count_eq_zero.2 (by simp)

theorem count_ctl_eventsFrom (moment : Reg → Nat) (j m : Nat) : (eventsFrom moment j m).count .ctl = m := by
  induction m generalizing j with
  | zero => rfl
  | succ m ih => rw [eventsFrom, List.count_append, count_ctl_map_read, List.count_cons_self, ih, Nat.zero_add]

theorem readMoment_reads_append (r : Reg) (rs : List Reg) (es : List SampleTurn) :
    readMoment r (rs.map .read ++ es) = if r ∈ rs then 0 else readMoment r es := by
  induction rs with
  | nil => simp
  | cons r' rs ih =>
    rw [List.map_cons, List.cons_append, readMoment, ih]
    by_cases h : r' = r
    · simp [h]
    · simp [h, Ne.symm h]

theorem readMoment_eventsFrom (moment : Reg → Nat) (r : Reg) (j m : Nat) (hj : j ≤ moment r) (hm : moment r ≤ j + m) :
    readMoment r (eventsFrom moment j m) = moment r - j := by
  induction m generalizing j with
  | zero => rw [eventsFrom, readMoment]; omega
  | succ m ih =>
    rw [eventsFrom, readMoment_reads_append]
    by_cases h : moment r = j
    · simp [h, Reg.mem_all]
    · rw [if_neg (by simp [h]), readMoment, ih (j + 1) (by omega) (by omega)]
      omega

/-- Settles O41: read every register just before the CTL step its moment names. -/
theorem everyCombinationOfMomentsCanBeSampled : Obligations.EveryCombinationOfMomentsCanBeSampled := by
  refine fun s m moment hm => ⟨eventsFrom moment 0 m, count_ctl_eventsFrom moment 0 m, fun r => ?_⟩
  have hr := hm r
  rw [getParam_samplePhase_all, readMoment_eventsFrom moment r 0 m (Nat.zero_le _) (by omega), Nat.sub_zero]

end Sys2Proof.Machine

/-! R63, R121, R170 to R177: an accepted PREPARE and an accepted PROCESS. -/

namespace Sys2Proof.Machine

open Sys2Proof Sys2Proof.Claims

/-! FSGUARD (R121). -/

theorem fsguard_of_valid {fs : Word} (h : isFinite fs = true) (h' : fgt fs 0#32 = true) : fsguard fs = fs := by
  simp [fsguard, h, h']

theorem fsguard_of_invalid {fs : Word} (h : isFinite fs = false ∨ fgt fs 0#32 = false) :
    fsguard fs = Config.fsDefault := by
  rcases h with h | h <;> simp [fsguard, h]

theorem fsDefault_valid : isFinite Config.fsDefault = true ∧ fgt Config.fsDefault 0#32 = true := by decide

theorem fsguard_valid (fs : Word) : isFinite (fsguard fs) = true ∧ fgt (fsguard fs) 0#32 = true := by
  unfold fsguard
  split
  · next h => exact Bool.and_eq_true_iff.1 h
  · exact fsDefault_valid

/-- The rate is substituted exactly when it is not valid: `FS_DEFAULT` is valid itself. -/
theorem fsguard_ne_iff (fs : Word) : fsguard fs ≠ fs ↔ (isFinite fs && fgt fs 0#32) = false := by
  constructor
  · intro h
    by_contra hv
    obtain ⟨hfin, hpos⟩ := Bool.and_eq_true_iff.1 (Bool.not_eq_false _ ▸ hv)
    exact h (fsguard_of_valid hfin hpos)
  · intro h heq
    obtain ⟨hfin, hpos⟩ := fsguard_valid fs
    rw [heq] at hfin hpos
    simp [hfin, hpos] at h

/-- Settles O43: FSGUARD case by case. -/
theorem guardedRateIsFiniteAndPositive : Obligations.GuardedRateIsFiniteAndPositive := fun fs =>
  ⟨(fsguard_valid fs).1, (fsguard_valid fs).2, fsguard_of_valid, fsguard_of_invalid⟩

/-! Addresses (R51, R63, R186). -/

/-- A frame of a channel that exists lies in `BUF`, when the lanes are laid out inside it. -/
theorem bufAddr_lt_bufWords {s : State} {n ch k : Nat} (hmax : s.cfg.maxBlock.toNat ≤ Config.maxBlkHw)
    (hn : n ≤ s.cfg.maxBlock.toNat) (hch : ch < Config.maxCh) (hk : k < n) : bufAddr s ch k < bufWords := by
  unfold bufAddr bufWords
  calc ch * s.cfg.maxBlock.toNat + k < (ch + 1) * s.cfg.maxBlock.toNat := by rw [Nat.add_mul]; omega
    _ ≤ Config.maxCh * Config.maxBlkHw := Nat.mul_le_mul hch hmax

/-- Settles O35: the lanes lie inside BUF, and BUF below `2^32`. -/
theorem processStaysInsideTheBuffer : Obligations.ProcessStaysInsideTheBuffer := by
  intro s n ch k hinv hp hn hch hk
  have htwo : s.cfg.nch.toNat = 2 := by simpa [Config.allowedCh] using hinv.channelsValid hp
  have hin := bufAddr_lt_bufWords (hinv.blockValid hp).2 hn (htwo ▸ hch) hk
  exact ⟨hin, hin.trans_le bufWords_le⟩

/-! An accepted PREPARE (R170 to R172). -/

theorem prepareCheck_eq_none_iff (maxBlock nch : Word) :
    prepareCheck maxBlock nch = none ↔
      nch.toNat ∈ Config.allowedCh ∧ 1 ≤ maxBlock.toNat ∧ maxBlock.toNat ≤ Config.maxBlkHw := by
  unfold prepareCheck
  split
  · simp [*]
  · split <;> simp_all <;> omega

theorem prepare_of_accepted (fsw : Word) {maxBlock nch : Word} (s : State) (h : prepareCheck maxBlock nch = none) :
    prepare fsw maxBlock nch s = respond .ok (prepareEffect fsw maxBlock nch (samplingPhase s)) := by
  rw [prepare, h]

section

variable (f m n : Word) (s : State)

@[simp] theorem prepareEffect_params : (prepareEffect f m n s).params = s.params := by rw [(prepareEffect_spec f m n s).1]
@[simp] theorem prepareEffect_cfg : (prepareEffect f m n s).cfg = ⟨fsguard f, m, n⟩ := by
  rw [(prepareEffect_spec f m n s).1]
@[simp] theorem prepareEffect_st : (prepareEffect f m n s).st = ⟨true, decide (fsguard f ≠ f), s.st.err⟩ := by
  rw [(prepareEffect_spec f m n s).1]
@[simp] theorem prepareEffect_psnap : (prepareEffect f m n s).psnap = s.psnap := by rw [(prepareEffect_spec f m n s).1]
@[simp] theorem prepareEffect_buf : (prepareEffect f m n s).buf = s.buf := by rw [(prepareEffect_spec f m n s).1]
@[simp] theorem prepareEffect_cmdPtr : (prepareEffect f m n s).cmdPtr = s.cmdPtr := by rw [(prepareEffect_spec f m n s).1]
@[simp] theorem prepareEffect_port : (prepareEffect f m n s).port = s.port := by rw [(prepareEffect_spec f m n s).1]
@[simp] theorem prepareEffect_cmdIn : (prepareEffect f m n s).cmdIn = s.cmdIn := by rw [(prepareEffect_spec f m n s).1]
@[simp] theorem prepareEffect_cmdOut : (prepareEffect f m n s).cmdOut = s.cmdOut := by rw [(prepareEffect_spec f m n s).1]

end

theorem prepare_of_cmd (fsw : Word) {maxBlock nch : Word} {s : State} (hport : s.port = .cmd)
    (h : prepareCheck maxBlock nch = none) :
    prepare fsw maxBlock nch s =
      { prepareEffect fsw maxBlock nch (samplingPhase s) with cmdOut := s.cmdOut ++ [0#32] } := by
  rw [prepare_of_accepted fsw s h, respond_of_cmd _ _ (by simpa using hport), prepareEffect_cmdOut, samplingPhase_cmdOut,
    codeWord]

/-- Settles O28: what follows the sampling phase, field by field. -/
theorem acceptedPrepareConfiguresAndRestarts : Obligations.AcceptedPrepareConfiguresAndRestarts := by
  intro s fsw maxBlock nch hport hnch hlo hhi
  have hcheck := (prepareCheck_eq_none_iff maxBlock nch).2 ⟨hnch, hlo, hhi⟩
  have htwo : nch.toNat = 2 := by simpa [Config.allowedCh] using hnch
  have hcfg := prepareEffect_cfg fsw maxBlock nch (samplingPhase s)
  have hst := prepareEffect_st fsw maxBlock nch (samplingPhase s)
  have hsnap := prepareEffect_psnap fsw maxBlock nch (samplingPhase s)
  have hsubst : decide (fsguard fsw ≠ fsw) = !(isFinite fsw && fgt fsw 0#32) := by
    rw [← Bool.coe_iff_coe, decide_eq_true_eq, fsguard_ne_iff, Bool.not_eq_true']
  obtain ⟨hframe, hcoef, hdelay⟩ := prepareEffect_spec fsw maxBlock nch (samplingPhase s)
  have hexec : exec (.prepare fsw maxBlock nch) s =
      .next { prepareEffect fsw maxBlock nch (samplingPhase s) with cmdOut := s.cmdOut ++ [0#32] } := by
    rw [exec_prepare, prepare_of_cmd fsw hport hcheck]
  obtain ⟨u, hu⟩ : ∃ u, u = prepareEffect fsw maxBlock nch (samplingPhase s) := ⟨_, rfl⟩
  rw [← hu] at hcfg hst hsnap hframe hcoef hdelay hexec
  refine ⟨_, hexec, hcfg, ?_, fun b ch => ?_, hsnap, fun b => ?_, rfl, ?_⟩
  · rw [hst, hsubst, samplingPhase_st]
  · exact (hdelay b ch).trans (if_pos (htwo ▸ ch.isLt))
  · simp only [hsnap, hcfg]
    exact hcoef b
  · rw [hframe, samplingPhase_frame]

/-! An accepted PROCESS: its frame (R173, R175). -/

/-- What an accepted PROCESS does before its response. -/
def processEffect (n : Nat) (s : State) : State := runBands n (recomputeAll (samplingPhase s))

section

variable {n : Nat} {s : State} (hn : n ≤ s.cfg.maxBlock.toNat)

include hn

theorem processEffect_frame :
    processEffect n s =
      { samplingPhase s with
        coef := (processEffect n s).coef
        factory := (processEffect n s).factory
        buf := (processEffect n s).buf
        delay := (processEffect n s).delay } := by
  have hbands := runBands_frame (n := n) (s := recomputeAll (samplingPhase s)) (by simpa using hn)
  rw [processEffect, hbands, (recomputeAll_eq (samplingPhase s)).1]

theorem processEffect_params : (processEffect n s).params = (samplingPhase s).params := by rw [processEffect_frame hn]
theorem processEffect_cfg : (processEffect n s).cfg = s.cfg := by rw [processEffect_frame hn, samplingPhase_cfg]
theorem processEffect_st : (processEffect n s).st = s.st := by rw [processEffect_frame hn, samplingPhase_st]
theorem processEffect_psnap : (processEffect n s).psnap = (samplingPhase s).psnap := by rw [processEffect_frame hn]
theorem processEffect_cmdPtr : (processEffect n s).cmdPtr = s.cmdPtr := by rw [processEffect_frame hn, samplingPhase_cmdPtr]
theorem processEffect_port : (processEffect n s).port = s.port := by rw [processEffect_frame hn, samplingPhase_port]
theorem processEffect_cmdIn : (processEffect n s).cmdIn = s.cmdIn := by rw [processEffect_frame hn, samplingPhase_cmdIn]
theorem processEffect_cmdOut : (processEffect n s).cmdOut = s.cmdOut := by rw [processEffect_frame hn, samplingPhase_cmdOut]

/-- Phase 3 leaves the sets as phase 2 made them (R175). -/
theorem getCoef_processEffect (b : Band) :
    getCoef (processEffect n s) b = bandcoef b (samplingPhase s).psnap s.cfg.fs := by
  have hbands := runBands_frame (n := n) (s := recomputeAll (samplingPhase s)) (by simpa using hn)
  have hcoef := (recomputeAll_eq (samplingPhase s)).2 b
  rw [processEffect, getCoef, hbands]
  rwa [samplingPhase_cfg, getCoef] at hcoef

end

theorem process_eq_respond {n : Word} {s : State} (hp : s.st.prepared = true) (hn : n.toNat ≤ s.cfg.maxBlock.toNat) :
    process n s = respond .ok (processEffect n.toNat s) := process_of_fits hp hn

theorem process_of_cmd {n : Word} {s : State} (hport : s.port = .cmd) (hp : s.st.prepared = true)
    (hn : n.toNat ≤ s.cfg.maxBlock.toNat) :
    process n s = { processEffect n.toNat s with cmdOut := s.cmdOut ++ [0#32] } := by
  rw [process_eq_respond hp hn, respond_of_cmd _ _ ((processEffect_port hn).trans hport), processEffect_cmdOut hn, codeWord]

/-- Settles O31: the frame of the effect, and the sets phase 2 made. -/
theorem acceptedProcessRecomputesEveryBand : Obligations.AcceptedProcessRecomputesEveryBand := by
  intro s n hport hp hn
  have hframe := processEffect_frame hn
  have hsnap := processEffect_psnap hn
  have hcoef := getCoef_processEffect hn
  refine ⟨_, exec_process n s, ?_⟩
  rw [process_of_cmd hport hp hn]
  generalize processEffect n.toNat s = u at *
  refine ⟨hsnap, fun b => ?_, rfl, ?_⟩
  · simp only [hsnap]
    exact hcoef b
  · rw [hframe, samplingPhase_frame]

/-! Bypassed bands (R177). -/

theorem runBand_of_bypassed {n : Nat} {s : State} {b : Band} (h : getParam s.psnap (bypassReg b) ≠ 0#32) :
    runBand n s b = s := if_neg h

theorem runBand_of_on {n : Nat} {s : State} {b : Band} (h : getParam s.psnap (bypassReg b) = 0#32) :
    runBand n s b = bqproc b n s := if_pos h

/-- A bypassed band keeps its pairs whatever bands are run. -/
theorem getDelay_runBandsFold_of_bypassed {n : Nat} {b : Band} (bs : List Band) (s : State)
    (hn : n ≤ s.cfg.maxBlock.toNat) (h : getParam s.psnap (bypassReg b) ≠ 0#32) (ch : Fin Config.maxCh) :
    getDelay (bs.foldl (runBand n) s) b ch = getDelay s b ch := by
  induction bs generalizing s with
  | nil => rfl
  | cons b' bs ih =>
    rw [List.foldl_cons]
    by_cases hon : getParam s.psnap (bypassReg b') = 0#32
    · obtain ⟨hframe, -, hpairs, -⟩ := bqproc_spec b' n s hn
      have hne : b' ≠ b := fun he => h (he ▸ hon)
      rw [runBand_of_on hon, ih _ (by rw [hframe]; exact hn) (by rw [hframe]; exact h), hpairs, if_neg (fun hc => hne hc.1)]
    · rw [runBand_of_bypassed hon, ih s hn h]

theorem runBands_of_bypassed {n : Nat} {s : State} (h : ∀ b, getParam s.psnap (bypassReg b) ≠ 0#32) :
    runBands n s = s := by
  simp only [runBands, allBands, List.foldl_cons, List.foldl_nil, runBand_of_bypassed (h _)]

/-- Settles O33: a bypassed band is skipped. -/
theorem bypassedBandsTouchNothing : Obligations.BypassedBandsTouchNothing := by
  intro s n hport hp hn
  refine ⟨_, exec_process n s, fun b hb ch => ?_, fun hall => ?_⟩ <;> rw [process_eq_respond hp hn, processEffect]
  · rw [getDelay, respond_delay, ← getDelay, runBands,
      getDelay_runBandsFold_of_bypassed allBands _ (by simpa using hn) (by simpa using hb), getDelay, recomputeAll_delay,
      samplingPhase_delay, getDelay]
  · rw [runBands_of_bypassed (by simpa using hall), respond_buf, respond_delay, recomputeAll_buf, recomputeAll_delay,
      samplingPhase_buf, samplingPhase_delay]
    exact ⟨rfl, rfl⟩

end Sys2Proof.Machine

/-! What an instruction can do, said once, and what follows for every step (R23, R27, R28, R36, R80, R198 to R201). -/

namespace Sys2Proof.Machine

open Sys2Proof Sys2Proof.Claims

/-! The outcomes of an instruction. -/

/-- The commands whose OK is followed by a data word (R80). -/
def Reads (i : Instr) : Prop := (∃ b f, i = .rdparam b f) ∨ (∃ b k, i = .rdcoef b k) ∨ ∃ k, i = .rdstat k

/-- What an instruction can do to a state. -/
inductive Executes (s : State) : Instr → State → Prop
  | refused (i : Instr) (c : Code) (hi : i.isCommand = true) (hc : c ≠ .ok) : Executes s i (raise c s)
  | stored (b : Band) (f : Field) (d : Word) (r : Reg) (hr : regOf b f = some r) :
      Executes s (.wrparam b f d) (respond .ok { s with params := setParam s.params r (storedWord f d) })
  | answered (i : Instr) (d : Word) (hi : Reads i) : Executes s i (respondData d s)
  | prepared (f m n : Word) (hcheck : prepareCheck m n = none) :
      Executes s (.prepare f m n) (respond .ok (prepareEffect f m n (samplingPhase s)))
  | processed (n : Word) (hp : s.st.prepared = true) (hn : n.toNat ≤ s.cfg.maxBlock.toNat) :
      Executes s (.process n) (respond .ok (processEffect n.toNat s))
  | shaped (i : Instr) (sh : Shape) (hi : i.isCommand = false) : Executes s i (factoryRun sh s)

theorem executes_prepare (f m n : Word) (s : State) : Executes s (.prepare f m n) (prepare f m n s) := by
  cases h : prepareCheck m n with
  | none => rw [prepare_of_accepted f s h]; exact .prepared f m n h
  | some c =>
    have hc : c ≠ .ok := by
      rintro rfl
      unfold prepareCheck at h
      split at h
      · cases h
      · split at h <;> cases h
    rw [prepare_of_prepareCheck f s h]
    exact .refused _ c rfl hc

theorem executes_process (n : Word) (s : State) : Executes s (.process n) (process n s) := by
  cases hp : s.st.prepared with
  | false => rw [process_of_unprepared n hp]; exact .refused _ _ rfl (by decide)
  | true =>
    rcases Nat.lt_or_ge s.cfg.maxBlock.toNat n.toNat with hn | hn
    · rw [process_of_too_long hp hn]; exact .refused _ _ rfl (by decide)
    · rw [process_eq_respond hp hn]; exact .processed n hp hn

theorem executes_wrparam (b : Band) (f : Field) (d : Word) (s : State) : Executes s (.wrparam b f d) (wrparam b f d s) := by
  unfold wrparam
  split
  · exact .refused _ _ rfl (by decide)
  · next r hr => exact .stored b f d r hr

theorem executes_rdparam (b : Band) (f : Field) (s : State) : Executes s (.rdparam b f) (rdparam b f s) := by
  unfold rdparam
  split
  · exact .refused _ _ rfl (by decide)
  · exact .answered _ _ (.inl ⟨b, f, rfl⟩)

theorem executes_rdcoef (b : Band) (k : Member) (s : State) : Executes s (.rdcoef b k) (rdcoef b k s) := by
  unfold rdcoef
  split
  · exact .answered _ _ (.inr (.inl ⟨b, k, rfl⟩))
  · exact .refused _ _ rfl (by decide)

theorem executes_rdstat (k : StatSel) (s : State) : Executes s (.rdstat k) (rdstat k s) := by
  have hread : Reads (.rdstat k) := .inr (.inr ⟨k, rfl⟩)
  cases hp : s.st.prepared with
  | true =>
    obtain ⟨hfs, hmax, hnch⟩ := rdstat_of_prepared hp
    cases k with
    | st => exact .answered _ _ hread
    | fs => rw [hfs]; exact .answered _ _ hread
    | maxBlock => rw [hmax]; exact .answered _ _ hread
    | nch => rw [hnch]; exact .answered _ _ hread
  | false =>
    by_cases hk : k = .st
    · subst hk; exact .answered _ _ hread
    · rw [rdstat_of_unprepared hk hp]; exact .refused _ _ rfl (by decide)

theorem exec_coefHP (s : State) : exec .coefHP s = .next (factoryRun .highPass s) := rfl

theorem exec_coefLP (s : State) : exec .coefLP s = .next (factoryRun .lowPass s) := rfl

/-- Every instruction answers a next state, in every state. -/
theorem exec_executes (i : Instr) (s : State) : ∃ t, exec i s = .next t ∧ Executes s i t := by
  cases i with
  | prepare f m n => exact ⟨_, exec_prepare f m n s, executes_prepare f m n s⟩
  | process n => exact ⟨_, exec_process n s, executes_process n s⟩
  | wrparam b f d => exact ⟨_, exec_wrparam b f d s, executes_wrparam b f d s⟩
  | rdparam b f => exact ⟨_, exec_rdparam b f s, executes_rdparam b f s⟩
  | rdcoef b k => exact ⟨_, exec_rdcoef b k s, executes_rdcoef b k s⟩
  | rdstat k => exact ⟨_, exec_rdstat k s, executes_rdstat k s⟩
  | coefLS => exact ⟨_, exec_coefLS s, .shaped _ _ rfl⟩
  | coefHS => exact ⟨_, exec_coefHS s, .shaped _ _ rfl⟩
  | coefPK => exact ⟨_, exec_coefPK s, .shaped _ _ rfl⟩
  | coefHP => exact ⟨_, exec_coefHP s, .shaped _ _ rfl⟩
  | coefLP => exact ⟨_, exec_coefLP s, .shaped _ _ rfl⟩

theorem executes_of_exec {i : Instr} {s t : State} (h : exec i s = .next t) : Executes s i t := by
  obtain ⟨u, hu, he⟩ := exec_executes i s
  rw [hu] at h
  cases h
  exact he

/-- Settles O51: the pass-filter formulas of the factory, over binary32. -/
theorem coefHpAndLpComputeThePassFilters : Obligations.CoefHpAndLpComputeThePassFilters := by
  intro s
  rw [exec_coefHP, exec_coefLP]
  simp only [factoryRun, shapeCoefs, highPass, lowPass, normalise, arith32, and_self]

/-! What follows from the outcomes. -/

section

variable {s t : State} {i : Instr}

/-- Only PREPARE writes the configuration; PREPARED and ERR are only ever set (R27 to R29). -/
theorem cfg_of_executes (h : Executes s i t) (hi : ∀ f m n, i ≠ .prepare f m n) :
    t.cfg = s.cfg ∧ t.st.prepared = s.st.prepared ∧ t.st.rateSubst = s.st.rateSubst := by
  cases h with
  | refused _ c => exact ⟨raise_cfg c s, (raise_st c s).1, (raise_st c s).2.1⟩
  | stored | answered | shaped => simp
  | prepared f m n => exact absurd rfl (hi f m n)
  | processed n hp hn => simp [processEffect_cfg hn, processEffect_st hn]

theorem status_of_executes (h : Executes s i t) :
    (s.st.prepared = true → t.st.prepared = true) ∧ (s.st.err = true → t.st.err = true) := by
  cases h with
  | refused _ c => exact ⟨fun h => (raise_st c s).1.trans h, (raise_st c s).2.2⟩
  | stored | answered | shaped | prepared => simp
  | processed n hp hn => simp [processEffect_st hn]

/-- With quiet sampling only WRPARAM writes a parameter register (R23, R201). -/
theorem params_of_executes (h : Executes s i t) (hi : ∀ b f d, i ≠ .wrparam b f d) (hq : QuietSampling s) :
    t.params = s.params := by
  have hphase : (samplingPhase s).params = s.params := by rw [samplingPhase_of_quiet hq]
  cases h with
  | refused | answered | shaped => simp
  | stored b f d => exact absurd rfl (hi b f d)
  | prepared => simp [hphase]
  | processed n hp hn => simp [processEffect_params hn, hphase]

/-- An instruction takes no more words off its port than its own, and none off the CMD port (R36). -/
theorem stream_of_executes (h : Executes s i t) :
    t.cmdIn = s.cmdIn ∧ t.cmdPtr = s.cmdPtr ∧ (i.legalOn .ctl = true → t.ctlIn = s.ctlIn ∧ t.ctlPtr = s.ctlPtr) := by
  cases h with
  | refused | stored | answered | shaped => simp
  | prepared => exact ⟨by simp, by simp, fun h => by cases h⟩
  | processed n hp hn =>
    exact ⟨by simp [processEffect_cmdIn hn], by simp [processEffect_cmdPtr hn], fun h => by cases h⟩

/-- A single response other than OK is that of a refusal (R198). -/
theorem refused_of_response {c : Word} (h : Executes s i t) (hport : s.port = .cmd) (hi : i.isCommand = true)
    (hout : t.cmdOut = s.cmdOut ++ [c]) (hc : c ≠ 0#32) :
    t = { s with st := { s.st with err := true }, cmdOut := s.cmdOut ++ [c] } := by
  have ok_ne {u : State} (hu : u.port = .cmd) (ho : u.cmdOut = s.cmdOut) : (respond .ok u).cmdOut ≠ s.cmdOut ++ [c] := by
    rw [respond_cmdOut _ u hu, ho]
    intro he
    have hw : codeWord .ok = c := by simpa using he
    exact hc hw.symm
  cases h with
  | refused _ k =>
    rw [raise_of_cmd k s hport] at hout ⊢
    rw [← hout]
  | stored => exact absurd hout (ok_ne hport rfl)
  | answered _ d =>
    rw [respondData_cmdOut d s hport] at hout
    simp at hout
  | prepared => exact absurd hout (ok_ne (by simpa using hport) (by simp))
  | processed n hp hn => exact absurd hout (ok_ne ((processEffect_port hn).trans hport) (processEffect_cmdOut hn))
  | shaped _ _ h' => rw [h'] at hi; cases hi

end

/-! Responses on either port (R80). -/

theorem sentOn_send (p : Port) (ws : List Word) (s : State) : sentOn p (send p ws s) = sentOn p s ++ ws := by
  cases p <;> rfl

theorem sentOn_respond (c : Code) {p : Port} {s : State} (h : s.port = p) :
    sentOn p (respond c s) = sentOn p s ++ [codeWord c] := by
  rw [respond, h, sentOn_send]

theorem sentOn_raise (c : Code) {p : Port} {s : State} (h : s.port = p) :
    sentOn p (raise c s) = sentOn p s ++ [codeWord c] := by
  cases p with
  | cmd => rw [raise_of_cmd c s h]; rfl
  | ctl => rw [raise_of_ctl c s h]; rfl

theorem isCommand_of_legalOn {p : Port} {i : Instr} (h : i.legalOn p = true) : i.isCommand = true := by
  cases p with
  | cmd => exact h
  | ctl =>
    cases i with
    | wrparam | rdparam => rfl
    | prepare | process | rdcoef | rdstat | coefLS | coefHS | coefPK | coefHP | coefLP => cases h

theorem sentOn_respondData (d : Word) {p : Port} {s : State} (h : s.port = p) :
    sentOn p (respondData d s) = sentOn p s ++ [0#32, d] := by
  rw [respondData, h, sentOn_send, codeWord]

/-- One response word, and a data word after a read's OK only. -/
theorem response_of_executes {s t : State} {i : Instr} (h : Executes s i t) (hi : i.legalOn s.port = true) :
    (∃ c, sentOn s.port t = sentOn s.port s ++ [codeWord c] ∧ (Reads i → c ≠ .ok)) ∨
      ∃ d, sentOn s.port t = sentOn s.port s ++ [0#32, d] ∧ Reads i := by
  cases h with
  | refused _ c _ hc => exact .inl ⟨c, sentOn_raise c rfl, fun _ => hc⟩
  | stored b f d r =>
    refine .inl ⟨.ok, ?_, by simp [Reads]⟩
    refine (sentOn_respond .ok (s := { s with params := setParam s.params r (storedWord f d) }) rfl).trans ?_
    cases s.port <;> rfl
  | answered _ d hr => exact .inr ⟨d, sentOn_respondData d rfl, hr⟩
  | prepared f m n =>
    have hcmd : s.port = .cmd := eq_cmd_of_legalOn hi rfl
    refine .inl ⟨.ok, (sentOn_respond .ok (by simp)).trans ?_, by simp [Reads]⟩
    simp [hcmd, sentOn]
  | processed n hp hn =>
    have hcmd : s.port = .cmd := eq_cmd_of_legalOn hi rfl
    refine .inl ⟨.ok, (sentOn_respond .ok (processEffect_port hn)).trans ?_, by simp [Reads]⟩
    simp [hcmd, sentOn, processEffect_cmdOut hn]
  | shaped _ _ hj =>
    rw [isCommand_of_legalOn hi] at hj
    cases hj

/-- Settles O22: the response of each outcome. -/
theorem everyCommandIsAnsweredOnce : Obligations.EveryCommandIsAnsweredOnce := by
  intro i s hi
  obtain ⟨t, ht, he⟩ := exec_executes i s
  exact ⟨t, ht, response_of_executes he hi⟩

/-- Settles O18: outcome by outcome. -/
theorem onlyPrepareWritesTheConfiguration : Obligations.OnlyPrepareWritesTheConfiguration :=
  fun _ _ _ hi h => cfg_of_executes (executes_of_exec h) hi

/-- Settles O19: outcome by outcome. -/
theorem engineNeverWritesAParameter : Obligations.EngineNeverWritesAParameter :=
  fun _ _ _ hi hq h => params_of_executes (executes_of_exec h) hi hq

/-- Settles O21: every other outcome answers OK. -/
theorem refusedCommandHasNoPartialEffect : Obligations.RefusedCommandHasNoPartialEffect :=
  fun _ _ _ _ hport hi h hout hc => refused_of_response (executes_of_exec h) hport hi hout hc

end Sys2Proof.Machine

/-! The step: whom it serves, and the invariant of every step (R36, R50, R52, R72, R82, R201, R202). -/

namespace Sys2Proof.Machine

open Sys2Proof Sys2Proof.Claims

/-! The step by what is served. -/

theorem step_of_turnOf {s : State} {p : Port} (h : nextTurn s = turnOf p) : step s = servePort exec p (dropTurn s) := by
  unfold step
  rw [h]
  cases p <;> rfl

theorem step_of_internal {s : State} {tag : BitVec 3} (h : nextTurn s = .internal tag) :
    step s = serveInternal exec tag (dropTurn s) := by
  unfold step
  rw [h]

theorem step_of_mem {s : State} (h : nextTurn s = .mem) : step s = serveMem (dropTurn s) := by
  unfold step
  rw [h]

@[simp] theorem waiting_dropTurn (p : Port) (s : State) : waiting p (dropTurn s) = waiting p s := by cases p <;> rfl

@[simp] theorem positionOf_dropTurn (p : Port) (s : State) : positionOf p (dropTurn s) = positionOf p s := by
  cases p <;> rfl

@[simp] theorem waiting_consume (p : Port) (len : Nat) (rest : List Word) (s : State) :
    waiting p (consume p len rest s) = rest := by cases p <;> rfl

@[simp] theorem positionOf_consume (p : Port) (len : Nat) (rest : List Word) (s : State) :
    positionOf p (consume p len rest s) = positionOf p s + len := by cases p <;> rfl

theorem fetch_of_short {p : Port} {ws : List Word} (h : ws = [] ∨ ∃ w v, ws = w :: v ∧ v.length + 1 < wordLength w) :
    fetch p ws = .wait := by
  rcases h with rfl | ⟨w, v, rfl, hlen⟩
  · rfl
  · rw [← opLength_eq_wordLength] at hlen
    simp [fetch, hlen]

/-- Settles O7: the port that is served has its command fetched. -/
theorem stepRunsTheDecodedCommand : Obligations.StepRunsTheDecodedCommand := by
  intro s p i len rest hturn hfetch
  rw [step_of_turnOf hturn, servePort, waiting_dropTurn, hfetch]

theorem decodeTag_of_reserved : ∀ tag : BitVec 3, 5 ≤ tag.toNat → decodeTag tag = .error .reservedTag := by decide

/-- Settles O8: by what the tag decodes to. -/
theorem stepRunsAnInternalOperation : Obligations.StepRunsAnInternalOperation := by
  refine fun s tag hturn => ⟨fun i hi => ?_, fun htag => ?_⟩ <;> rw [step_of_internal hturn, serveInternal]
  · rw [hi]
  · rw [decodeTag_of_reserved tag htag]

/-- Settles O9: a command that is not whole is not fetched. -/
theorem commandWaitsForAllItsWords : Obligations.CommandWaitsForAllItsWords := by
  refine ⟨opLength_eq_wordLength, fun s p hturn hshort => ?_⟩
  rw [step_of_turnOf hturn, servePort, waiting_dropTurn, fetch_of_short hshort]

/-! A whole command on a port (R36, R187). -/

/-- A response leaves the input streams alone. -/
theorem stream_raise (p : Port) (c : Code) (s : State) :
    waiting p (raise c s) = waiting p s ∧ positionOf p (raise c s) = positionOf p s := by
  cases p <;> simp [waiting, positionOf]

/-- A command legal on its port leaves that port's stream where taking its words put it. -/
theorem stream_of_legal {s t : State} {i : Instr} {p : Port} (h : Executes s i t) (hi : i.legalOn p = true) :
    waiting p t = waiting p s ∧ positionOf p t = positionOf p s := by
  obtain ⟨hin, hptr, hctl⟩ := stream_of_executes h
  cases p with
  | cmd => exact ⟨hin, hptr⟩
  | ctl => exact hctl hi

/-- Settles O10: an illegal command by `raise`, a legal one by its outcome. -/
theorem everyCommandMovesTheStreamByItsLength : Obligations.EveryCommandMovesTheStreamByItsLength := by
  intro s p w ws hturn hin hlen
  have hcmd (len : Nat) (rest : List Word) (hp : p = .ctl) :
      (consume p len rest (dropTurn s)).cmdPtr = s.cmdPtr ∧ (consume p len rest (dropTurn s)).cmdIn = s.cmdIn := by
    subst hp; exact ⟨rfl, rfl⟩
  cases hd : decode p w (ws.getD 0 0#32) (ws.getD 1 0#32) (ws.getD 2 0#32) with
  | error e =>
    have hill := (illegalWord_iff_rejects p w _ _ _).2 ⟨e, hd⟩
    obtain ⟨hwait, hpos⟩ := stream_raise p .illegal (consume p (wordLength w) (ws.drop (wordLength w - 1)) (dropTurn s))
    refine ⟨_, step_of_illegalWord p s w ws hturn hin hlen hill, ?_, ?_, fun hp => ?_⟩
    · rw [hpos, positionOf_consume, positionOf_dropTurn]
    · rw [hwait, waiting_consume]
    · rw [raise_cmdPtr, raise_cmdIn]
      exact hcmd _ _ hp
  | ok i =>
    rw [← opLength_eq_wordLength] at hlen ⊢
    obtain ⟨t, ht, he⟩ := exec_executes i (consume p (opLength w) (ws.drop (opLength w - 1)) (dropTurn s))
    obtain ⟨hwait, hpos⟩ := stream_of_legal he (legalOn_of_accepts (accepts_of_decode hd))
    obtain ⟨hcin, hcptr, -⟩ := stream_of_executes he
    refine ⟨t, ?_, ?_, ?_, fun hp => ?_⟩
    · rw [stepRunsTheDecodedCommand s p i _ _ hturn (hin ▸ fetch_of_decode hlen hd), ht]
    · rw [hpos, positionOf_consume, positionOf_dropTurn]
    · rw [hwait, waiting_consume]
    · rw [hcin, hcptr]
      exact hcmd _ _ hp

/-! Stops (R50, R83, R195). -/

/-- A port never stops. -/
theorem servePort_next (p : Port) (s : State) : ∃ t, servePort exec p s = .next t := by
  unfold servePort
  split
  · exact ⟨_, rfl⟩
  · exact ⟨_, rfl⟩
  · next i len rest _ => exact (exec_executes i _).imp fun _ h => h.1

/-- The memory port faults outside `BUF` only, and refuses nothing. -/
theorem serveMem_stops (s : State) :
    (∀ r, serveMem s ≠ .refused r) ∧
      ∀ f, serveMem s = .fault f → ∃ k a, bufWords ≤ a ∧
        (s.memIn.head? = some ⟨k, .read a⟩ ∨ ∃ w, s.memIn.head? = some ⟨k, .write a w⟩) := by
  unfold serveMem
  split
  · exact ⟨by simp, by simp⟩
  · next k a rest hm =>
    split
    · exact ⟨by simp, by simp⟩
    · next ha => exact ⟨by simp, fun _ _ => ⟨k, a, Nat.not_lt.1 ha, .inl (by rw [hm]; rfl)⟩⟩
  · next k a w rest hm =>
    split
    · exact ⟨by simp, by simp⟩
    · next ha => exact ⟨by simp, fun _ _ => ⟨k, a, Nat.not_lt.1 ha, .inr ⟨w, by rw [hm]; rfl⟩⟩⟩

/-- An internal operation never faults, and is refused for a reserved tag only. -/
theorem serveInternal_stops (tag : BitVec 3) (s : State) :
    (∀ f, serveInternal exec tag s ≠ .fault f) ∧ ∀ r, serveInternal exec tag s = .refused r → 5 ≤ tag.toNat := by
  unfold serveInternal
  split
  · next i _ =>
    obtain ⟨t, ht, -⟩ := exec_executes i s
    rw [ht]
    exact ⟨by simp, by simp⟩
  · next e he =>
    have htag : ∀ t : BitVec 3, (decodeTag t).isOk = false → 5 ≤ t.toNat := by decide
    exact ⟨by simp, fun _ _ => htag tag (by rw [he]; rfl)⟩

/-- Settles O11: port by port. -/
theorem onlyMemoryPortAndReservedTagsStop : Obligations.OnlyMemoryPortAndReservedTagsStop := by
  have hport {s : State} (p : Port) (h : nextTurn s = turnOf p) : ∃ t, step s = .next t := by
    rw [step_of_turnOf h]
    exact servePort_next p _
  refine ⟨fun s f h => ?_, fun s r h => ?_⟩
  · cases hturn : nextTurn s with
    | cmd => obtain ⟨t, ht⟩ := hport .cmd hturn; rw [ht] at h; cases h
    | ctl => obtain ⟨t, ht⟩ := hport .ctl hturn; rw [ht] at h; cases h
    | mem =>
      rw [step_of_mem hturn] at h
      exact ⟨rfl, (serveMem_stops (dropTurn s)).2 f h⟩
    | internal tag =>
      rw [step_of_internal hturn] at h
      exact absurd h ((serveInternal_stops tag _).1 f)
  · cases hturn : nextTurn s with
    | cmd => obtain ⟨t, ht⟩ := hport .cmd hturn; rw [ht] at h; cases h
    | ctl => obtain ⟨t, ht⟩ := hport .ctl hturn; rw [ht] at h; cases h
    | mem =>
      rw [step_of_mem hturn] at h
      exact absurd h ((serveMem_stops _).1 r)
    | internal tag =>
      rw [step_of_internal hturn] at h
      exact ⟨tag, rfl, (serveInternal_stops tag _).2 r h⟩

/-! The memory port (R52, R58 (d)). -/

theorem serveMem_read (s : State) {k a : Nat} {rest : List MemAccess} (hm : s.memIn = ⟨k, .read a⟩ :: rest)
    (ha : a < bufWords) : serveMem s = .next { s with memIn := rest, memOut := s.memOut ++ [bufRead s.buf a] } := by
  simp [serveMem, hm, ha]

theorem serveMem_write (s : State) {k a : Nat} {w : Word} {rest : List MemAccess}
    (hm : s.memIn = ⟨k, .write a w⟩ :: rest) (ha : a < bufWords) :
    serveMem s = .next { s with memIn := rest, buf := bufWrite s.buf a w } := by
  simp [serveMem, hm, ha]

theorem memReady_eq {s : State} {q : MemAccess} {rest : List MemAccess} {w : Word} {ws : List Word}
    (hm : s.memIn = q :: rest) (hc : s.cmdIn = w :: ws) :
    memReady s = decide (q.after < s.cmdPtr + wordLength w) := by
  simp only [memReady, commandEnd, hm, hc, opLength_eq_wordLength]

/-- While an access is due the CMD port is not served, and the RT agent's turn serves the access. -/
theorem nextTurn_of_memReady {s : State} (h : memReady s = true) :
    nextTurn s ≠ .cmd ∧ (s.turns = [] ∨ s.turns.head? = some .rt → nextTurn s = .mem) := by
  have hturn : s.turns = [] ∨ s.turns.head? = some .rt → nextTurn s = .mem := by
    unfold nextTurn rtServed
    rcases s.turns with _ | ⟨t, ts⟩
    · simp [h]
    · rintro (ht | ht)
      · cases ht
      · cases ht; simp [h]
  refine ⟨fun hc => ?_, hturn⟩
  rcases nextTurn_cases s with ⟨-, hn, -⟩ | ⟨hn, -⟩ | ⟨hn, -⟩ | ⟨tag, hn, -⟩
  · rw [h] at hn; cases hn
  all_goals rw [hc] at hn; cases hn

/-- While no access is due the memory port is not served, and the RT agent's turn serves its command. -/
theorem nextTurn_of_not_memReady {s : State} (h : memReady s = false) :
    nextTurn s ≠ .mem ∧ (s.turns.head? = some .rt → nextTurn s = .cmd) := by
  constructor
  · intro hm
    rcases nextTurn_cases s with ⟨hn, -⟩ | ⟨-, hn, -⟩ | ⟨hn, -⟩ | ⟨tag, hn, -⟩
    case inr.inl => rw [h] at hn; cases hn
    all_goals rw [hm] at hn; cases hn
  · unfold nextTurn rtServed
    rcases s.turns with _ | ⟨t, ts⟩ <;> intro ht <;> cases ht
    simp [h]

/-- Settles O12: the access by what the memory port does, the order by whether it is due. -/
theorem memoryPortReadsAndWritesOneWord : Obligations.MemoryPortReadsAndWritesOneWord := by
  constructor
  · refine fun s j a rest hturn ha => ⟨fun hm => ?_, fun w hm =>
      ⟨{ s with turns := s.turns.tail, memIn := rest, buf := bufWrite s.buf a w }, ?_, rfl, bufRead_bufWrite_same s.buf a w,
        fun k hk => bufByte_bufWrite_ne s.buf a k w hk⟩⟩
    · rw [step_of_mem hturn, serveMem_read (dropTurn s) hm ha]
      rfl
    · rw [step_of_mem hturn, serveMem_write (dropTurn s) hm ha]
      rfl
  · refine fun s q rest w ws hm hc => ⟨fun h => ?_, fun h => ?_⟩
    · exact nextTurn_of_memReady (by simpa [memReady_eq hm hc] using h)
    · exact nextTurn_of_not_memReady (by simpa [memReady_eq hm hc] using h)

/-! The CTL port (R201). -/

/-- On the CTL port every command runs as its effect there. -/
theorem servePort_ctl (s : State) : servePort exec .ctl s = .next (serveCtl s) := by
  cases h : fetch .ctl s.ctlIn with
  | wait => simp only [servePort, serveCtl, waiting, h]
  | illegal why len rest => simp only [servePort, serveCtl, waiting, h]
  | command i len rest =>
    have hrun : exec i (consume .ctl len rest s) = .next (ctlEffect i (consume .ctl len rest s)) := by
      obtain ⟨w, v, -, -, -, -, hd⟩ := fetch_command _ _ _ _ _ h
      obtain ⟨b, f, d, rfl⟩ | ⟨b, f, rfl⟩ := decode_ctl _ _ _ _ _ hd
      · rfl
      · rfl
    simp only [servePort, serveCtl, waiting, h, hrun]

/-- Settles O20: the frame of a step of the CTL port. -/
theorem ctlPortReachesParametersOnly : Obligations.CtlPortReachesParametersOnly := by
  intro s t hturn h
  rw [step_of_turnOf (p := .ctl) hturn, servePort_ctl] at h
  cases h
  rw [serveCtl_frame (dropTurn s)]
  rfl

/-! The status bits through a step (R28, R29). -/

/-- Settles O16: every kind of step, and an instruction outcome by outcome. -/
theorem preparedAndErrAreNeverCleared : Obligations.PreparedAndErrAreNeverCleared := by
  intro s t h
  rcases step_cases s t h with rfl | ⟨p, e, len, rest, -, rfl⟩ | ⟨p, i, len, rest, -, hx⟩ | ⟨tag, i, -, hx⟩ |
      ⟨k, a, rest, -, -, rfl⟩ | ⟨k, a, w, rest, -, -, rfl⟩
  · exact ⟨id, id⟩
  · obtain ⟨hprep, -, herr⟩ := raise_st .illegal (consume p len rest (dropTurn s))
    rw [consume_st, dropTurn_st] at hprep herr
    exact ⟨fun hs => hprep.trans hs, herr⟩
  · simpa using status_of_executes (executes_of_exec hx)
  · simpa using status_of_executes (executes_of_exec hx)
  · exact ⟨id, id⟩
  · exact ⟨id, id⟩

/-! The invariant. -/

section

variable {s : State}

theorem inv_dropTurn (h : s.Inv) : (dropTurn s).Inv := State.Inv_of_same_fields s _ h rfl rfl rfl rfl rfl

theorem inv_consume (p : Port) (len : Nat) (rest : List Word) (h : s.Inv) : (consume p len rest s).Inv := by
  apply State.Inv_of_same_fields s _ h <;> simp

theorem inv_raise (c : Code) (h : s.Inv) : (raise c s).Inv :=
  State.Inv_of_same_fields s _ h (raise_buf c s) (raise_params c s) (raise_cfg c s) (raise_st c s).1 (raise_st c s).2.1

theorem inv_respond (c : Code) (h : s.Inv) : (respond c s).Inv := by
  apply State.Inv_of_same_fields s _ h <;> simp

theorem inv_respondData (d : Word) (h : s.Inv) : (respondData d s).Inv := by
  apply State.Inv_of_same_fields s _ h <;> simp

theorem inv_factoryRun (sh : Shape) (h : s.Inv) : (factoryRun sh s).Inv := by
  apply State.Inv_of_same_fields s _ h <;> simp

/-- New parameters keep the invariant when their BYPASS registers hold one bit. -/
theorem inv_of_params (v : ParamFile) (h : s.Inv)
    (hv : ∀ b, getParam v (bypassReg b) = 0#32 ∨ getParam v (bypassReg b) = 1#32) : ({ s with params := v } : State).Inv := by
  obtain ⟨hwf, hin, -, hrate, hblock, hch, hsubst⟩ := h
  exact ⟨hwf, hin, hv, hrate, hblock, hch, hsubst⟩

/-- New memory keeps the invariant when it is canonical and its new cells lie inside `BUF`. -/
theorem inv_of_buf (m : Memory) (h : s.Inv) (hm : Memory.wf m = true) (hc : ∀ c ∈ m, c ∈ s.buf ∨ c.1 / 4 < bufWords) :
    ({ s with buf := m } : State).Inv := by
  obtain ⟨-, hin, hby, hrate, hblock, hch, hsubst⟩ := h
  refine ⟨hm, fun c hcm => ?_, hby, hrate, hblock, hch, hsubst⟩
  rcases hc c hcm with h | h
  · exact hin c h
  · show c.1 < 4 * bufWords
    omega

theorem inv_write {a : Nat} (w : Word) (h : s.Inv) (ha : a < bufWords) : ({ s with buf := bufWrite s.buf a w } : State).Inv := by
  refine inv_of_buf _ h (bufWrite_wf _ _ _ h.bufWf) fun c hc => ?_
  exact (mem_bufWrite _ _ _ _ hc).imp_right fun hca => hca.trans_lt ha

/-- A sampling phase keeps the BYPASS registers at one bit, and all else the invariant speaks of (R23). -/
theorem inv_samplingPhase (h : s.Inv) : (samplingPhase s).Inv := by
  have hby : ∀ b, getParam (samplingPhase s).params (bypassReg b) = 0#32 ∨
      getParam (samplingPhase s).params (bypassReg b) = 1#32 := fun b =>
    samplePhase_bypassBits _ _ { s with sampling := s.sampling.tail } h.bypassBits b
  exact State.Inv_of_same_fields _ _ (inv_of_params _ h hby) (samplingPhase_buf s) rfl (samplingPhase_cfg s)
    (by rw [samplingPhase_st]) (by rw [samplingPhase_st])

/-- The configuration of an accepted PREPARE is valid (R27, R171, R172). -/
theorem inv_prepareEffect {f m n : Word} (h : s.Inv) (hcheck : prepareCheck m n = none) : (prepareEffect f m n s).Inv := by
  obtain ⟨hch, hlo, hhi⟩ := (prepareCheck_eq_none_iff m n).1 hcheck
  refine ⟨?_, ?_, ?_, fun _ => ?_, fun _ => ?_, fun _ => ?_, fun hsub => ?_⟩
  · rw [prepareEffect_buf]; exact h.bufWf
  · rw [prepareEffect_buf]; exact h.bufInside
  · rw [prepareEffect_params]; exact h.bypassBits
  · rw [prepareEffect_cfg]; exact fsguard_valid f
  · rw [prepareEffect_cfg]; exact ⟨hlo, hhi⟩
  · rw [prepareEffect_cfg]; exact hch
  · rw [prepareEffect_st] at hsub ⊢
    rw [prepareEffect_cfg]
    have hinvalid := (fsguard_ne_iff f).1 (of_decide_eq_true hsub)
    exact ⟨rfl, fsguard_of_invalid (Bool.and_eq_false_iff.1 hinvalid)⟩

/-- The lanes a PROCESS writes lie inside `BUF` (R63, R186). -/
theorem inv_processEffect {n : Nat} (h : s.Inv) (hp : s.st.prepared = true) (hn : n ≤ s.cfg.maxBlock.toNat) :
    (processEffect n s).Inv := by
  obtain ⟨hframe, hwf, hcells⟩ :=
    runBandsFold_spec n allBands (recomputeAll (samplingPhase s)) (by rw [recomputeAll_cfg, samplingPhase_cfg]; exact hn)
  rw [← runBands, ← processEffect, recomputeAll_buf, samplingPhase_buf] at hwf hcells
  have hbuf : ({ samplingPhase s with buf := (processEffect n s).buf } : State).Inv := by
    refine inv_of_buf _ (inv_samplingPhase h) (hwf h.bufWf) fun c hc => ?_
    rw [samplingPhase_buf]
    refine (hcells c hc).imp_right ?_
    rintro ⟨ch, j, -, hj, haddr⟩
    rw [haddr]
    refine bufAddr_lt_bufWords ?_ (n := n) ?_ ch.isLt hj <;> rw [recomputeAll_cfg, samplingPhase_cfg]
    · exact (h.blockValid hp).2
    · exact hn
  rw [processEffect_frame hn]
  exact State.Inv_of_same_fields _ _ hbuf rfl rfl rfl rfl rfl

theorem inv_of_executes {t : State} {i : Instr} (h : s.Inv) (hx : Executes s i t) : t.Inv := by
  cases hx with
  | refused _ c => exact inv_raise c h
  | stored b f d r hr => exact inv_respond .ok (inv_of_params _ h (setParam_bypassBits s.params b f r d hr h.bypassBits))
  | answered _ d => exact inv_respondData d h
  | prepared f m n hcheck => exact inv_respond .ok (inv_prepareEffect (inv_samplingPhase h) hcheck)
  | processed n hp hn => exact inv_respond .ok (inv_processEffect h hp hn)
  | shaped _ sh => exact inv_factoryRun sh h

end

/-- Settles O13: no memory cells, one-bit BYPASS registers, and no configuration yet. -/
theorem invariantHoldsAtReset : Obligations.InvariantHoldsAtReset where
  bufWf := reset_buf_wf
  bufInside := fun c hc => by cases hc
  bypassBits := fun b => by cases b <;> decide
  rateValid := fun h => by cases h
  blockValid := fun h => by cases h
  channelsValid := fun h => by cases h
  substDefault := fun h => by cases h

/-- Settles O14: every kind of step, and an instruction outcome by outcome. -/
theorem everyStepKeepsTheInvariant : Obligations.EveryStepKeepsTheInvariant := by
  intro s t hinv h
  have hdrop := inv_dropTurn hinv
  rcases step_cases s t h with rfl | ⟨p, e, len, rest, -, rfl⟩ | ⟨p, i, len, rest, -, hx⟩ | ⟨tag, i, -, hx⟩ |
      ⟨k, a, rest, -, -, rfl⟩ | ⟨k, a, w, rest, ha, -, rfl⟩
  · exact hdrop
  · exact inv_raise _ (inv_consume p len rest hdrop)
  · exact inv_of_executes (inv_consume p len rest hdrop) (executes_of_exec hx)
  · exact inv_of_executes hdrop (executes_of_exec hx)
  · exact State.Inv_of_same_fields _ _ hdrop rfl rfl rfl rfl rfl
  · exact State.Inv_of_same_fields _ _ (inv_write w hdrop ha) rfl rfl rfl rfl rfl

/-- Settles O15: the reset values written out. -/
theorem registersAtReset : Obligations.RegistersAtReset := by
  unfold Obligations.RegistersAtReset
  decide

end Sys2Proof.Machine

/-! R155, R158, R173, R176, R180: an accepted PROCESS as the cascade on every lane. -/

namespace Sys2Proof.Claims

open Sys2Proof Sys2Proof.Machine

/-- The bands of a channel as an accepted PROCESS runs them: the sets of phase 2, the sampled bypass words, the pairs held
before. -/
def processStages (s : State) (ch : Fin Config.maxCh) : List (Stage Word) :=
  stagesOf (fun b => bandcoef b (samplingPhase s).psnap s.cfg.fs) (samplingPhase s).psnap s ch

/-- A lane is read from `BUF` at the addresses the block capacity gives. -/
theorem lane_congr {s t : State} (hbuf : t.buf = s.buf) (hcfg : t.cfg = s.cfg) (ch : Fin Config.maxCh) (n : Nat) :
    lane t ch n = lane s ch n := by
  simp only [lane, bufAddr, hbuf, hcfg]

theorem getDelay_congr {s t : State} (h : t.delay = s.delay) (b : Band) (ch : Fin Config.maxCh) :
    getDelay t b ch = getDelay s b ch := by
  rw [getDelay, h, getDelay]

theorem getCoef_congr {s t : State} (h : t.coef = s.coef) (b : Band) : getCoef t b = getCoef s b := by
  rw [getCoef, h, getCoef]

/-- What is known of every band is known band by band. -/
theorem eq_of_map_allBands {α : Type} {f g : Band → α} (h : allBands.map f = allBands.map g) (b : Band) : f b = g b :=
  List.map_inj_left.1 h b (by cases b <;> decide)

section

variable {n : Nat} {s : State} (hn : n ≤ s.cfg.maxBlock.toNat)

include hn

/-- Phase 3 on the lanes, the pairs of absent channels, and the bytes outside the lanes (R155, R176). -/
theorem processEffect_lanes :
    (∀ ch : Fin Config.maxCh, ch.val < s.cfg.nch.toNat →
      lane (processEffect n s) ch n = (cascade arith32 (processStages s ch) (lane s ch n)).1 ∧
      allBands.map (fun b => getDelay (processEffect n s) b ch) =
        (cascade arith32 (processStages s ch) (lane s ch n)).2.map Stage.pair) ∧
    (∀ (b : Band) (ch : Fin Config.maxCh), s.cfg.nch.toNat ≤ ch.val → getDelay (processEffect n s) b ch = getDelay s b ch) ∧
    (∀ a, (∀ (ch : Fin Config.maxCh) (k : Nat), ch.val < s.cfg.nch.toNat → k < n → a / 4 ≠ bufAddr s ch k) →
      Memory.read? (processEffect n s).buf a = Memory.read? s.buf a) := by
  have hcoef := (recomputeAll_eq (samplingPhase s)).2
  have hcfg : (recomputeAll (samplingPhase s)).cfg = s.cfg := by rw [recomputeAll_cfg, samplingPhase_cfg]
  have hbuf : (recomputeAll (samplingPhase s)).buf = s.buf := by rw [recomputeAll_buf, samplingPhase_buf]
  have hdelay : (recomputeAll (samplingPhase s)).delay = s.delay := by rw [recomputeAll_delay, samplingPhase_delay]
  have hsnap : (recomputeAll (samplingPhase s)).psnap = (samplingPhase s).psnap := recomputeAll_psnap _
  have hrun : processEffect n s = allBands.foldl (runBand n) (recomputeAll (samplingPhase s)) := rfl
  rw [samplingPhase_cfg] at hcoef
  generalize recomputeAll (samplingPhase s) = u at *
  have hstages (ch : Fin Config.maxCh) : stagesIn allBands u ch = processStages s ch := by
    simp only [stagesIn, processStages, stagesOf, hcoef, hsnap, getDelay_congr hdelay]
  have haddr (ch k : Nat) : bufAddr u ch k = bufAddr s ch k := by rw [bufAddr, hcfg, bufAddr]
  obtain ⟨hlanes, hpairs, hbytes⟩ := runBandsFold_lanes n allBands (by decide) u (hcfg ▸ hn)
  rw [hrun]
  refine ⟨fun ch hch => ?_, fun b ch hch => ?_, fun a ha => ?_⟩
  · rw [← hstages, ← lane_congr hbuf hcfg]
    exact hlanes ch (hcfg ▸ hch)
  · rw [hpairs b ch (.inr (hcfg ▸ hch)), getDelay_congr hdelay]
  · rw [hbytes a fun ch k hch hk => haddr ch k ▸ ha ch k (hcfg ▸ hch) hk, hbuf]

end

section

variable {n : Word} {s : State} (hp : s.st.prepared = true) (hn : n.toNat ≤ s.cfg.maxBlock.toNat)

include hp hn

/-! The response changes none of what the lanes, the pairs and the sets are read from. -/

theorem lane_process (ch : Fin Config.maxCh) (k : Nat) : lane (process n s) ch k = lane (processEffect n.toNat s) ch k := by
  rw [process_eq_respond hp hn]
  exact lane_congr (respond_buf _ _) (respond_cfg _ _) ch k

theorem getDelay_process (b : Band) (ch : Fin Config.maxCh) :
    getDelay (process n s) b ch = getDelay (processEffect n.toNat s) b ch := by
  rw [process_eq_respond hp hn]
  exact getDelay_congr (respond_delay _ _) b ch

theorem getCoef_process (b : Band) : getCoef (process n s) b = bandcoef b (samplingPhase s).psnap s.cfg.fs := by
  rw [process_eq_respond hp hn, getCoef_congr (respond_coef _ _), getCoef_processEffect hn]

theorem stagesOf_process (ch : Fin Config.maxCh) :
    stagesOf (getCoef (process n s)) (process n s).psnap s ch = processStages s ch := by
  have hsnap : (process n s).psnap = (samplingPhase s).psnap := by
    rw [process_eq_respond hp hn, respond_psnap, processEffect_psnap hn]
  simp only [processStages, stagesOf, getCoef_process hp hn, hsnap]

theorem process_lanes (ch : Fin Config.maxCh) (hch : ch.val < s.cfg.nch.toNat) :
    lane (process n s) ch n.toNat = (cascade arith32 (processStages s ch) (lane s ch n.toNat)).1 ∧
    allBands.map (fun b => getDelay (process n s) b ch) =
      (cascade arith32 (processStages s ch) (lane s ch n.toNat)).2.map Stage.pair := by
  rw [lane_process hp hn]
  simp only [getDelay_process hp hn]
  exact (processEffect_lanes hn).1 ch hch

end

/-- Settles O32: phase 3 is the cascade on every lane. -/
theorem acceptedProcessFiltersEveryLane : Obligations.AcceptedProcessFiltersEveryLane := by
  intro s n hport hp hn
  obtain ⟨-, hpairs, hbytes⟩ := processEffect_lanes hn
  refine ⟨_, exec_process n s, fun ch hch => ?_, fun b ch hch => ?_, fun a ha => ?_⟩
  · rw [stagesOf_process hp hn]
    exact process_lanes hp hn ch hch
  · rw [getDelay_process hp hn, hpairs b ch hch]
  · rw [process_eq_respond hp hn, respond_buf, hbytes a ha]

/-- Settles O38: the cascade is the same frame by frame. -/
theorem frameByFrameEqualsBandByBand : Obligations.FrameByFrameEqualsBandByBand := by
  intro s n hport hp hn
  refine ⟨_, exec_process n s, fun ch hch => ?_⟩
  rw [stagesOf_process hp hn, ← cascade_eq_frameRun]
  exact process_lanes hp hn ch hch

/-! Two blocks (R180). -/

theorem lane_append (s : State) (ch : Fin Config.maxCh) (n1 n2 : Nat) :
    lane s ch (n1 + n2) = lane s ch n1 ++ (List.range n2).map fun k => bufRead s.buf (bufAddr s ch (n1 + k)) := by
  rw [lane, List.range_add, List.map_append, List.map_map]
  rfl

/-- Stages are their coefficients and switches together with their pairs. -/
theorem stages_ext {F : Type} {gs hs : List (Stage F)}
    (h : gs.map (fun g => (g.coefs, g.on)) = hs.map fun g => (g.coefs, g.on))
    (hpair : gs.map Stage.pair = hs.map Stage.pair) : gs = hs := by
  induction gs generalizing hs with
  | nil => exact (List.map_eq_nil_iff.1 h.symm).symm
  | cons g gs ih =>
    cases hs with
    | nil => cases h
    | cons g' hs =>
      simp only [List.map_cons, List.cons.injEq, Prod.mk.injEq] at h hpair
      obtain ⟨⟨hc, ho⟩, h⟩ := h
      obtain ⟨hp, hpair⟩ := hpair
      obtain ⟨c, o, p⟩ := g
      obtain ⟨c', o', p'⟩ := g'
      simp_all only [ih h hpair]

/-- A state that holds the pairs a cascade left continues with that cascade's stages. -/
theorem stagesOf_eq_cascade {coefs : Band → CoefSet Word} {v : ParamFile} {s u : State} {ch : Fin Config.maxCh}
    {xs : List Word}
    (h : allBands.map (fun b => getDelay u b ch) = (cascade arith32 (stagesOf coefs v s ch) xs).2.map Stage.pair) :
    stagesOf coefs v u ch = (cascade arith32 (stagesOf coefs v s ch) xs).2 := by
  refine stages_ext ?_ ?_
  · rw [cascade_stages]
    simp only [stagesOf, List.map_map, Function.comp_def]
  · rw [← h]
    simp only [stagesOf, List.map_map, Function.comp_def]

/-- Settles O37: the cascade on a block in two parts, the pairs carried over. -/
theorem blocksJoinIntoOneStream : Obligations.BlocksJoinIntoOneStream := by
  intro s n n1 n2 hport hp hq hsum hn
  have hn1 : n1.toNat ≤ s.cfg.maxBlock.toNat := by omega
  refine ⟨_, _, exec_process n s, exec_process n1 s, fun u huport hust hucfg huparams hudelay huq hulane => ?_⟩
  rw [process_eq_respond hp hn1, respond_st, processEffect_st hn1] at hust
  rw [process_eq_respond hp hn1, respond_cfg, processEffect_cfg hn1] at hucfg
  rw [process_eq_respond hp hn1, respond_params, processEffect_params hn1, samplingPhase_of_quiet hq] at huparams
  have hup : u.st.prepared = true := hust ▸ hp
  have hn2 : n2.toNat ≤ u.cfg.maxBlock.toNat := by rw [hucfg]; omega
  have hsnap : (samplingPhase u).psnap = (samplingPhase s).psnap := by
    rw [samplingPhase_of_quiet huq, samplingPhase_of_quiet hq]
    exact huparams
  have hlanes (ch : Fin Config.maxCh) (hch : ch.val < s.cfg.nch.toNat) :
      lane s ch n.toNat = lane s ch n1.toNat ++ lane u ch n2.toNat := by
    rw [hsum, lane_append]
    exact congrArg _ (List.map_congr_left fun k hk => (hulane ch k hch (List.mem_range.1 hk)).symm)
  have hstages (ch : Fin Config.maxCh) (hch : ch.val < s.cfg.nch.toNat) :
      processStages u ch = (cascade arith32 (processStages s ch) (lane s ch n1.toNat)).2 := by
    have hpairs := (process_lanes hp hn1 ch hch).2
    simp only [← getDelay_congr hudelay] at hpairs
    rw [processStages, hsnap, hucfg]
    exact stagesOf_eq_cascade hpairs
  refine ⟨_, exec_process n2 u, fun ch hch => ?_, fun b ch => ?_, fun b => ?_⟩
  · rw [(process_lanes hp hn ch hch).1, (process_lanes hp hn1 ch hch).1, (process_lanes hup hn2 ch (hucfg ▸ hch)).1,
      hlanes ch hch, cascade_append, hstages ch hch]
  · by_cases hch : ch.val < s.cfg.nch.toNat
    · refine eq_of_map_allBands (f := fun b => getDelay _ b ch) (g := fun b => getDelay _ b ch) ?_ b
      rw [(process_lanes hp hn ch hch).2, (process_lanes hup hn2 ch (hucfg ▸ hch)).2, hlanes ch hch, cascade_append,
        hstages ch hch]
    · have habsent := Nat.not_lt.1 hch
      rw [getDelay_process hp hn, getDelay_process hup hn2, (processEffect_lanes hn).2.1 b ch habsent,
        (processEffect_lanes hn2).2.1 b ch (hucfg ▸ habsent), getDelay_congr hudelay, getDelay_process hp hn1,
        (processEffect_lanes hn1).2.1 b ch habsent]
  · rw [getCoef_process hp hn, getCoef_process hup hn2, hsnap, hucfg]

/-! Two states with the same parameters and CTL stream (R158). -/

theorem serveCtl_congr {s s' : State} (hparams : s.params = s'.params) (hin : s.ctlIn = s'.ctlIn) :
    (serveCtl s).params = (serveCtl s').params ∧ (serveCtl s).ctlIn = (serveCtl s').ctlIn := by
  unfold serveCtl
  rw [hin]
  split
  · exact ⟨hparams, hin⟩
  · simp [hparams]
  · next i len rest h =>
    obtain ⟨w, v, -, -, -, -, hd⟩ := fetch_command _ _ _ _ _ h
    obtain ⟨b, f, d, rfl⟩ | ⟨b, f, rfl⟩ := decode_ctl _ _ _ _ _ hd
    · simp only [ctlEffect, wrparam]
      split <;> simp [hparams]
    · simp only [ctlEffect, rdparam]
      split <;> simp [hparams]

theorem iterate_serveCtlInside_congr (k : Nat) {s s' : State} (hparams : s.params = s'.params) (hin : s.ctlIn = s'.ctlIn) :
    (serveCtlInside^[k] s).params = (serveCtlInside^[k] s').params := by
  induction k generalizing s s' with
  | zero => exact hparams
  | succ k ih =>
    rw [Function.iterate_succ_apply, Function.iterate_succ_apply]
    exact ih (serveCtl_congr hparams hin).1 (serveCtl_congr hparams hin).2

/-- What a phase reads depends on the parameters, the CTL stream and the events. -/
theorem samplingPhase_psnap_congr {s s' : State} (hparams : s.params = s'.params) (hin : s.ctlIn = s'.ctlIn)
    (hevents : s.sampling = s'.sampling) : (samplingPhase s).psnap = (samplingPhase s').psnap := by
  refine ParamFile.ext_getParam _ _ fun r => ?_
  rw [samplingPhase, samplingPhase, getParam_samplePhase_all, getParam_samplePhase_all, hevents]
  congr 1
  exact iterate_serveCtlInside_congr _ hparams hin

theorem lane_raise (c : Code) (s : State) (ch : Fin Config.maxCh) (n : Nat) : lane (raise c s) ch n = lane s ch n :=
  lane_congr (raise_buf c s) (raise_cfg c s) ch n

theorem getDelay_raise (c : Code) (s : State) (b : Band) (ch : Fin Config.maxCh) :
    getDelay (raise c s) b ch = getDelay s b ch := getDelay_congr (raise_delay c s) b ch

/-- Settles O36: refused in both states alike, or the same cascade on the same lane. -/
theorem channelsAreIndependent : Obligations.ChannelsAreIndependent := by
  intro s s' t t' n ch hst hcfg hparams hin hevents hch hlane hpairs ht ht'
  rw [exec_process] at ht ht'
  cases ht
  cases ht'
  have refused (c : Code) (h : process n s = raise c s) (h' : process n s' = raise c s') :
      lane (process n s) ch n.toNat = lane (process n s') ch n.toNat ∧
        ∀ b, getDelay (process n s) b ch = getDelay (process n s') b ch := by
    rw [h, h', lane_raise, lane_raise]
    exact ⟨hlane, fun b => by rw [getDelay_raise, getDelay_raise, hpairs]⟩
  cases hp : s.st.prepared with
  | false => exact refused _ (process_of_unprepared n hp) (process_of_unprepared n (hst ▸ hp))
  | true =>
    rcases Nat.lt_or_ge s.cfg.maxBlock.toNat n.toNat with hn | hn
    · exact refused _ (process_of_too_long hp hn) (process_of_too_long (hst ▸ hp) (hcfg ▸ hn))
    · have hstages : processStages s ch = processStages s' ch := by
        simp only [processStages, stagesOf, samplingPhase_psnap_congr hparams hin hevents, hcfg, hpairs]
      obtain ⟨hl, hd⟩ := process_lanes hp hn ch hch
      obtain ⟨hl', hd'⟩ := process_lanes (s := s') (n := n) (hst ▸ hp) (hcfg ▸ hn) ch (hcfg ▸ hch)
      rw [← hstages, ← hlane] at hl' hd'
      exact ⟨hl.trans hl'.symm, eq_of_map_allBands (hd.trans hd'.symm)⟩

end Sys2Proof.Claims

/-! R88, R126, R196, R200: SAVE and LOAD, the bit ST.ERR, and what BANDCOEF reads. -/

namespace Sys2Proof.Machine

open Sys2Proof Sys2Proof.Claims

/-! SAVE and LOAD (R88). -/

theorem execAll_cons_of_next {i : Instr} {is : List Instr} {s t : State} (h : exec i s = .next t) :
    execAll (i :: is) s = execAll is t := by
  rw [execAll, h]

/-- RDPARAM of the registers of a list answers their words one after the other. -/
theorem execAll_rdparam (rs : List Reg) (s : State) (hport : s.port = .cmd) :
    execAll (rs.map fun r => .rdparam r.operands.1 r.operands.2) s =
      some { s with cmdOut := s.cmdOut ++ (rs.map fun r => [0#32, getParam s.params r]).flatten } := by
  induction rs generalizing s with
  | nil => simp [execAll]
  | cons r rs ih =>
    have hread : exec (.rdparam r.operands.1 r.operands.2) s =
        .next { s with cmdOut := s.cmdOut ++ [0#32, getParam s.params r] } := by
      rw [exec_rdparam, rdparam_of_regOf s (regOf_operands r)]
      simp [withSent, hport]
    rw [List.map_cons, execAll_cons_of_next hread]
    refine (ih { s with cmdOut := s.cmdOut ++ [0#32, getParam s.params r] } hport).trans ?_
    simp

/-- WRPARAM of the registers of a list stores their words and leaves the other registers. -/
theorem execAll_wrparam (v : ParamFile) (rs : List Reg) (u : State) :
    ∃ t, execAll (rs.map fun r => .wrparam r.operands.1 r.operands.2 (getParam v r)) u = some t ∧
      ∀ r, getParam t.params r = if r ∈ rs then storedWord r.operands.2 (getParam v r) else getParam u.params r := by
  induction rs generalizing u with
  | nil => exact ⟨u, rfl, by simp⟩
  | cons r rs ih =>
    have hwrite := exec_wrparam r.operands.1 r.operands.2 (getParam v r) u
    rw [wrparam_of_regOf _ u (regOf_operands r)] at hwrite
    obtain ⟨t, ht, hparams⟩ := ih (withSent [0#32] { u with params := setParam u.params r (storedWord r.operands.2 (getParam v r)) })
    refine ⟨t, by rw [List.map_cons, execAll_cons_of_next hwrite, ht], fun r' => ?_⟩
    rw [hparams r']
    by_cases hmem : r' ∈ rs
    · simp [hmem]
    · by_cases hr : r = r'
      · subst hr; simp [hmem, withSent]
      · simp [hmem, Ne.symm hr, withSent, getParam_setParam_ne _ _ _ _ hr]

/-- A word a register holds is stored unchanged, since a BYPASS register holds one bit (R23). -/
theorem storedWord_of_held {s : State} (h : s.Inv) (r : Reg) :
    storedWord r.operands.2 (getParam s.params r) = getParam s.params r := by
  have onebit (b : Band) : storedWord .bypass (getParam s.params (bypassReg b)) = getParam s.params (bypassReg b) := by
    rcases h.bypassBits b with hb | hb <;> rw [hb] <;> rfl
  cases r with
  | hpBypass => exact onebit .hp
  | lsBypass => exact onebit .ls
  | p1Bypass => exact onebit .p1
  | p2Bypass => exact onebit .p2
  | hsBypass => exact onebit .hs
  | lpBypass => exact onebit .lp
  | hpFreq | lsFreq | lsGain | lsQ | p1Freq | p1Gain | p1Q | p2Freq | p2Gain | p2Q | hsFreq | hsGain | hsQ | lpFreq => rfl

/-- Settles O27: register by register, every register being listed. -/
theorem saveThenLoadRestoresAllParameters : Obligations.SaveThenLoadRestoresAllParameters := by
  intro s u hinv hport
  refine ⟨⟨_, execAll_rdparam Reg.all s hport, rfl⟩, ?_⟩
  obtain ⟨t, ht, hparams⟩ := execAll_wrparam s.params Reg.all u
  refine ⟨t, ht, ParamFile.ext_getParam _ _ fun r => ?_⟩
  rw [hparams r, if_pos (Reg.mem_all r), storedWord_of_held hinv r]

/-! ST.ERR takes no part in any operation but `raise` (R200). -/

section

variable (e : Bool)

theorem respond_withErr (c : Code) (s : State) : respond c (withErr e s) = withErr e (respond c s) := by
  rw [respond_eq_withSent, respond_eq_withSent]; rfl

theorem respondData_withErr (d : Word) (s : State) : respondData d (withErr e s) = withErr e (respondData d s) := by
  rw [respondData_eq_withSent, respondData_eq_withSent]; rfl

/-- `raise` sets the bit on the CMD port and leaves it on the CTL port. -/
theorem raise_withErr (c : Code) (s : State) : ∃ e', raise c (withErr e s) = withErr e' (raise c s) := by
  cases h : s.port with
  | cmd => exact ⟨true, by rw [raise_of_cmd c s h, raise_of_cmd c (withErr e s) h]; rfl⟩
  | ctl => exact ⟨e, by rw [raise_of_ctl c s h, raise_of_ctl c (withErr e s) h]; rfl⟩

/-- A step of the CTL port raises on the CTL port, which leaves the bit. -/
theorem serveCtlInside_withErr (s : State) : serveCtlInside (withErr e s) = withErr e (serveCtlInside s) := by
  simp only [serveCtlInside, serveCtl, withErr]
  split
  · rfl
  · simp [raise, consume, respond, send]
  · next i len rest h =>
    obtain ⟨w, u, -, -, -, -, hd⟩ := fetch_command _ _ _ _ _ h
    obtain ⟨b, f, d, rfl⟩ | ⟨b, f, rfl⟩ := decode_ctl _ _ _ _ _ hd
    · simp only [ctlEffect, wrparam]
      split <;> simp [raise, consume, respond, send]
    · simp only [ctlEffect, rdparam]
      split <;> simp [raise, consume, respond, respondData, send]

theorem sampleReg_withErr (s : State) (r : Reg) : sampleReg r (withErr e s) = withErr e (sampleReg r s) := rfl

theorem samplePhase_withErr (es : List SampleTurn) (left : List Reg) (s : State) :
    samplePhase es left (withErr e s) = withErr e (samplePhase es left s) := by
  induction es generalizing left s with
  | nil => exact List.foldl_hom (withErr e) (sampleReg_withErr e)
  | cons ev es ih =>
    cases ev with
    | read r =>
      simp only [samplePhase, sampleReg_withErr, ih]
      split <;> rfl
    | ctl => simp only [samplePhase, serveCtlInside_withErr, ih]

theorem samplingPhase_withErr (s : State) : samplingPhase (withErr e s) = withErr e (samplingPhase s) :=
  samplePhase_withErr e _ _ { s with sampling := s.sampling.tail }

theorem recomputeBand_withErr (fs : Word) (s : State) (b : Band) :
    recomputeBand fs (withErr e s) b = withErr e (recomputeBand fs s b) := by
  simp only [recomputeBand, factoryLoad, factoryRun, setcoef, withErr]

theorem streset_withErr (b : Band) (nch : Nat) (s : State) : streset b nch (withErr e s) = withErr e (streset b nch s) := rfl

theorem prepareEffect_withErr (f m n : Word) (s : State) :
    prepareEffect f m n (withErr e s) = withErr e (prepareEffect f m n s) := by
  have configured (fs : Word) (t : State) :
      setPrepared (allBands.foldl (fun t b => recomputeBand fs (streset b n.toNat t) b) (withErr e t)) =
        withErr e (setPrepared (allBands.foldl (fun t b => recomputeBand fs (streset b n.toNat t) b) t)) := by
    rw [List.foldl_hom (withErr e) (fun t b => by rw [streset_withErr, recomputeBand_withErr])]
    generalize allBands.foldl (fun t b => recomputeBand fs (streset b n.toNat t) b) t = u
    rfl
  exact configured (fsguard f) (setRateSubst (decide (fsguard f ≠ f)) { s with cfg := ⟨fsguard f, m, n⟩ })

theorem recomputeAll_withErr (s : State) : recomputeAll (withErr e s) = withErr e (recomputeAll s) :=
  List.foldl_hom (withErr e) (recomputeBand_withErr e s.cfg.fs)

theorem bqLane_withErr (b : Band) (n : Nat) (ch : Fin Config.maxCh) (s : State) :
    bqLane b n ch (withErr e s) = withErr e (bqLane b n ch s) := rfl

theorem bqproc_withErr (b : Band) (n : Nat) (s : State) : bqproc b n (withErr e s) = withErr e (bqproc b n s) := by
  refine List.foldl_hom (withErr e) fun t ch => ?_
  rw [bqLane_withErr, apply_ite (withErr e)]
  rfl

theorem runBands_withErr (n : Nat) (s : State) : runBands n (withErr e s) = withErr e (runBands n s) := by
  refine List.foldl_hom (withErr e) fun t b => ?_
  rw [runBand, runBand, bqproc_withErr, apply_ite (withErr e)]
  rfl

theorem processEffect_withErr (n : Nat) (s : State) : processEffect n (withErr e s) = withErr e (processEffect n s) := by
  simp only [processEffect, samplingPhase_withErr, recomputeAll_withErr, runBands_withErr]

end

/-- The operation gives the same with another ST.ERR, but for that bit. -/
def ErrBlind (f : State → State) : Prop := ∀ s e, ∃ e', f (withErr e s) = withErr e' (f s)

theorem errBlind_prepare (f m n : Word) : ErrBlind (prepare f m n) := by
  intro s e
  cases h : prepareCheck m n with
  | some c => rw [prepare_of_prepareCheck f _ h, prepare_of_prepareCheck f _ h]; exact raise_withErr e c s
  | none =>
    rw [prepare_of_accepted f _ h, prepare_of_accepted f _ h, samplingPhase_withErr, prepareEffect_withErr, respond_withErr]
    exact ⟨e, rfl⟩

theorem errBlind_process (n : Word) : ErrBlind (process n) := by
  intro s e
  cases hp : s.st.prepared with
  | false => rw [process_of_unprepared n hp, process_of_unprepared n (s := withErr e s) hp]; exact raise_withErr e _ s
  | true =>
    rcases Nat.lt_or_ge s.cfg.maxBlock.toNat n.toNat with hn | hn
    · rw [process_of_too_long hp hn, process_of_too_long (s := withErr e s) hp hn]; exact raise_withErr e _ s
    · rw [process_eq_respond hp hn, process_eq_respond (s := withErr e s) hp hn, processEffect_withErr, respond_withErr]
      exact ⟨e, rfl⟩

theorem errBlind_wrparam (b : Band) (f : Field) (d : Word) : ErrBlind (wrparam b f d) := by
  intro s e
  unfold wrparam
  split
  · exact raise_withErr e _ s
  · next r _ => exact ⟨e, respond_withErr e .ok { s with params := setParam s.params r (storedWord f d) }⟩

theorem errBlind_rdparam (b : Band) (f : Field) : ErrBlind (rdparam b f) := by
  intro s e
  unfold rdparam
  split
  · exact raise_withErr e _ s
  · exact ⟨e, respondData_withErr e _ s⟩

theorem errBlind_rdcoef (b : Band) (k : Member) : ErrBlind (rdcoef b k) := by
  intro s e
  cases hp : s.st.prepared with
  | false => rw [rdcoef_of_unprepared b k hp, rdcoef_of_unprepared b k (s := withErr e s) hp]; exact raise_withErr e _ s
  | true =>
    rw [rdcoef_of_prepared b k hp, rdcoef_of_prepared b k (s := withErr e s) hp]
    exact ⟨e, respondData_withErr e _ s⟩

theorem errBlind_rdstat {k : StatSel} (hk : k ≠ .st) : ErrBlind (rdstat k) := by
  intro s e
  cases hp : s.st.prepared with
  | false => rw [rdstat_of_unprepared hk hp, rdstat_of_unprepared hk (s := withErr e s) hp]; exact raise_withErr e _ s
  | true =>
    obtain ⟨hfs, hmax, hnch⟩ := rdstat_of_prepared hp
    obtain ⟨hfs', hmax', hnch'⟩ := rdstat_of_prepared (s := withErr e s) hp
    cases k with
    | st => exact absurd rfl hk
    | fs => rw [hfs, hfs']; exact ⟨e, respondData_withErr e _ s⟩
    | maxBlock => rw [hmax, hmax']; exact ⟨e, respondData_withErr e _ s⟩
    | nch => rw [hnch, hnch']; exact ⟨e, respondData_withErr e _ s⟩

theorem errBlind_factoryRun (sh : Shape) : ErrBlind (factoryRun sh) := fun s e => ⟨e, by simp only [factoryRun, withErr]⟩

theorem exec_withErr {f : State → State} (hf : ErrBlind f) {i : Instr} (hi : ∀ s, exec i s = .next (f s)) {s t : State}
    (h : exec i s = .next t) (e : Bool) : ∃ e', exec i (withErr e s) = .next (withErr e' t) := by
  rw [hi] at h
  cases h
  obtain ⟨e', he⟩ := hf s e
  exact ⟨e', by rw [hi, he]⟩

/-- Settles O17: instruction by instruction. -/
theorem errNeverInfluencesACommand : Obligations.ErrNeverInfluencesACommand := by
  intro i s t e hi h
  cases i with
  | prepare f m n => exact exec_withErr (errBlind_prepare f m n) (exec_prepare f m n) h e
  | process n => exact exec_withErr (errBlind_process n) (exec_process n) h e
  | wrparam b f d => exact exec_withErr (errBlind_wrparam b f d) (exec_wrparam b f d) h e
  | rdparam b f => exact exec_withErr (errBlind_rdparam b f) (exec_rdparam b f) h e
  | rdcoef b k => exact exec_withErr (errBlind_rdcoef b k) (exec_rdcoef b k) h e
  | rdstat k => exact exec_withErr (errBlind_rdstat fun hk => hi (hk ▸ rfl)) (exec_rdstat k) h e
  | coefLS => exact exec_withErr (errBlind_factoryRun _) exec_coefLS h e
  | coefHS => exact exec_withErr (errBlind_factoryRun _) exec_coefHS h e
  | coefPK => exact exec_withErr (errBlind_factoryRun _) exec_coefPK h e
  | coefHP => exact exec_withErr (errBlind_factoryRun _) exec_coefHP h e
  | coefLP => exact exec_withErr (errBlind_factoryRun _) exec_coefLP h e

/-! BANDCOEF (R126). -/

theorem regOf_freq (b : Band) : regOf b .freq = some (freqReg b) := by cases b <;> rfl

/-- Settles O46: operand by operand. -/
theorem bandcoefReadsItsOwnBandOnly : Obligations.BandcoefReadsItsOwnBandOnly := by
  intro b v v' fs h
  have hfreq : bandFreq b v fs = bandFreq b v' fs := by
    rw [bandFreq, h .freq _ (by decide) (regOf_freq b), bandFreq]
  have hq : bandQ b v = bandQ b v' := by
    unfold bandQ
    split
    · next r hr => rw [h .q r (by decide) hr]
    · rfl
  have hgain : bandGain b v = bandGain b v' := by
    unfold bandGain
    split
    · next r hr => rw [h .gain r (by decide) hr]
    · rfl
  rw [bandcoef, hfreq, hq, hgain, bandcoef]

end Sys2Proof.Machine

/-! R6, R7: the magnitudes of binary32 in order, and that a rounding picks the nearest of them. -/

namespace Sys2Proof.Machine

open Sys2Proof Sys2Proof.Claims

/-! The value of magnitude bits. -/

/-- The units of magnitude bits, continued beyond the infinity: what `fUnits` reads. -/
def magUnits (m : Nat) : Nat :=
  if m / 2 ^ 23 = 0 then m % 2 ^ 23 else (2 ^ 23 + m % 2 ^ 23) * 2 ^ (m / 2 ^ 23 - 1)

theorem fUnits_eq_magUnits (w : Word) : fUnits w = magUnits (fMag w) := rfl

/-- A significand of 24 bits at an exponent, or the carry out of it: the next magnitude is the next significand. -/
theorem magUnits_significand {k q : Nat} (hq : q ≤ 2 ^ 24) (hk : k = 0 ∨ 2 ^ 23 ≤ q) :
    magUnits (k * 2 ^ 23 + q) = q * 2 ^ k := by
  unfold magUnits
  rcases Nat.lt_or_ge q (2 ^ 23) with hsub | hnorm
  · have hk0 : k = 0 := hk.resolve_right (Nat.not_le.2 hsub)
    subst hk0
    rw [if_pos (by omega)]
    omega
  · rcases Nat.lt_or_ge q (2 ^ 24) with hlt | hge
    · have hexp : (k * 2 ^ 23 + q) / 2 ^ 23 = k + 1 := by omega
      have hfrac : 2 ^ 23 + (k * 2 ^ 23 + q) % 2 ^ 23 = q := by omega
      rw [hexp, hfrac, if_neg (Nat.succ_ne_zero k), Nat.add_sub_cancel]
    · have hexp : (k * 2 ^ 23 + q) / 2 ^ 23 = k + 2 := by omega
      have hfrac : (k * 2 ^ 23 + q) % 2 ^ 23 = 0 := by omega
      have hq24 : q = 2 ^ 23 * 2 := by omega
      rw [hexp, hfrac, if_neg (by omega), hq24, Nat.add_zero, show k + 2 - 1 = k + 1 by omega, pow_succ']
      ring

/-- Magnitude bits order the magnitudes. -/
theorem magUnits_strictMono : StrictMono magUnits := by
  refine strictMono_nat_of_lt_succ fun m => ?_
  obtain ⟨k, q, rfl, hq, hk⟩ : ∃ k q, m = k * 2 ^ 23 + q ∧ q < 2 ^ 24 ∧ (k = 0 ∨ 2 ^ 23 ≤ q) := by
    rcases Nat.lt_or_ge m (2 ^ 24) with h | h
    · exact ⟨0, m, by omega, h, .inl rfl⟩
    · exact ⟨m / 2 ^ 23 - 1, m % 2 ^ 23 + 2 ^ 23, by omega, by omega, .inr (by omega)⟩
  rw [Nat.add_assoc, magUnits_significand hq.le hk, magUnits_significand hq (hk.imp_right Nat.le_succ_of_le)]
  exact Nat.mul_lt_mul_of_pos_right (Nat.lt_succ_self q) (Nat.two_pow_pos k)

theorem magUnits_mono {m v : Nat} (h : m ≤ v) : magUnits m ≤ magUnits v := magUnits_strictMono.monotone h

/-- From the third exponent on every magnitude is an even number of units. -/
theorem magUnits_even {m : Nat} (h : 2 ^ 24 ≤ m) : 2 ∣ magUnits m := by
  have hexp : m / 2 ^ 23 - 1 = (m / 2 ^ 23 - 2) + 1 := by omega
  rw [magUnits, if_neg (by omega), hexp, pow_succ 2 (m / 2 ^ 23 - 2), ← mul_assoc]
  exact Nat.dvd_mul_left 2 _

/-! Which magnitude a number is rounded to. -/

/-- `X` units lie where rounding to nearest, ties to even, gives the magnitude bits `m`: between the midpoints to the
neighbours, the midpoints themselves only when `m` is even. -/
def InCell (X : ℝ) (m : Nat) : Prop :=
  (m ≠ 0 → (magUnits (m - 1) + magUnits m : ℝ) ≤ 2 * X ∧ (m % 2 = 1 → (magUnits (m - 1) + magUnits m : ℝ) < 2 * X)) ∧
  2 * X ≤ magUnits m + magUnits (m + 1) ∧ (m % 2 = 1 → 2 * X < magUnits m + magUnits (m + 1))

/-- The magnitude bits that `roundNearest` caps at the infinity. -/
def roundMag (num den : Nat) : Nat :=
  let k := roundShift num den
  let d := den * 2 ^ k
  let q := num / d
  let r := num % d
  k * 2 ^ 23 + if 2 * r > d ∨ (2 * r = d ∧ q % 2 = 1) then q + 1 else q

theorem roundNearest_eq (num den : Nat) : roundNearest num den = min (roundMag num den) infMag := rfl

/-- The quotient that `roundNearest` takes is a significand: below 24 bits, and of 24 bits above the lowest exponent. -/
theorem roundShift_significand (num den : Nat) :
    num / (den * 2 ^ roundShift num den) < 2 ^ 24 ∧
      (roundShift num den = 0 ∨ 2 ^ 23 ≤ num / (den * 2 ^ roundShift num den)) := by
  rw [← Nat.div_div_eq_div_mul]
  unfold roundShift
  generalize num / den = Q
  rcases Nat.eq_zero_or_pos Q with rfl | hQ
  · simp
  · have hlo := Nat.log2_self_le (Nat.pos_iff_ne_zero.1 hQ)
    have hhi := Nat.lt_log2_self (n := Q)
    generalize Q.log2 = l at *
    rcases Nat.lt_or_ge l 24 with h | h
    · refine ⟨?_, .inl (by omega)⟩
      calc Q / 2 ^ (l - 23) ≤ Q := Nat.div_le_self _ _
        _ < 2 ^ (l + 1) := hhi
        _ ≤ 2 ^ 24 := Nat.pow_le_pow_right (by decide) h
    · have hsplit : 2 ^ l = 2 ^ 23 * 2 ^ (l - 23) := by rw [← pow_add]; congr 1; omega
      constructor
      · rw [Nat.div_lt_iff_lt_mul (Nat.two_pow_pos _)]
        calc Q < 2 ^ (l + 1) := hhi
          _ = 2 ^ 24 * 2 ^ (l - 23) := by rw [pow_succ, hsplit]; ring
      · right
        rw [Nat.le_div_iff_mul_le (Nat.two_pow_pos _), ← hsplit]
        exact hlo

/-- The magnitude just below a quotient, by the quotient's significand; the sum of it and the next is what ties are
decided by. -/
theorem roundMag_cases {num den : Nat} (hden : 0 < den) :
    ∃ lo, magUnits lo * den ≤ num ∧ num < magUnits (lo + 1) * den ∧
      ((roundMag num den = lo + 1 ∧
          ((magUnits lo + magUnits (lo + 1)) * den < 2 * num ∨
            ((magUnits lo + magUnits (lo + 1)) * den = 2 * num ∧ lo % 2 = 1))) ∨
        (roundMag num den = lo ∧
          (2 * num < (magUnits lo + magUnits (lo + 1)) * den ∨
            ((magUnits lo + magUnits (lo + 1)) * den = 2 * num ∧ lo % 2 = 0)))) := by
  obtain ⟨hq, hk⟩ := roundShift_significand num den
  have hdiv := Nat.div_add_mod num (den * 2 ^ roundShift num den)
  have hrem := Nat.mod_lt num (Nat.mul_pos hden (Nat.two_pow_pos (roundShift num den)))
  unfold roundMag
  generalize roundShift num den = k at *
  simp only
  generalize num / (den * 2 ^ k) = q at *
  generalize num % (den * 2 ^ k) = r at *
  have hlo : magUnits (k * 2 ^ 23 + q) * den = q * (den * 2 ^ k) := by rw [magUnits_significand hq.le hk]; ring
  have hhi : magUnits (k * 2 ^ 23 + q + 1) * den = q * (den * 2 ^ k) + den * 2 ^ k := by
    rw [Nat.add_assoc, magUnits_significand (q := q + 1) hq (hk.imp_right Nat.le_succ_of_le)]; ring
  have hcomm : den * 2 ^ k * q = q * (den * 2 ^ k) := Nat.mul_comm _ _
  have hparity : (k * 2 ^ 23 + q) % 2 = q % 2 := by omega
  refine ⟨k * 2 ^ 23 + q, by omega, by omega, ?_⟩
  rw [Nat.add_mul, hlo, hhi, hparity]
  rw [hcomm] at hdiv
  generalize q * (den * 2 ^ k) = p at *
  generalize den * 2 ^ k = d at *
  split
  · exact .inl ⟨(Nat.add_assoc _ _ _).symm, by omega⟩
  · exact .inr ⟨rfl, by omega⟩

/-- `roundNearest` rounds the quotient to nearest, ties to even. -/
theorem roundMag_inCell {num den : Nat} (hden : 0 < den) : InCell ((num : ℝ) / den) (roundMag num den) := by
  have hd : (0 : ℝ) < den := Nat.cast_pos.2 hden
  have hle {a : Nat} (h : a * den ≤ 2 * num) : (a : ℝ) ≤ 2 * (num / den) := by
    rw [← mul_div_assoc, le_div_iff₀ hd]; exact_mod_cast h
  have hlt {a : Nat} (h : a * den < 2 * num) : (a : ℝ) < 2 * (num / den) := by
    rw [← mul_div_assoc, lt_div_iff₀ hd]; exact_mod_cast h
  have hge {a : Nat} (h : 2 * num ≤ a * den) : 2 * ((num : ℝ) / den) ≤ a := by
    rw [← mul_div_assoc, div_le_iff₀ hd]; exact_mod_cast h
  have hgt {a : Nat} (h : 2 * num < a * den) : 2 * ((num : ℝ) / den) < a := by
    rw [← mul_div_assoc, div_lt_iff₀ hd]; exact_mod_cast h
  obtain ⟨lo, hlo, hhi, ⟨hm, hup⟩ | ⟨hm, hdown⟩⟩ := roundMag_cases (num := num) hden
  · rw [hm, InCell, Nat.add_sub_cancel]
    have hnext : 2 * num < (magUnits (lo + 1) + magUnits (lo + 1 + 1)) * den := by
      have hstep := Nat.mul_lt_mul_of_pos_right (magUnits_strictMono (show lo + 1 < lo + 1 + 1 by omega)) hden
      rw [Nat.add_mul]
      omega
    have hnextR := hgt hnext
    push_cast at hnextR
    refine ⟨fun _ => ⟨?_, fun hodd => ?_⟩, hnextR.le, fun _ => hnextR⟩
    · exact_mod_cast hle (hup.elim le_of_lt fun h => h.1.le)
    · exact_mod_cast hlt (hup.resolve_right fun h => by omega)
  · rw [hm, InCell]
    refine ⟨fun hne => ?_, ?_, fun hodd => ?_⟩
    · have hprev : (magUnits (lo - 1) + magUnits lo) * den < 2 * num := by
        have hstep := Nat.mul_lt_mul_of_pos_right (magUnits_strictMono (Nat.sub_one_lt hne)) hden
        rw [Nat.add_mul]
        omega
      have hprevR := hlt hprev
      push_cast at hprevR
      exact ⟨hprevR.le, fun _ => hprevR⟩
    · exact_mod_cast hge (hdown.elim le_of_lt fun h => h.1.ge)
    · exact_mod_cast hgt (hdown.resolve_right fun h => by omega)

/-! What the cell bounds. -/

section

variable {X : ℝ} {m : Nat} (h : InCell X m)

include h

theorem InCell.le_of_le {v : Nat} (hv : X ≤ magUnits v) : m ≤ v := by
  by_contra hlt
  have hprev := (h.1 (by omega)).1
  have hmono : (magUnits v : ℝ) ≤ magUnits (m - 1) := by exact_mod_cast magUnits_mono (show v ≤ m - 1 by omega)
  have hstep : (magUnits (m - 1) : ℝ) < magUnits m := by exact_mod_cast magUnits_strictMono (show m - 1 < m by omega)
  linarith

theorem InCell.ge_of_ge {v : Nat} (hv : (magUnits v : ℝ) ≤ X) : v ≤ m := by
  by_contra hlt
  have hnext := h.2.1
  have hmono : (magUnits (m + 1) : ℝ) ≤ magUnits v := by exact_mod_cast magUnits_mono (show m + 1 ≤ v by omega)
  have hstep : (magUnits m : ℝ) < magUnits (m + 1) := by exact_mod_cast magUnits_strictMono (Nat.lt_succ_self m)
  linarith

/-- No magnitude, of either sign, is nearer, and another one is as near only when `m` is even. -/
theorem InCell.nearest (hX : 0 ≤ X) {Y : ℝ} (hY : ∃ v, |Y| = magUnits v) :
    |(magUnits m : ℝ) - X| ≤ |Y - X| ∧ (|(magUnits m : ℝ) - X| = |Y - X| → Y ≠ magUnits m → m % 2 = 0) := by
  obtain ⟨v, hv⟩ := hY
  obtain ⟨hprev, hnext, hnextOdd⟩ := h
  have heven (hne : ¬ m % 2 = 1) : m % 2 = 0 := by omega
  rcases lt_trichotomy Y (magUnits m) with hlt | rfl | hgt
  · rcases Nat.eq_zero_or_pos m with rfl | hpos
    · have h0 : (magUnits 0 : ℝ) = 0 := by norm_num [magUnits]
      rw [h0] at hlt ⊢
      rw [abs_of_nonpos (by linarith), abs_of_nonpos (by linarith)]
      exact ⟨by linarith, fun _ _ => rfl⟩
    · have hYle : Y ≤ magUnits (m - 1) := by
        rcases lt_or_ge Y 0 with hneg | hnn
        · exact hneg.le.trans (Nat.cast_nonneg _)
        · rw [abs_of_nonneg hnn] at hv
          rw [hv] at hlt ⊢
          have hvm : v < m := magUnits_strictMono.lt_iff_lt.1 (by exact_mod_cast hlt)
          exact_mod_cast magUnits_mono (show v ≤ m - 1 by omega)
      obtain ⟨hmid, hmidOdd⟩ := hprev hpos.ne'
      have hYX : Y - X ≤ 0 := by linarith
      rw [abs_of_nonpos hYX]
      refine ⟨abs_le.2 ⟨by linarith, by linarith⟩, fun heq _ => heven fun hodd => ?_⟩
      have hstrict := hmidOdd hodd
      rcases abs_cases ((magUnits m : ℝ) - X) with ⟨habs, -⟩ | ⟨habs, -⟩ <;> linarith
  · exact ⟨le_rfl, fun _ hne => absurd rfl hne⟩
  · have hYge : (magUnits (m + 1) : ℝ) ≤ Y := by
      rw [abs_of_pos (lt_of_le_of_lt (Nat.cast_nonneg _) hgt)] at hv
      rw [hv] at hgt ⊢
      have hmv : m < v := magUnits_strictMono.lt_iff_lt.1 (by exact_mod_cast hgt)
      exact_mod_cast magUnits_mono hmv
    have hYX : 0 ≤ Y - X := by linarith
    rw [abs_of_nonneg hYX]
    refine ⟨abs_le.2 ⟨by linarith, by linarith⟩, fun heq _ => heven fun hodd => ?_⟩
    have hstrict := hnextOdd hodd
    rcases abs_cases ((magUnits m : ℝ) - X) with ⟨habs, -⟩ | ⟨habs, -⟩ <;> linarith

/-- The infinity is reached at the midpoint between the largest finite magnitude and the next power of two (R7). -/
theorem InCell.lt_infMag_iff : m < infMag ↔ X < (2 ^ 128 - 2 ^ 103) * 2 ^ 149 := by
  have hlast : (magUnits (infMag - 1) : ℝ) + magUnits infMag = 2 * ((2 ^ 128 - 2 ^ 103) * 2 ^ 149) := by
    norm_num [magUnits]
  obtain ⟨hprev, hnext, hnextOdd⟩ := h
  constructor
  · intro hm
    rcases Nat.lt_or_ge m (infMag - 1) with hlt | hge
    · have h1 : (magUnits m : ℝ) < magUnits (infMag - 1) := by exact_mod_cast magUnits_strictMono hlt
      have h2 : (magUnits (m + 1) : ℝ) ≤ magUnits infMag := by exact_mod_cast magUnits_mono (show m + 1 ≤ infMag by omega)
      linarith
    · have hm1 : m = infMag - 1 := by omega
      have hstrict := hnextOdd (by rw [hm1]; decide)
      rw [hm1, Nat.sub_add_cancel (by decide)] at hstrict
      linarith
  · intro hX
    by_contra hm
    obtain ⟨hmid, -⟩ := hprev (by unfold infMag at hm; omega)
    have h1 : (magUnits (infMag - 1) : ℝ) ≤ magUnits (m - 1) := by
      exact_mod_cast magUnits_mono (show infMag - 1 ≤ m - 1 by omega)
    have h2 : (magUnits infMag : ℝ) ≤ magUnits m := by exact_mod_cast magUnits_mono (Nat.not_lt.1 hm)
    linarith

end

/-! The bounds of a rounded quotient. -/

section

variable {num den : Nat} (hden : 0 < den)

include hden

theorem roundMag_le_of_le {v : Nat} (h : num ≤ magUnits v * den) : roundMag num den ≤ v := by
  refine (roundMag_inCell hden).le_of_le ?_
  rw [div_le_iff₀ (Nat.cast_pos.2 hden)]
  exact_mod_cast h

theorem le_roundMag_of_le {v : Nat} (h : magUnits v * den ≤ num) : v ≤ roundMag num den := by
  refine (roundMag_inCell hden).ge_of_ge ?_
  rw [le_div_iff₀ (Nat.cast_pos.2 hden)]
  exact_mod_cast h

/-- A quotient that is a magnitude is rounded to it. -/
theorem roundNearest_of_eq {m : Nat} (hm : m ≤ infMag) (h : num = magUnits m * den) : roundNearest num den = m := by
  rw [roundNearest_eq, Nat.le_antisymm (roundMag_le_of_le hden h.le) (le_roundMag_of_le hden h.ge), Nat.min_eq_left hm]

end

end Sys2Proof.Machine

/-! R7: each operation is the exact result rounded once. -/

namespace Sys2Proof.Machine

open Sys2Proof Sys2Proof.Claims

/-! The exact value of a word as sign and units. -/

/-- The sign of a word as a number. -/
def signOf (neg : Bool) : ℝ := if neg then -1 else 1

@[simp] theorem signOf_false : signOf false = 1 := rfl
@[simp] theorem signOf_true : signOf true = -1 := rfl

theorem signOf_xor (a b : Bool) : signOf (a != b) = signOf a * signOf b := by cases a <;> cases b <;> simp

theorem signOf_mul_self (a : Bool) : signOf a * signOf a = 1 := by cases a <;> simp

theorem abs_signOf_mul (a : Bool) (x : ℝ) : |signOf a * x| = |x| := by cases a <;> simp

theorem fInt_cast (w : Word) : (fInt w : ℝ) = signOf (fNeg w) * fUnits w := by
  unfold fInt
  cases fNeg w <;> simp

theorem fVal_cast (w : Word) : (fVal w : ℝ) = fInt w / 2 ^ 149 := by
  unfold fVal
  push_cast
  rfl

theorem fVal_eq_signOf (w : Word) : (fVal w : ℝ) = signOf (fNeg w) * (fUnits w / 2 ^ 149) := by
  rw [fVal_cast, fInt_cast, mul_div_assoc]

theorem fUnits_fPack (neg : Bool) {m : Nat} (h : m ≤ infMag) : fUnits (fPack neg m) = magUnits m := by
  rw [fUnits_eq_magUnits, fMag_fPack _ _ (h.trans_lt infMag_lt)]

theorem fVal_fPack (neg : Bool) {m : Nat} (h : m ≤ infMag) :
    (fVal (fPack neg m) : ℝ) = signOf neg * (magUnits m / 2 ^ 149) := by
  rw [fVal_eq_signOf, fNeg_fPack _ _ (h.trans_lt infMag_lt), fUnits_fPack neg h]

theorem isFinite_fPack {neg : Bool} {m : Nat} (h : m < infMag) : isFinite (fPack neg m) = true := by
  rw [isFinite, fMag_fPack _ _ (h.trans infMag_lt), decide_eq_true h]

theorem isInf_fPack (neg : Bool) : isInf (fPack neg infMag) = true := by
  rw [isInf, fMag_fPack _ _ infMag_lt, decide_eq_true rfl]

/-- The last bit of a word is that of its magnitude bits. -/
theorem toNat_fPack_mod_two (neg : Bool) (m : Nat) : (fPack neg m).toNat % 2 = m % 2 := by
  cases neg
  · simp [fPack]
  · simp [fPack]; omega

/-- The word in whose cell a number lies, with the number's sign, is the number rounded. -/
theorem isRounded_of_inCell {x X : ℝ} {m : Nat} {neg : Bool} (hm : InCell X m) (hX : 0 ≤ X)
    (hx : x = signOf neg * (X / 2 ^ 149)) : IsRounded x (fPack neg (min m infMag)) := by
  have hunit : (0 : ℝ) < 2 ^ 149 := by positivity
  have habs : |x| = X / 2 ^ 149 := by rw [hx, abs_signOf_mul, abs_of_nonneg (div_nonneg hX hunit.le)]
  have hbound : |x| < 2 ^ 128 - 2 ^ 103 ↔ m < infMag := by
    rw [habs, div_lt_iff₀ hunit, hm.lt_infMag_iff]
  unfold IsRounded
  simp only [hbound]
  split
  · next hlt =>
    rw [Nat.min_eq_left hlt.le]
    refine ⟨isFinite_fPack hlt, fun v _ => ?_⟩
    have hw := fVal_fPack neg hlt.le
    obtain ⟨Y, hYv, hYabs⟩ : ∃ Y, (fVal v : ℝ) = signOf neg * (Y / 2 ^ 149) ∧ |Y| = magUnits (fMag v) := by
      refine ⟨signOf neg * (signOf (fNeg v) * fUnits v), ?_, ?_⟩
      · rw [fVal_eq_signOf, ← mul_div_assoc, ← mul_div_assoc, ← mul_assoc, signOf_mul_self, one_mul]
      · rw [abs_signOf_mul, abs_signOf_mul, Nat.abs_cast, fUnits_eq_magUnits]
    obtain ⟨hnear, htie⟩ := hm.nearest hX ⟨fMag v, hYabs⟩
    have hdist (Z : ℝ) : |signOf neg * (Z / 2 ^ 149) - x| = |Z - X| / 2 ^ 149 := by
      rw [hx, ← mul_sub, ← sub_div, abs_signOf_mul, abs_div, abs_of_pos hunit]
    rw [hw, hYv, hdist, hdist, toNat_fPack_mod_two]
    refine ⟨div_le_div_of_nonneg_right hnear hunit.le, fun heq hne => htie ?_ fun hY => ?_⟩
    · exact (div_left_inj' hunit.ne').1 heq
    · refine hne ?_
      have hval : (fVal v : ℝ) = fVal (fPack neg m) := by rw [hYv, hw, hY]
      exact_mod_cast hval
  · next hge =>
    have hpos : 0 < X := by
      have hlarge := (not_congr hm.lt_infMag_iff).1 hge
      have hmid : (0 : ℝ) < (2 ^ 128 - 2 ^ 103) * 2 ^ 149 := by norm_num
      linarith
    have hq : 0 < X / 2 ^ 149 := div_pos hpos hunit
    rw [Nat.min_eq_right (Nat.not_lt.1 hge), fNeg_fPack _ _ infMag_lt, hx]
    refine ⟨isInf_fPack neg, ?_⟩
    cases neg
    · simp [hq.le]
    · simp [hq]

/-- A quotient of units rounded to nearest is the number it stands for, rounded. -/
theorem isRounded_roundNearest {x : ℝ} {neg : Bool} {num den : Nat} (hden : 0 < den)
    (hx : x = signOf neg * ((num : ℝ) / den / 2 ^ 149)) : IsRounded x (fPack neg (roundNearest num den)) :=
  isRounded_of_inCell (roundMag_inCell hden) (by positivity) hx

/-! The operations on finite words, as they compute. -/

theorem addCore_of_finite (nan : Word) {a b : Word} (ha : isFinite a = true) (hb : isFinite b = true) :
    addCore nan a b =
      if fInt a + fInt b = 0 then fPack (fNeg a && fNeg b) 0
      else fPack (decide (fInt a + fInt b < 0)) (roundNearest (fInt a + fInt b).natAbs 1) := by
  simp [addCore, isNaN_of_isFinite a ha, isNaN_of_isFinite b hb, isInf_of_isFinite a ha, isInf_of_isFinite b hb]

theorem fmul_of_finite {a b : Word} (ha : isFinite a = true) (hb : isFinite b = true) :
    fmul a b = fPack (fNeg a != fNeg b) (roundNearest (fUnits a * fUnits b) (2 ^ 149)) := by
  simp [fmul, isNaN_of_isFinite a ha, isNaN_of_isFinite b hb, isInf_of_isFinite a ha, isInf_of_isFinite b hb]

theorem fdiv_of_finite {a b : Word} (ha : isFinite a = true) (hb : isFinite b = true) (h0 : isZero b = false) :
    fdiv a b = fPack (fNeg a != fNeg b) (roundNearest (fUnits a * 2 ^ 149) (fUnits b)) := by
  simp [fdiv, isNaN_of_isFinite a ha, isNaN_of_isFinite b hb, isInf_of_isFinite a ha, isInf_of_isFinite b hb, h0]

theorem fUnits_fneg (w : Word) : fUnits (fneg w) = fUnits w := by
  rw [fUnits_eq_magUnits, fMag_fneg, fUnits_eq_magUnits]

theorem fInt_fneg (w : Word) : fInt (fneg w) = -fInt w := by
  rw [fInt, fInt, fNeg_fneg, fUnits_fneg]
  cases fNeg w <;> simp

theorem fVal_fneg (w : Word) : fVal (fneg w) = -fVal w := by
  rw [fVal, fVal, fInt_fneg]
  push_cast
  ring

@[simp] theorem isFinite_fneg (w : Word) : isFinite (fneg w) = isFinite w := by rw [isFinite, isFinite, fMag_fneg]
@[simp] theorem isInf_fneg (w : Word) : isInf (fneg w) = isInf w := by rw [isInf, isInf, fMag_fneg]
@[simp] theorem isZero_fneg (w : Word) : isZero (fneg w) = isZero w := by rw [isZero, isZero, fMag_fneg]

theorem isZero_iff_fUnits (w : Word) : isZero w = true ↔ fUnits w = 0 := by
  have h0 : magUnits 0 = 0 := rfl
  rw [isZero, decide_eq_true_eq, fUnits_eq_magUnits]
  exact ⟨fun h => by rw [h, h0], fun h => magUnits_strictMono.injective (h.trans h0.symm)⟩

theorem fUnits_pos {w : Word} (h : isZero w = false) : 0 < fUnits w :=
  Nat.pos_of_ne_zero fun h0 => by simp [(isZero_iff_fUnits w).2 h0] at h

/-! The four operations with a rounding of a quotient of integers. -/

theorem isRounded_addCore (nan : Word) {a b : Word} (ha : isFinite a = true) (hb : isFinite b = true) :
    IsRounded ((fVal a : ℝ) + fVal b) (addCore nan a b) := by
  have hsum : (fVal a : ℝ) + fVal b = ((fInt a + fInt b : ℤ) : ℝ) / 2 ^ 149 := by
    rw [fVal_cast, fVal_cast]; push_cast; ring
  rw [addCore_of_finite nan ha hb, hsum]
  generalize fInt a + fInt b = z
  split
  · next hz =>
    have hzero := isRounded_roundNearest (x := (z : ℝ) / 2 ^ 149) (neg := fNeg a && fNeg b) (num := 0) Nat.one_pos (by simp [hz])
    rwa [roundNearest_zero] at hzero
  · refine isRounded_roundNearest Nat.one_pos ?_
    have hcast : ((z.natAbs : ℕ) : ℝ) = |(z : ℝ)| := by rw [Nat.cast_natAbs, Int.cast_abs]
    rw [hcast, Nat.cast_one, div_one]
    rcases lt_or_ge z 0 with hz | hz
    · rw [decide_eq_true hz, abs_of_neg (Int.cast_lt_zero.2 hz), signOf_true]; ring
    · rw [decide_eq_false (not_lt.2 hz), abs_of_nonneg (Int.cast_nonneg hz), signOf_false]; ring

theorem isRounded_fmul {a b : Word} (ha : isFinite a = true) (hb : isFinite b = true) :
    IsRounded ((fVal a : ℝ) * fVal b) (fmul a b) := by
  rw [fmul_of_finite ha hb]
  refine isRounded_roundNearest (by positivity) ?_
  rw [fVal_eq_signOf, fVal_eq_signOf, signOf_xor]
  push_cast
  ring

theorem isRounded_fdiv {a b : Word} (ha : isFinite a = true) (hb : isFinite b = true) (h0 : isZero b = false) :
    IsRounded ((fVal a : ℝ) / fVal b) (fdiv a b) := by
  have hunits : (fUnits b : ℝ) ≠ 0 := Nat.cast_ne_zero.2 (fUnits_pos h0).ne'
  have hsign : signOf (fNeg b) ≠ 0 := by cases fNeg b <;> simp
  rw [fdiv_of_finite ha hb h0]
  refine isRounded_roundNearest (fUnits_pos h0) ?_
  rw [fVal_eq_signOf, fVal_eq_signOf, signOf_xor, div_eq_iff (by positivity), Nat.cast_mul, Nat.cast_pow]
  field_simp
  rw [pow_two, signOf_mul_self, mul_one]
  norm_num

/-! The square root (R7): half an odd number of units stands for a root between two integers. -/

/-- The root as `fsqrt` rounds it: twice the integer root, and one more when it is not exact. -/
def doubledRoot (n : Nat) : Nat := 2 * natSqrt n + if natSqrt n * natSqrt n = n then 0 else 1

/-- Against an integer the exact root and half the doubled root compare alike. -/
theorem le_sqrt_iff_doubledRoot {n : Nat} (hn : n < 2 ^ 430) (t : Nat) :
    ((t : ℝ) ≤ √n ↔ 2 * t ≤ doubledRoot n) ∧ (√n ≤ (t : ℝ) ↔ doubledRoot n ≤ 2 * t) := by
  obtain ⟨hlo, hhi⟩ := natSqrt_spec n hn
  have hsq : ((t : ℝ) ≤ √n ↔ t * t ≤ n) ∧ (√n ≤ (t : ℝ) ↔ n ≤ t * t) := by
    constructor
    · rw [Real.le_sqrt (Nat.cast_nonneg t) (Nat.cast_nonneg n), pow_two]; exact_mod_cast Iff.rfl
    · rw [Real.sqrt_le_left (Nat.cast_nonneg t), pow_two]; exact_mod_cast Iff.rfl
  rw [hsq.1, hsq.2, doubledRoot]
  generalize natSqrt n = r at *
  have hmono {i j : Nat} (h : i ≤ j) : i * i ≤ j * j := Nat.mul_le_mul h h
  rcases Nat.lt_trichotomy t r with h | rfl | h
  · have h1 := hmono (Nat.succ_le_of_lt h)
    have h2 := Nat.mul_self_lt_mul_self h
    split <;> constructor <;> constructor <;> intro <;> omega
  · split <;> constructor <;> constructor <;> intro <;> omega
  · have h1 := hmono (Nat.succ_le_of_lt h)
    rw [Nat.succ_eq_add_one] at h1
    split <;> constructor <;> constructor <;> intro <;> omega

/-- Where the magnitudes are even numbers of units, a cell holds the exact root when it holds half the doubled root. -/
theorem inCell_sqrt {n m : Nat} (hn : n < 2 ^ 430) (hm : 2 ^ 24 < m) (h : InCell ((doubledRoot n : ℝ) / (2 : ℕ)) m) :
    InCell √n m := by
  obtain ⟨p, hp⟩ : 2 ∣ magUnits (m - 1) + magUnits m := Nat.dvd_add (magUnits_even (by omega)) (magUnits_even hm.le)
  obtain ⟨q, hq⟩ : 2 ∣ magUnits m + magUnits (m + 1) :=
    Nat.dvd_add (magUnits_even hm.le) (magUnits_even (by omega))
  have hpR : (magUnits (m - 1) + magUnits m : ℝ) = 2 * (p : ℝ) := by exact_mod_cast hp
  have hqR : (magUnits m + magUnits (m + 1) : ℝ) = 2 * (q : ℝ) := by exact_mod_cast hq
  obtain ⟨hple, hpge⟩ := le_sqrt_iff_doubledRoot hn p
  obtain ⟨hqle, hqge⟩ := le_sqrt_iff_doubledRoot hn q
  have hhalf (x : ℝ) : 2 * (x / (2 : ℕ)) = x := by push_cast; ring
  rw [InCell, hpR, hqR, hhalf] at h
  rw [InCell, hpR, hqR, mul_le_mul_iff_of_pos_left two_pos, mul_le_mul_iff_of_pos_left two_pos,
    mul_lt_mul_iff_of_pos_left two_pos, mul_lt_mul_iff_of_pos_left two_pos, ← not_le, ← not_le, hple, hpge, hqle, hqge]
  rw [← not_le, ← not_le] at h
  exact_mod_cast h

theorem fsqrt_of_finite {a : Word} (ha : isFinite a = true) (hneg : fNeg a = false) (h0 : isZero a = false) :
    fsqrt a = fPack false (roundNearest (doubledRoot (fUnits a * 2 ^ 149)) 2) := by
  simp [fsqrt, isNaN_of_isFinite a ha, isInf_of_isFinite a ha, hneg, h0, doubledRoot]

/-- The root of a magnitude has many more bits than a significand. -/
theorem two_pow_lt_roundMag_doubledRoot {u : Nat} (hu : 0 < u) (hlt : u * 2 ^ 149 < 2 ^ 430) :
    2 ^ 24 < roundMag (doubledRoot (u * 2 ^ 149)) 2 := by
  obtain ⟨-, hhi⟩ := natSqrt_spec (u * 2 ^ 149) hlt
  have hroot : 2 ^ 26 ≤ natSqrt (u * 2 ^ 149) := by
    by_contra hsmall
    have hsq : (natSqrt (u * 2 ^ 149) + 1) * (natSqrt (u * 2 ^ 149) + 1) ≤ 2 ^ 26 * 2 ^ 26 :=
      Nat.mul_le_mul (by omega) (by omega)
    omega
  have hunits : magUnits (2 ^ 25) = 2 ^ 26 := by decide
  have hle : 2 ^ 25 ≤ roundMag (doubledRoot (u * 2 ^ 149)) 2 := by
    refine le_roundMag_of_le Nat.two_pos ?_
    rw [hunits, doubledRoot]
    omega
  omega

theorem isRounded_fsqrt {a : Word} (ha : isFinite a = true) (hneg : fNeg a = false) :
    IsRounded (Real.sqrt (fVal a)) (fsqrt a) := by
  have hval : (fVal a : ℝ) = fUnits a / 2 ^ 149 := by rw [fVal_eq_signOf, hneg, signOf_false, one_mul]
  cases h0 : isZero a with
  | true =>
    have hu := (isZero_iff_fUnits a).1 h0
    have hself : fsqrt a = fPack false (roundNearest 0 1) := by
      have hmag : fMag a = 0 := by simpa [isZero] using h0
      rw [roundNearest_zero, ← hneg, ← hmag, fPack_fNeg_fMag]
      simp [fsqrt, isNaN_of_isFinite a ha, h0]
    rw [hself, hval, hu]
    exact isRounded_roundNearest Nat.one_pos (by simp)
  | false =>
    have hpos := fUnits_pos h0
    have hlt : fUnits a * 2 ^ 149 < 2 ^ 430 := by
      rw [show 430 = 27 + 254 + 149 by rfl, pow_add, pow_add]
      exact Nat.mul_lt_mul_of_pos_right ((fUnits_lt a).trans_le (Nat.mul_le_mul_right _ (by decide))) (by positivity)
    rw [fsqrt_of_finite ha hneg h0, hval, roundNearest_eq]
    refine isRounded_of_inCell (inCell_sqrt hlt (two_pow_lt_roundMag_doubledRoot hpos hlt) (roundMag_inCell two_pos))
      (Real.sqrt_nonneg _) ?_
    have hscale : (fUnits a : ℝ) / 2 ^ 149 = ((fUnits a * 2 ^ 149 : ℕ) : ℝ) / (2 ^ 149) ^ 2 := by
      rw [Nat.cast_mul, Nat.cast_pow]; field_simp; norm_num
    rw [hscale, Real.sqrt_div (Nat.cast_nonneg _), Real.sqrt_sq (by positivity), signOf_false, one_mul]

/-- Settles O53: each operation rounds a quotient of integers, or a root that lies in the same cell as one. -/
theorem arithmeticIsCorrectlyRounded : Obligations.ArithmeticIsCorrectlyRounded := by
  refine ⟨fun a b ha hb => ⟨isRounded_addCore _ ha hb, ?_, isRounded_fmul ha hb, isRounded_fdiv ha hb⟩,
    fun a => isRounded_fsqrt⟩
  have hsub := isRounded_addCore (nanOf .sub a b) ha (b := fneg b) (by simpa using hb)
  rw [fVal_fneg, Rat.cast_neg, ← sub_eq_add_neg] at hsub
  exact hsub

end Sys2Proof.Machine

/-! R7, R142: NaNs, infinities, zeros and comparisons. -/

namespace Sys2Proof.Machine

open Sys2Proof Sys2Proof.Claims

/-! The kinds of word. -/

theorem quietNaN_nanOf (src : Config.NanSource) (a b : Word) : QuietNaN (nanOf src a b) := nanOf_bits src a b

theorem isZero_of_isInf {w : Word} (h : isInf w = true) : isZero w = false := by
  simp only [isInf, decide_eq_true_eq] at h
  simp only [isZero, decide_eq_false_iff_not, h]
  decide

theorem fPack_of_isInf {w : Word} (h : isInf w = true) : fPack (fNeg w) infMag = w := by
  have hm : fMag w = infMag := of_decide_eq_true h
  rw [← hm, fPack_fNeg_fMag]

theorem isZero_fPack_zero (neg : Bool) : isZero (fPack neg 0) = true := by
  rw [isZero, fMag_fPack _ _ (by decide), decide_eq_true rfl]

theorem fNeg_fPack_zero (neg : Bool) : fNeg (fPack neg 0) = neg := fNeg_fPack _ _ (by decide)

theorem fNeg_fPack_infMag (neg : Bool) : fNeg (fPack neg infMag) = neg := fNeg_fPack _ _ infMag_lt

theorem fNeg_fPack_roundNearest (neg : Bool) (num den : Nat) : fNeg (fPack neg (roundNearest num den)) = neg :=
  fNeg_fPack _ _ ((roundNearest_le num den).trans_lt infMag_lt)

/-! Comparisons are the order of the values. -/

theorem flt_of_not_nan {a b : Word} (ha : isNaN a = false) (hb : isNaN b = false) : flt a b = decide (fInt a < fInt b) := by
  simp [flt, ha, hb]

theorem fle_of_not_nan {a b : Word} (ha : isNaN a = false) (hb : isNaN b = false) : fle a b = decide (fInt a ≤ fInt b) := by
  simp [fle, ha, hb]

theorem fInt_lt_iff_fVal_lt (a b : Word) : fInt a < fInt b ↔ fVal a < fVal b := by
  rw [fVal, fVal, div_lt_div_iff_of_pos_right (by positivity), Int.cast_lt]

theorem fInt_le_iff_fVal_le (a b : Word) : fInt a ≤ fInt b ↔ fVal a ≤ fVal b := by
  rw [fVal, fVal, div_le_div_iff_of_pos_right (by positivity), Int.cast_le]

theorem fInt_of_isInf {w : Word} (h : isInf w = true) :
    fInt w = if fNeg w then -(2 ^ 24 * 2 ^ 253) else 2 ^ 24 * 2 ^ 253 := by
  rw [fInt, fUnits_of_isInf h]
  rfl

theorem fInt_bounds_of_isFinite {w : Word} (h : isFinite w = true) :
    -(2 ^ 24 * 2 ^ 253) < fInt w ∧ fInt w < 2 ^ 24 * 2 ^ 253 := by
  have hbound := natAbs_fInt w ▸ fUnits_lt_of_isFinite h
  omega

/-- An infinity compares with a finite word by its sign. -/
theorem compare_inf_finite {a b : Word} (ha : isInf a = true) (hb : isFinite b = true) :
    flt a b = fNeg a ∧ fle a b = fNeg a ∧ (flt b a = !fNeg a) ∧ (fle b a = !fNeg a) := by
  have hna := isNaN_of_isInf a ha
  have hnb := isNaN_of_isFinite b hb
  have hinf := fInt_of_isInf ha
  obtain ⟨hlo, hhi⟩ := fInt_bounds_of_isFinite hb
  rw [flt_of_not_nan hna hnb, fle_of_not_nan hna hnb, flt_of_not_nan hnb hna, fle_of_not_nan hnb hna]
  cases hs : fNeg a <;> simp only [hs, Bool.false_eq_true, if_true, if_false] at hinf <;>
    simp only [Bool.not_true, Bool.not_false, decide_eq_true_eq, decide_eq_false_iff_not] <;> omega

/-- Two infinities compare by their signs. -/
theorem compare_inf_inf {a b : Word} (ha : isInf a = true) (hb : isInf b = true) :
    flt a b = (fNeg a && !fNeg b) ∧ fle a b = (fNeg a || !fNeg b) := by
  have hna := isNaN_of_isInf a ha
  have hnb := isNaN_of_isInf b hb
  rw [flt_of_not_nan hna hnb, fle_of_not_nan hna hnb, fInt_of_isInf ha, fInt_of_isInf hb]
  cases fNeg a <;> cases fNeg b <;> simp

/-! Sums (R7). -/

theorem addCore_inf_inf (nan : Word) {a b : Word} (ha : isInf a = true) (hb : isInf b = true) :
    addCore nan a b = if fNeg a = fNeg b then a else nan := by
  have hna := isNaN_of_isInf a ha
  have hnb := isNaN_of_isInf b hb
  by_cases h : fNeg a = fNeg b <;> simp [addCore, hna, hnb, ha, hb, h]

theorem addCore_inf_finite (nan : Word) {a b : Word} (ha : isInf a = true) (hb : isFinite b = true) :
    addCore nan a b = a ∧ addCore nan b a = a := by
  simp [addCore, isNaN_of_isInf a ha, isNaN_of_isFinite b hb, isInf_of_isFinite b hb, ha]

/-- A sum that is exactly zero has its sign from both operands. -/
theorem addCore_of_sum_zero (nan : Word) {a b : Word} (ha : isFinite a = true) (hb : isFinite b = true)
    (h : fInt a + fInt b = 0) : addCore nan a b = fPack (fNeg a && fNeg b) 0 := by
  rw [addCore_of_finite nan ha hb, if_pos h]

theorem fInt_add_eq_zero_iff (a b : Word) : fInt a + fInt b = 0 ↔ fVal a + fVal b = 0 := by
  rw [fVal, fVal, ← add_div, div_eq_zero_iff]
  constructor
  · exact fun h => .inl (by exact_mod_cast h)
  · exact fun h => by exact_mod_cast h.resolve_right (by positivity)

/-! Products and quotients (R7, R142). -/

theorem fmul_inf_zero {a b : Word} (ha : isInf a = true) (hb : isZero b = true) :
    fmul a b = nanOf .mul a b ∧ fmul b a = nanOf .mul b a := by
  simp [fmul, ha, hb]

theorem fmul_inf {a b : Word} (ha : isInf a = true) (hb : isNaN b = false) (h0 : isZero b = false) :
    fmul a b = fPack (fNeg a != fNeg b) infMag ∧ fmul b a = fPack (fNeg a != fNeg b) infMag := by
  simp [fmul, isNaN_of_isInf a ha, isZero_of_isInf ha, ha, hb, h0, bne_comm (a := fNeg b)]

theorem fdiv_inf_finite {a b : Word} (ha : isInf a = true) (hb : isFinite b = true) :
    fdiv a b = fPack (fNeg a != fNeg b) infMag ∧ fdiv b a = fPack (fNeg a != fNeg b) 0 := by
  simp [fdiv, isNaN_of_isInf a ha, isNaN_of_isFinite b hb, isInf_of_isFinite b hb, ha, bne_comm (a := fNeg b)]

theorem fdiv_by_zero {a b : Word} (ha : isFinite a = true) (hb : isZero b = true) :
    fdiv a b = if isZero a then nanOf .div a b else fPack (fNeg a != fNeg b) infMag := by
  have hfin := isFinite_of_isZero b hb
  simp [fdiv, isNaN_of_isFinite a ha, isNaN_of_isFinite b hfin, isInf_of_isFinite a ha, isInf_of_isFinite b hfin, hb]

/-! Clause by clause. -/

theorem special_nan {a b : Word} (h : isNaN a = true ∨ isNaN b = true) :
    QuietNaN (fadd a b) ∧ QuietNaN (fsub a b) ∧ QuietNaN (fmul a b) ∧ QuietNaN (fdiv a b) ∧
      flt a b = false ∧ fle a b = false ∧ fgt a b = false ∧ fge a b = false := by
  rw [fadd_of_nan a b h, fsub_of_nan a b h, fmul_of_nan a b h, fdiv_of_nan a b h]
  refine ⟨quietNaN_nanOf _ _ _, quietNaN_nanOf _ _ _, quietNaN_nanOf _ _ _, quietNaN_nanOf _ _ _, ?_⟩
  rcases h with h | h <;> simp [flt, fle, fgt, fge, h]

theorem special_inf_inf {a b : Word} (ha : isInf a = true) (hb : isInf b = true) :
    (if fNeg a = fNeg b then QuietNaN (fsub a b) ∧ fadd a b = a else QuietNaN (fadd a b) ∧ fsub a b = a) ∧
      QuietNaN (fdiv a b) := by
  have hdiv : fdiv a b = nanOf .div a b := by simp [fdiv, isNaN_of_isInf a ha, isNaN_of_isInf b hb, ha, hb]
  rw [hdiv, fadd, fsub, addCore_inf_inf _ ha hb, addCore_inf_inf _ ha (b := fneg b) (by simpa using hb), fNeg_fneg]
  refine ⟨?_, quietNaN_nanOf _ _ _⟩
  by_cases h : fNeg a = fNeg b
  · simpa [h] using quietNaN_nanOf .sub a b
  · have hnot : fNeg a = !fNeg b := Bool.eq_not.2 h
    simpa [h, hnot] using quietNaN_nanOf .add a b

theorem special_inf_finite {a b : Word} (ha : isInf a = true) (hb : isFinite b = true) :
    fadd a b = a ∧ fadd b a = a ∧ fsub a b = a ∧ fsub b a = fneg a ∧
      (isZero b = false → isInf (fmul a b) = true ∧ fNeg (fmul a b) = (fNeg a != fNeg b) ∧
        isInf (fmul b a) = true ∧ fNeg (fmul b a) = (fNeg a != fNeg b)) ∧
      isInf (fdiv a b) = true ∧ fNeg (fdiv a b) = (fNeg a != fNeg b) ∧
      isZero (fdiv b a) = true ∧ fNeg (fdiv b a) = (fNeg a != fNeg b) ∧
      flt a b = fNeg a ∧ fle a b = fNeg a ∧ flt b a = !fNeg a ∧ fle b a = !fNeg a := by
  have hadd := (addCore_inf_finite (nanOf .add a b) ha hb).1
  have hadd' := (addCore_inf_finite (nanOf .add b a) ha hb).2
  have hsub := (addCore_inf_finite (nanOf .sub a b) ha (b := fneg b) (by simpa using hb)).1
  have hsub' := (addCore_inf_finite (nanOf .sub b a) (a := fneg a) (by simpa using ha) hb).2
  obtain ⟨hdiv, hdiv'⟩ := fdiv_inf_finite ha hb
  refine ⟨hadd, hadd', hsub, hsub', fun h0 => ?_, ?_⟩
  · obtain ⟨hmul, hmul'⟩ := fmul_inf ha (isNaN_of_isFinite b hb) h0
    rw [hmul, hmul', isInf_fPack, fNeg_fPack_infMag]
    exact ⟨rfl, rfl, rfl, rfl⟩
  · rw [hdiv, hdiv', isInf_fPack, fNeg_fPack_infMag, isZero_fPack_zero, fNeg_fPack_zero]
    exact ⟨rfl, rfl, rfl, rfl, compare_inf_finite ha hb⟩

theorem special_div_by_zero {a b : Word} (ha : isFinite a = true) (hb : isZero b = true) :
    (isZero a = true → QuietNaN (fdiv a b)) ∧
      (isZero a = false → isInf (fdiv a b) = true ∧ fNeg (fdiv a b) = (fNeg a != fNeg b)) := by
  rw [fdiv_by_zero ha hb]
  constructor
  · intro h; rw [if_pos h]; exact quietNaN_nanOf _ _ _
  · intro h; rw [h, if_neg Bool.false_ne_true]; exact ⟨isInf_fPack _, fNeg_fPack_infMag _⟩

theorem special_finite {a b : Word} (ha : isFinite a = true) (hb : isFinite b = true) :
    (fVal a + fVal b = 0 → isZero (fadd a b) = true ∧ fNeg (fadd a b) = (fNeg a && fNeg b)) ∧
      (fVal a - fVal b = 0 → isZero (fsub a b) = true ∧ fNeg (fsub a b) = (fNeg a && !fNeg b)) ∧
      fNeg (fmul a b) = (fNeg a != fNeg b) ∧
      (isZero b = false → fNeg (fdiv a b) = (fNeg a != fNeg b)) ∧
      flt a b = decide (fVal a < fVal b) ∧ fle a b = decide (fVal a ≤ fVal b) := by
  have hna := isNaN_of_isFinite a ha
  have hnb := isNaN_of_isFinite b hb
  refine ⟨fun h => ?_, fun h => ?_, ?_, fun h0 => ?_, ?_, ?_⟩
  · rw [fadd, addCore_of_sum_zero _ ha hb ((fInt_add_eq_zero_iff a b).2 h)]
    exact ⟨isZero_fPack_zero _, fNeg_fPack_zero _⟩
  · rw [sub_eq_add_neg, ← fVal_fneg] at h
    rw [fsub, addCore_of_sum_zero _ ha (by simpa using hb) ((fInt_add_eq_zero_iff a (fneg b)).2 h), fNeg_fneg]
    exact ⟨isZero_fPack_zero _, fNeg_fPack_zero _⟩
  · rw [fmul_of_finite ha hb, fNeg_fPack_roundNearest]
  · rw [fdiv_of_finite ha hb h0, fNeg_fPack_roundNearest]
  · rw [flt_of_not_nan hna hnb, decide_eq_decide.2 (fInt_lt_iff_fVal_lt a b)]
  · rw [fle_of_not_nan hna hnb, decide_eq_decide.2 (fInt_le_iff_fVal_le a b)]

theorem fsqrt_of_invalid {a : Word} (h : isNaN a = true ∨ (isZero a = false ∧ fNeg a = true)) :
    fsqrt a = nanOf .sqrt a 0#32 := by
  rcases h with h | ⟨h0, hneg⟩
  · simp [fsqrt, h]
  · simp [fsqrt, h0, hneg]

theorem fsqrt_of_zero {a : Word} (h : isZero a = true) : fsqrt a = a := by
  simp [fsqrt, isNaN_of_isFinite a (isFinite_of_isZero a h), h]

theorem fsqrt_of_inf {a : Word} (h : isInf a = true) (hneg : fNeg a = false) : fsqrt a = a := by
  simp [fsqrt, isNaN_of_isInf a h, isZero_of_isInf h, h, hneg]

theorem fNeg_fsqrt {a : Word} (ha : isFinite a = true) (hneg : fNeg a = false) : fNeg (fsqrt a) = false := by
  cases h0 : isZero a with
  | true => rw [fsqrt_of_zero h0, hneg]
  | false => rw [fsqrt_of_finite ha hneg h0, fNeg_fPack_roundNearest]

/-- Settles O54: clause by clause. -/
theorem specialOperandsFollowIeee : Obligations.SpecialOperandsFollowIeee := by
  refine ⟨fun a b => special_nan, fun a b => special_inf_inf, fun a b ha hb => ?_, fun a b => special_div_by_zero,
    fun a b => special_inf_finite, fun a b ha hb => ?_, fun a b => special_finite, fun a b => ⟨rfl, rfl⟩, fun a h => ?_,
    fun a h => ?_, fun a => fNeg_fsqrt, fun a => ⟨fNeg_fneg a, fMag_fneg a⟩⟩
  · rw [(fmul_inf_zero ha hb).1, (fmul_inf_zero ha hb).2]
    exact ⟨quietNaN_nanOf _ _ _, quietNaN_nanOf _ _ _⟩
  · rw [(fmul_inf ha (isNaN_of_isInf b hb) (isZero_of_isInf hb)).1]
    exact ⟨isInf_fPack _, fNeg_fPack_infMag _, compare_inf_inf ha hb⟩
  · rw [fsqrt_of_invalid h]
    exact quietNaN_nanOf _ _ _
  · exact h.elim fsqrt_of_zero fun ⟨hinf, hneg⟩ => fsqrt_of_inf hinf hneg

end Sys2Proof.Machine

/-! R8, R122 to R124: the elementary functions, the effective frequency and the linear gain. -/

namespace Sys2Proof.Machine

open Sys2Proof Sys2Proof.Claims

/-! Words between two bounds. -/

theorem not_nan_of_fle {a b : Word} (h : fle a b = true) : isNaN a = false ∧ isNaN b = false := by
  simp only [fle, Bool.and_eq_true, Bool.not_eq_true'] at h
  exact h.1

/-- A word whose magnitude is at most that of a positive bound lies between the bound and its negative. -/
theorem fle_of_fUnits_le {w lo hi : Word} (hw : isNaN w = false) (hlo : isNaN lo = false) (hhi : isNaN hi = false)
    (hbelow : fInt lo ≤ -(fUnits w : Int)) (habove : (fUnits w : Int) ≤ fInt hi) : fle lo w = true ∧ fle w hi = true := by
  have hbound := natAbs_fInt w
  rw [fle_of_not_nan hlo hw, fle_of_not_nan hw hhi, decide_eq_true_eq, decide_eq_true_eq]
  omega

theorem fUnits_le_of_fle {w lo hi : Word} {u : Nat} (h : fle lo w = true) (h' : fle w hi = true)
    (hlo : fInt lo = -(u : Int)) (hhi : fInt hi = u) : fUnits w ≤ u := by
  have hbound := natAbs_fInt w
  rw [fle_of_not_nan (not_nan_of_fle h).1 (not_nan_of_fle h).2, decide_eq_true_eq] at h
  rw [fle_of_not_nan (not_nan_of_fle h').1 (not_nan_of_fle h').2, decide_eq_true_eq] at h'
  omega

/-- A word at least as large as a positive one is positive. -/
theorem fgt_zero_of_fle {lo w : Word} (h : fle lo w = true) (hpos : 0 < fInt lo) : fgt w 0#32 = true := by
  have h0 : fInt 0#32 = 0 := by decide
  obtain ⟨hlo, hw⟩ := not_nan_of_fle h
  rw [fle_of_not_nan hlo hw, decide_eq_true_eq] at h
  rw [fgt, flt_of_not_nan (by decide) hw, decide_eq_true_eq]
  omega

/-- What `pickBetween` answers lies where both its bounds do. -/
theorem pickBetween_mem {lo hi a b : Word} (free : Word) (hlo : fle a lo = true) (hlo' : fle lo b = true)
    (hhi : fle hi b = true) : fle a (pickBetween lo hi free) = true ∧ fle (pickBetween lo hi free) b = true := by
  rcases pickBetween_spec lo hi free with h | ⟨-, h, h'⟩
  · rw [h]; exact ⟨hlo, hlo'⟩
  · exact ⟨fle_trans _ _ _ hlo h, fle_trans _ _ _ h' hhi⟩

/-! Sine and cosine (P1). -/

/-- Both bounds of an enclosure lie in `[-1, 1]`. -/
def InUnit (p : Word × Word) : Prop :=
  (fle wNegOne p.1 = true ∧ fle p.1 wOne = true) ∧ fle wNegOne p.2 = true ∧ fle p.2 wOne = true

theorem fle_unit_of_fUnits_le {w : Word} (hw : isNaN w = false) (h : fUnits w ≤ 2 ^ 149) :
    fle wNegOne w = true ∧ fle w wOne = true := by
  have hlo : fInt wNegOne = -2 ^ 149 := by decide
  have hhi : fInt wOne = 2 ^ 149 := by decide
  exact fle_of_fUnits_le hw (by decide) (by decide) (by omega) (by omega)

theorem inUnit_keepBetween (v v' : Word) : InUnit (keepBetween wNegOne wOne v, keepBetween wNegOne wOne v') :=
  ⟨keepBetween_spec _ _ v (by decide), keepBetween_spec _ _ v' (by decide)⟩

theorem wordInward_spec {x : Word} (hx : isFinite x = true) :
    isNaN (wordInward x) = false ∧ fUnits (wordInward x) ≤ fUnits x := by
  have hmag : fMag x < infMag := of_decide_eq_true hx
  have hsub : fMag x - 1 < infMag := by omega
  refine ⟨isNaN_of_isFinite _ (isFinite_fPack hsub), ?_⟩
  rw [wordInward, fUnits_fPack _ hsub.le, fUnits_eq_magUnits]
  exact magUnits_mono (Nat.sub_le _ _)

theorem inUnit_sinBounds {x : Word} (hx : isFinite x = true) : InUnit (sinBounds x) := by
  have hself := isNaN_of_isFinite x hx
  obtain ⟨hin, hle⟩ := wordInward_spec hx
  unfold sinBounds
  split
  · exact ⟨by decide, by decide⟩
  · split
    · next hsmall =>
      have hx1 := fle_unit_of_fUnits_le hself (hsmall.trans (Nat.pow_le_pow_right two_pos (by decide)))
      have hi1 := fle_unit_of_fUnits_le hin (hle.trans (hsmall.trans (Nat.pow_le_pow_right two_pos (by decide))))
      split
      · exact ⟨hx1, hi1⟩
      · exact ⟨hi1, hx1⟩
    · exact inUnit_keepBetween _ _

theorem inUnit_cosBounds (x : Word) : InUnit (cosBounds x) := by
  unfold cosBounds
  split
  · exact ⟨by decide, by decide⟩
  · exact inUnit_keepBetween _ _

theorem f32Sin_mem {x : Word} (hx : isFinite x = true) : fle wNegOne (f32Sin x) = true ∧ fle (f32Sin x) wOne = true := by
  obtain ⟨⟨hlo, hlo'⟩, -, hhi⟩ := inUnit_sinBounds hx
  rw [f32Sin, if_pos hx]
  exact pickBetween_mem _ hlo hlo' hhi

theorem f32Cos_mem {x : Word} (hx : isFinite x = true) : fle wNegOne (f32Cos x) = true ∧ fle (f32Cos x) wOne = true := by
  obtain ⟨⟨hlo, hlo'⟩, -, hhi⟩ := inUnit_cosBounds x
  rw [f32Cos, if_pos hx]
  exact pickBetween_mem _ hlo hlo' hhi

theorem trig_of_not_finite {x : Word} (hx : isFinite x = false) :
    f32Sin x = nanOf .sin x 0#32 ∧ f32Cos x = nanOf .cos x 0#32 := by
  simp [f32Sin, f32Cos, hx]

/-! Powers of ten (P2, P3). -/

theorem f32Exp10_of_zero {x : Word} (h : isZero x = true) : f32Exp10 x = wOne := by
  have hfin := isFinite_of_isZero x h
  simp [f32Exp10, isNaN_of_isFinite x hfin, isInf_of_isFinite x hfin, h]

theorem f32Exp10_of_finite {x : Word} (hx : isFinite x = true) (h0 : isZero x = false) :
    f32Exp10 x = pickPositive (exp10Bounds x).1 (exp10Bounds x).2 (Config.exp10Free x) := by
  simp [f32Exp10, isNaN_of_isFinite x hx, isInf_of_isFinite x hx, h0]

/-- A word that is no NaN and has no sign. -/
def NonNeg (w : Word) : Prop := isNaN w = false ∧ fNeg w = false

theorem nonNeg_fPack {m : Nat} (h : m ≤ infMag) : NonNeg (fPack false m) := by
  refine ⟨?_, fNeg_fPack _ _ (h.trans_lt infMag_lt)⟩
  rw [isNaN, fMag_fPack _ _ (h.trans_lt infMag_lt), decide_eq_false (Nat.not_lt.2 h)]

theorem nonNeg_keepBetween {lo hi w : Word} (hlo : NonNeg lo) (hhi : NonNeg hi) (hw : NonNeg w) :
    NonNeg (keepBetween lo hi w) := by
  unfold keepBetween
  split
  · split
    · exact hw
    · exact hhi
  · exact hlo

theorem fNeg_and_signMask (w : Word) : fNeg (w &&& 0x7FFFFFFF#32) = false := by
  have h : (0x7FFFFFFF#32).msb = false := by decide
  rw [fNeg, BitVec.msb_and, h, Bool.and_false]

/-- `pickPositive` answers its lower bound, or a word without a sign between its bounds. -/
theorem pickPositive_cases (lo hi free : Word) :
    pickPositive lo hi free = lo ∨ (NonNeg (pickPositive lo hi free) ∧ fle lo (pickPositive lo hi free) = true ∧
      fle (pickPositive lo hi free) hi = true) := by
  unfold pickPositive
  simp only
  split
  · next h =>
    obtain ⟨hlo, hhi⟩ := Bool.and_eq_true_iff.1 h
    exact .inr ⟨⟨(not_nan_of_fle hlo).2, fNeg_and_signMask free⟩, hlo, hhi⟩
  · exact .inl rfl

theorem nonNeg_exp10Bounds (x : Word) : NonNeg (exp10Bounds x).1 := by
  have hmag : NonNeg (fPack false (exp10Mags x).1) := nonNeg_fPack (roundDown_le _ _)
  unfold exp10Bounds
  split
  · exact nonNeg_fPack le_rfl
  · split
    · exact ⟨by decide, by decide⟩
    · simp only
      split
      · exact nonNeg_keepBetween ⟨by decide, by decide⟩ ⟨by decide, by decide⟩ hmag
      · exact hmag

theorem nonNeg_f32Exp10 {x : Word} (hx : isFinite x = true) : NonNeg (f32Exp10 x) := by
  cases h0 : isZero x with
  | true => rw [f32Exp10_of_zero h0]; exact ⟨by decide, by decide⟩
  | false =>
    rw [f32Exp10_of_finite hx h0]
    rcases pickPositive_cases (exp10Bounds x).1 (exp10Bounds x).2 (Config.exp10Free x) with h | ⟨h, -⟩
    · rw [h]; exact nonNeg_exp10Bounds x
    · exact h

/-- Up to three quarters in magnitude the power of ten is kept in `0.125 … 8.0` (P3). -/
theorem f32Exp10_mem {x : Word} (hx : isFinite x = true) (hsmall : fUnits x ≤ 3 * 2 ^ 147) :
    fle 0x3E000000#32 (f32Exp10 x) = true ∧ fle (f32Exp10 x) 0x41000000#32 = true := by
  cases h0 : isZero x with
  | true => rw [f32Exp10_of_zero h0]; decide
  | false =>
    have hbound := natAbs_fInt x
    have hkeep (w : Word) := keepBetween_spec 0x3E000000#32 0x41000000#32 w (by decide)
    have hbounds : exp10Bounds x = (keepBetween 0x3E000000#32 0x41000000#32 (fPack false (exp10Mags x).1),
        keepBetween 0x3E000000#32 0x41000000#32 (fPack false (exp10Mags x).2)) := by
      rw [exp10Bounds, if_neg (by omega), if_neg (by omega)]
      simp only
      rw [if_pos (by omega)]
    rw [f32Exp10_of_finite hx h0, hbounds]
    generalize fPack false (exp10Mags x).1 = lo
    generalize fPack false (exp10Mags x).2 = hi
    simp only
    rcases pickPositive_cases (keepBetween 0x3E000000#32 0x41000000#32 lo) (keepBetween 0x3E000000#32 0x41000000#32 hi)
        (Config.exp10Free x) with h | ⟨-, hle, hge⟩
    · rw [h]; exact hkeep lo
    · exact ⟨fle_trans _ _ _ (hkeep lo).1 hle, fle_trans _ _ _ hge (hkeep hi).2⟩

theorem f32Exp10_positive {x : Word} (hx : isFinite x = true) (hsmall : fUnits x ≤ 3 * 2 ^ 147) :
    isFinite (f32Exp10 x) = true ∧ fgt (f32Exp10 x) 0#32 = true := by
  obtain ⟨hlo, hhi⟩ := f32Exp10_mem hx hsmall
  exact ⟨isFinite_of_fle_fle (by decide) (by decide) hlo hhi, fgt_zero_of_fle hlo (by decide)⟩

/-- Settles O55: from the bounds each function is kept in. -/
theorem elementaryFunctionsKeepTheirProperties : Obligations.ElementaryFunctionsKeepTheirProperties := by
  refine ⟨fun x hx => ?_, f32Exp10_of_zero (by decide), f32Exp10_of_zero (by decide), fun x hx => nonNeg_f32Exp10 hx,
    fun x hlo hhi => ?_, fun x hx => ?_, fun x hx => ?_⟩
  · obtain ⟨hs, hs'⟩ := f32Sin_mem hx
    obtain ⟨hc, hc'⟩ := f32Cos_mem hx
    exact ⟨hs, hs', hc, hc'⟩
  · exact f32Exp10_positive (isFinite_of_fle_fle (by decide) (by decide) hlo hhi)
      (fUnits_le_of_fle hlo hhi (by decide) (by decide))
  · have hnot : isFinite x = false := by
      by_contra hfin
      simp [isNaN_of_isFinite x (by simpa using hfin)] at hx
    have hexp : f32Exp10 x = nanOf .exp10 x 0#32 := by simp [f32Exp10, hx]
    rw [(trig_of_not_finite hnot).1, (trig_of_not_finite hnot).2, hexp]
    exact ⟨quietNaN_nanOf _ _ _, quietNaN_nanOf _ _ _, quietNaN_nanOf _ _ _⟩
  · have hnot : isFinite x = false := by
      by_contra hfin
      simp [isInf_of_isFinite x (by simpa using hfin)] at hx
    rw [(trig_of_not_finite hnot).1, (trig_of_not_finite hnot).2]
    exact ⟨quietNaN_nanOf _ _ _, quietNaN_nanOf _ _ _⟩

/-! The linear gain (R123, R124). -/

/-- The clamped gain is at most 15 dB in magnitude. -/
theorem effGain_spec (w : Word) : isFinite (effGain w) = true ∧ fUnits (effGain w) ≤ 15 * 2 ^ 149 := by
  obtain ⟨hfin, hlo, hhi, -⟩ :=
    clampGivesAFiniteValueInRange w 0xC1700000#32 0x41700000#32 (by decide) (by decide) (by decide)
  exact ⟨hfin, fUnits_le_of_fle hlo hhi (by decide) (by decide)⟩

/-- A twentieth of at most 15 is at most three quarters. -/
theorem fdiv_twenty_spec {g : Word} (hg : isFinite g = true) (hle : fUnits g ≤ 15 * 2 ^ 149) :
    isFinite (fdiv g 0x41A00000#32) = true ∧ fUnits (fdiv g 0x41A00000#32) ≤ 3 * 2 ^ 147 := by
  have htwenty : fUnits 0x41A00000#32 = 20 * 2 ^ 149 := by decide
  have hthree : magUnits 0x3F400000 = 3 * 2 ^ 147 := by decide
  have hround : roundNearest (fUnits g * 2 ^ 149) (fUnits 0x41A00000#32) ≤ 0x3F400000 := by
    refine (Nat.min_le_left _ _).trans (roundMag_le_of_le ?_ ?_)
    · rw [htwenty]; positivity
    · rw [htwenty, hthree]
      omega
  rw [fdiv_of_finite hg (by decide) (by decide)]
  refine ⟨isFinite_fPack (hround.trans_lt (by decide)), ?_⟩
  rw [fUnits_fPack _ (roundNearest_le _ _), ← hthree]
  exact magUnits_mono hround

/-- Settles O45: the exponent is at most three quarters in magnitude. -/
theorem linearGainIsFiniteAndPositive : Obligations.LinearGainIsFiniteAndPositive := by
  refine ⟨fun w => ?_, f32Exp10_of_zero (by decide), f32Exp10_of_zero (by decide)⟩
  obtain ⟨hfin, hle⟩ := effGain_spec w
  obtain ⟨hfin', hle'⟩ := fdiv_twenty_spec hfin hle
  exact f32Exp10_positive hfin' hle'

/-! The effective frequency (R122). -/

theorem freqRange_valid (b : Band) :
    isFinite (freqLo b) = true ∧ isFinite (freqHi b) = true ∧ fle (freqLo b) (freqHi b) = true ∧
      fle 0#32 (freqLo b) = true := by
  cases b <;> decide

/-- For every band but LP the clamp is all: the range of HP starts at its floor of 20 Hz. -/
theorem efffreq_of_ne_lp {b : Band} (hb : b ≠ .lp) (w fs : Word) : efffreq b w fs = clamp w (freqLo b) (freqHi b) := by
  cases b with
  | lp => exact absurd rfl hb
  | ls | p1 | p2 | hs => rfl
  | hp =>
    obtain ⟨hlo, hhi, hle, -⟩ := freqRange_valid .hp
    have hfloor : fge (clamp w (freqLo .hp) (freqHi .hp)) 0x41A00000#32 = true :=
      (fle_clamp_fle hle (isNaN_of_isFinite _ hlo) (isNaN_of_isFinite _ hhi)).1
    simp [efffreq, hfloor]

theorem efffreq_lp_of_fle {w fs : Word} (h : fle (clamp w (freqLo .lp) (freqHi .lp)) (fmul Config.c049 fs) = true) :
    efffreq .lp w fs = clamp w (freqLo .lp) (freqHi .lp) := by
  simp [efffreq, fgt, not_flt_of_fle h]

theorem efffreq_lp_of_flt {w fs : Word} (h : flt (fmul Config.c049 fs) (clamp w (freqLo .lp) (freqHi .lp)) = true) :
    efffreq .lp w fs = fmul Config.c049 fs := by
  simp [efffreq, fgt, h]

/-- A fraction of a positive rate is no NaN and not negative. -/
theorem fle_zero_fmul_c049 {fs : Word} (hfin : isFinite fs = true) (hpos : fgt fs 0#32 = true) :
    fle 0#32 (fmul Config.c049 fs) = true := by
  have hneg : fNeg fs = false := by
    rw [fgt, flt_of_not_nan (by decide) (isNaN_of_isFinite fs hfin), decide_eq_true_eq, show fInt 0#32 = 0 by decide, fInt] at hpos
    by_contra hs
    rw [if_pos (by simpa using hs)] at hpos
    omega
  have hmul : fmul Config.c049 fs = fPack false (roundNearest (fUnits Config.c049 * fUnits fs) (2 ^ 149)) := by
    rw [fmul_of_finite (by decide) hfin, hneg]
    rfl
  obtain ⟨hnan, hsign⟩ := nonNeg_fPack (roundNearest_le (fUnits Config.c049 * fUnits fs) (2 ^ 149))
  rw [hmul, fle_of_not_nan (by decide) hnan, decide_eq_true_eq, show fInt 0#32 = 0 by decide, fInt, hsign]
  exact Int.natCast_nonneg _

/-- The effective frequency of LP is the lower of the clamped word and the fraction of the rate. -/
theorem efffreq_lp_spec {w fs : Word} (hfin : isFinite fs = true) (hpos : fgt fs 0#32 = true) :
    fle 0#32 (efffreq .lp w fs) = true ∧ fle (efffreq .lp w fs) (freqHi .lp) = true ∧
      fle (efffreq .lp w fs) (fmul Config.c049 fs) = true := by
  obtain ⟨hlo, hhi, hle, hzero⟩ := freqRange_valid .lp
  obtain ⟨hge, hle'⟩ := fle_clamp_fle (v := w) hle (isNaN_of_isFinite _ hlo) (isNaN_of_isFinite _ hhi)
  have hlimit := fle_zero_fmul_c049 hfin hpos
  have hnan := (not_nan_of_fle hlimit).2
  rcases fle_total (clamp w (freqLo .lp) (freqHi .lp)) (fmul Config.c049 fs) (not_nan_of_fle hge).2 hnan with h | h
  · rw [efffreq_lp_of_fle h]
    exact ⟨fle_trans _ _ _ hzero hge, hle', h⟩
  · rw [efffreq_lp_of_flt h]
    exact ⟨hlimit, fle_trans _ _ _ (flt_fle _ _ h) hle', fle_refl _ hnan⟩

/-- Settles O44: the clamp of R120 for every band but LP, and the two cases of LP. -/
theorem effectiveFrequencyIsInRange : Obligations.EffectiveFrequencyIsInRange := by
  refine ⟨by decide, fun b w fs hfin hpos => ?_⟩
  obtain ⟨hlo, hhi, hle, hzero⟩ := freqRange_valid b
  obtain ⟨hcfin, hcge, hcle, hcnan, hcbelow, hcabove, hcin⟩ := clampGivesAFiniteValueInRange w (freqLo b) (freqHi b) hlo hhi hle
  refine ⟨fun hb => ?_, efffreq_lp_of_fle, efffreq_lp_of_flt, ?_⟩
  · rw [efffreq_of_ne_lp hb]
    exact ⟨rfl, fun h => h.elim hcnan hcbelow, hcabove⟩
  · by_cases hb : b = .lp
    · subst hb
      obtain ⟨h0, h1, h2⟩ := efffreq_lp_spec (w := w) hfin hpos
      exact ⟨isFinite_of_fle_fle (by decide) hhi h0 h1, h1, h0, fun h => absurd rfl h, fun _ => h2, fun h => absurd rfl h⟩
    · rw [efffreq_of_ne_lp hb]
      exact ⟨hcfin, hcle, fle_trans _ _ _ hzero hcge, fun _ => hcge, fun h => absurd h hb, fun _ => hcin⟩

end Sys2Proof.Machine

/-! R140, R156, R157: sets at 0 dB, identity sets, and NaNs in the filter. -/

namespace Sys2Proof.Machine

open Sys2Proof Sys2Proof.Claims

/-! Operations that are exact. -/

/-- A finite word is its own magnitude rounded. -/
theorem roundNearest_fUnits {a : Word} (ha : isFinite a = true) {num den : Nat} (hden : 0 < den)
    (h : num = fUnits a * den) : roundNearest num den = fMag a :=
  roundNearest_of_eq hden (le_of_lt (of_decide_eq_true ha)) h

/-- The word 1.0 in units. -/
theorem fUnits_one : fUnits 0x3F800000#32 = 2 ^ 149 := by decide

theorem fmul_one_left {a : Word} (ha : isNaN a = false) : fmul 0x3F800000#32 a = a := by
  have hsign : (fNeg 0x3F800000#32 != fNeg a) = fNeg a := Bool.false_bne _
  rcases isFinite_or a with h | h | h
  · rw [fmul_of_finite (by decide) h, hsign, fUnits_one, roundNearest_fUnits h (by positivity) (Nat.mul_comm _ _),
      fPack_fNeg_fMag]
  · rw [(fmul_inf h (by decide) (by decide)).2, bne_comm, hsign, fPack_of_isInf h]
  · rw [ha] at h; cases h

theorem fmul_one_right {a : Word} (ha : isFinite a = true) : fmul a 0x3F800000#32 = a := by
  have hsign : (fNeg a != fNeg 0x3F800000#32) = fNeg a := Bool.bne_false _
  rw [fmul_of_finite ha (by decide), hsign, fUnits_one, roundNearest_fUnits ha (by positivity) rfl, fPack_fNeg_fMag]

theorem fdiv_one_right {a : Word} (ha : isFinite a = true) : fdiv a 0x3F800000#32 = a := by
  have hsign : (fNeg a != fNeg 0x3F800000#32) = fNeg a := Bool.bne_false _
  rw [fdiv_of_finite ha (by decide) (by decide), hsign, fUnits_one, roundNearest_fUnits ha (by positivity) rfl,
    fPack_fNeg_fMag]

theorem fdiv_self {a : Word} (ha : isFinite a = true) (h0 : isZero a = false) : fdiv a a = 0x3F800000#32 := by
  rw [fdiv_of_finite ha ha h0, bne_self_eq_false,
    roundNearest_fUnits (a := 0x3F800000#32) (by decide) (fUnits_pos h0) (by rw [fUnits_one, Nat.mul_comm])]
  decide

theorem natSqrt_mul_self {r : Nat} (h : r * r < 2 ^ 430) : natSqrt (r * r) = r := by
  obtain ⟨hlo, hhi⟩ := natSqrt_spec (r * r) h
  have hle := Nat.mul_self_le_mul_self_iff.1 hlo
  have hlt := Nat.mul_self_lt_mul_self_iff.1 hhi
  omega

theorem natSqrt_two_pow_mul_self {k : Nat} (h : k + k < 430) : natSqrt (2 ^ k * 2 ^ k) = 2 ^ k :=
  natSqrt_mul_self (by simpa only [← pow_add] using pow_lt_pow_right₀ one_lt_two h)

/-- The exact root of `2^298` units. -/
theorem fsqrt_one : fsqrt 0x3F800000#32 = 0x3F800000#32 := by
  have hroot : natSqrt (2 ^ 149 * 2 ^ 149) = 2 ^ 149 := natSqrt_two_pow_mul_self (by decide)
  rw [fsqrt_of_finite (by decide) (by decide) (by decide), doubledRoot, fUnits_one, hroot, if_pos rfl,
    roundNearest_fUnits (a := 0x3F800000#32) (by decide) two_pos (by rw [fUnits_one]; omega)]
  decide

/-- A sign may be moved from one factor to the other. -/
theorem fmul_fneg_comm {a b : Word} (ha : isFinite a = true) (hb : isFinite b = true) :
    fmul a (fneg b) = fmul (fneg a) b := by
  rw [fmul_of_finite ha (by simpa using hb), fmul_of_finite (by simpa using ha) hb, fNeg_fneg, fNeg_fneg, fUnits_fneg,
    fUnits_fneg]
  cases fNeg a <;> cases fNeg b <;> rfl

theorem fInt_eq_zero_iff (a : Word) : fInt a = 0 ↔ isZero a = true := by
  have hbound := natAbs_fInt a
  rw [isZero_iff_fUnits]
  omega

/-- A sum whose exact value is that of a finite word that is no zero is that word. -/
theorem addCore_of_fInt_eq (nan : Word) {a b c : Word} (ha : isFinite a = true) (hb : isFinite b = true)
    (hc : isFinite c = true) (h0 : isZero c = false) (h : fInt a + fInt b = fInt c) : addCore nan a b = c := by
  have hne : fInt c ≠ 0 := fun hz => by rw [(fInt_eq_zero_iff c).1 hz] at h0; cases h0
  have hsign : decide (fInt c < 0) = fNeg c := by
    have hpos := fUnits_pos h0
    unfold fInt
    cases fNeg c
    · simp
    · simpa using hpos
  rw [addCore_of_finite nan ha hb, h, if_neg hne, hsign, natAbs_fInt,
    roundNearest_fUnits hc Nat.one_pos (Nat.mul_one _).symm, fPack_fNeg_fMag]

theorem fadd_zero_right {a z : Word} (ha : isFinite a = true) (h0 : isZero a = false) (hz : isZero z = true) :
    fadd a z = a :=
  addCore_of_fInt_eq _ ha (isFinite_of_isZero z hz) ha h0 (by rw [(fInt_eq_zero_iff z).2 hz, add_zero])

theorem fadd_zero_left {a z : Word} (ha : isFinite a = true) (h0 : isZero a = false) (hz : isZero z = true) :
    fadd z a = a :=
  addCore_of_fInt_eq _ (isFinite_of_isZero z hz) ha ha h0 (by rw [(fInt_eq_zero_iff z).2 hz, zero_add])

theorem fsub_zero_right {a z : Word} (ha : isFinite a = true) (h0 : isZero a = false) (hz : isZero z = true) :
    fsub a z = a := by
  have hz' : isZero (fneg z) = true := by simpa using hz
  exact addCore_of_fInt_eq _ ha (isFinite_of_isZero _ hz') ha h0 (by rw [(fInt_eq_zero_iff _).2 hz', add_zero])

theorem fsub_zero_left {a z : Word} (ha : isFinite a = true) (h0 : isZero a = false) (hz : isZero z = true) :
    fsub z a = fneg a :=
  addCore_of_fInt_eq _ (isFinite_of_isZero z hz) (by simpa using ha) (by simpa using ha) (by simpa using h0)
    (by rw [(fInt_eq_zero_iff z).2 hz, zero_add])

/-- A product with a zero is a zero. -/
theorem isZero_fmul_of_zero {a z : Word} (ha : isFinite a = true) (hz : isZero z = true) :
    isZero (fmul z a) = true ∧ isZero (fmul a z) = true := by
  have hu := (isZero_iff_fUnits z).1 hz
  rw [fmul_of_finite (isFinite_of_isZero z hz) ha, fmul_of_finite ha (isFinite_of_isZero z hz), hu, Nat.zero_mul,
    Nat.mul_zero, roundNearest_zero]
  exact ⟨isZero_fPack_zero _, isZero_fPack_zero _⟩

theorem not_nan_addCore {nan a b : Word} (ha : isFinite a = true) (hb : isNaN b = false) : isNaN (addCore nan a b) = false := by
  rcases isFinite_or b with h | h | h
  · rw [addCore_of_finite nan ha h]
    split
    · exact isNaN_of_isFinite _ (isFinite_of_isZero _ (isZero_fPack_zero _))
    · rw [isNaN, fMag_fPack _ _ ((roundNearest_le _ _).trans_lt infMag_lt),
        decide_eq_false (Nat.not_lt.2 (roundNearest_le _ _))]
  · rw [(addCore_inf_finite nan h ha).2]; exact hb
  · rw [hb] at h; cases h

theorem not_nan_fsub {a b : Word} (ha : isFinite a = true) (hb : isNaN b = false) : isNaN (fsub a b) = false :=
  not_nan_addCore ha (by rw [isNaN_fneg]; exact hb)

theorem not_nan_fmul {a b : Word} (ha : isFinite a = true) (hb : isFinite b = true) : isNaN (fmul a b) = false := by
  rw [fmul_of_finite ha hb, isNaN, fMag_fPack _ _ ((roundNearest_le _ _).trans_lt infMag_lt),
    decide_eq_false (Nat.not_lt.2 (roundNearest_le _ _))]

/-! The shapes at gain 1.0 (R140). -/

section

variable {cw : Word} (h0 : isZero cw = false) (hlo : fle 0xBF800000#32 cw = true) (hhi : fle cw 0x3F800000#32 = true)

include hlo hhi

theorem isFinite_cw : isFinite cw = true := isFinite_of_fle_fle (by decide) (by decide) hlo hhi

include h0

/-- Twice `cw` neither overflows nor underflows. -/
theorem fmul_two_cw : isFinite (fmul 0x40000000#32 cw) = true ∧ isZero (fmul 0x40000000#32 cw) = false := by
  have hle : fUnits cw ≤ 2 ^ 149 := fUnits_le_of_fle hlo hhi (by decide) (by decide)
  have hpos := fUnits_pos h0
  have htwo : fUnits 0x40000000#32 = 2 * 2 ^ 149 := by decide
  have hmax : magUnits 0x40000000 = 2 * 2 ^ 149 := by decide
  have hone : magUnits 1 = 1 := by decide
  have hupper : roundMag (fUnits 0x40000000#32 * fUnits cw) (2 ^ 149) ≤ 0x40000000 := by
    refine roundMag_le_of_le (by positivity) ?_
    rw [htwo, hmax]
    omega
  have hlower : 1 ≤ roundMag (fUnits 0x40000000#32 * fUnits cw) (2 ^ 149) := by
    refine le_roundMag_of_le (by positivity) ?_
    rw [htwo, hone]
    omega
  rw [fmul_of_finite (by decide) (isFinite_cw hlo hhi), roundNearest_eq, Nat.min_eq_left (hupper.trans (by decide))]
  refine ⟨isFinite_fPack (hupper.trans_lt (by decide)), ?_⟩
  rw [isZero, fMag_fPack _ _ (hupper.trans_lt (by decide)), decide_eq_false (by omega)]

/-- At gain 1.0 the shelves' `p` and `m` are 2.0, `u` and `v` are `-2cw` and `2cw`. -/
theorem shelfTerms_one (alpha : Word) :
    shelfTerms arith32 cw alpha 0x3F800000#32 =
      { a := 0x3F800000#32
        beta := fmul 0x40000000#32 alpha
        p := 0x40000000#32
        m := 0x40000000#32
        u := fneg (fmul 0x40000000#32 cw)
        v := fmul 0x40000000#32 cw } := by
  have hroot := fsqrt_one
  have hap1 : fadd 0x3F800000#32 0x3F800000#32 = 0x40000000#32 := by decide
  have ham1 : fsub 0x3F800000#32 0x3F800000#32 = 0#32 := by decide
  have htwo : fmul 0x40000000#32 0x3F800000#32 = 0x40000000#32 := fmul_one_right (by decide)
  have hzero : isZero (fmul 0#32 cw) = true := (isZero_fmul_of_zero (isFinite_cw hlo hhi) (by decide)).1
  obtain ⟨hfin, hne⟩ := fmul_two_cw h0 hlo hhi
  simp only [shelfTerms, arith32, hroot, hap1, ham1, htwo, fsub_zero_right (a := 0x40000000#32) (by decide) (by decide) hzero,
    fadd_zero_right (a := 0x40000000#32) (by decide) (by decide) hzero, fsub_zero_left (z := 0#32) hfin hne (by decide),
    fadd_zero_left (z := 0#32) hfin hne (by decide)]

/-- The two shelves at gain 1.0 are one set, whose numerator and denominator are the same words. -/
theorem shelf_one {alpha : Word} (ha : isFinite alpha = true)
    (hraw : isFinite (fadd 0x40000000#32 (fmul 0x40000000#32 alpha)) = true)
    (hraw0 : isZero (fadd 0x40000000#32 (fmul 0x40000000#32 alpha)) = false) {sh : Shape} (hsh : sh = .lowShelf ∨ sh = .highShelf) :
    (shapeCoefs arith32 sh cw alpha 0x3F800000#32).b0 = 0x3F800000#32 ∧
      (shapeCoefs arith32 sh cw alpha 0x3F800000#32).b1 = (shapeCoefs arith32 sh cw alpha 0x3F800000#32).a1 ∧
      (shapeCoefs arith32 sh cw alpha 0x3F800000#32).b2 = (shapeCoefs arith32 sh cw alpha 0x3F800000#32).a2 := by
  have hfin := (fmul_two_cw h0 hlo hhi).1
  have hdiff : isNaN (fsub 0x40000000#32 (fmul 0x40000000#32 alpha)) = false :=
    not_nan_fsub (by decide) (not_nan_fmul (by decide) ha)
  have htwo : fmul 0x40000000#32 0x3F800000#32 = 0x40000000#32 := fmul_one_right (by decide)
  have hnegTwo : fmul 0xC0000000#32 0x3F800000#32 = 0xC0000000#32 := fmul_one_right (by decide)
  have hmove : fmul 0x40000000#32 (fneg (fmul 0x40000000#32 cw)) = fmul 0xC0000000#32 (fmul 0x40000000#32 cw) :=
    fmul_fneg_comm (by decide) hfin
  rcases hsh with rfl | rfl
  · simp only [shapeCoefs, lowShelf, shelfTerms_one h0 hlo hhi, normalise]
    simp only [arith32, fmul_one_left (isNaN_of_isFinite _ hraw), fdiv_self hraw hraw0, fmul_one_left hdiff, htwo, hmove,
      and_self]
  · simp only [shapeCoefs, highShelf, shelfTerms_one h0 hlo hhi, normalise]
    simp only [arith32, fmul_one_left (isNaN_of_isFinite _ hraw), fdiv_self hraw hraw0, fmul_one_left hdiff, hnegTwo, hmove,
      and_self]

end

/-- The peak at gain 1.0: the products and quotients of `alpha` with `A` are `alpha`. -/
theorem peaking_one (cw : Word) {alpha : Word} (ha : isFinite alpha = true)
    (hraw : isFinite (fadd 0x3F800000#32 alpha) = true) (hraw0 : isZero (fadd 0x3F800000#32 alpha) = false) :
    (peaking arith32 cw alpha 0x3F800000#32).b0 = 0x3F800000#32 ∧
      (peaking arith32 cw alpha 0x3F800000#32).b1 = (peaking arith32 cw alpha 0x3F800000#32).a1 ∧
      (peaking arith32 cw alpha 0x3F800000#32).b2 = (peaking arith32 cw alpha 0x3F800000#32).a2 := by
  have hroot := fsqrt_one
  simp only [peaking, normalise, arith32, hroot, fmul_one_right ha, fdiv_one_right ha, fdiv_self hraw hraw0, and_self]

/-- Settles O52: the shelves through their common terms, the peak through `alpha`. -/
theorem zeroDecibelSetsAreIdentities : Obligations.ZeroDecibelSetsAreIdentities := by
  intro sh cw alpha hsh h0 hlo hhi ha hraw
  rcases hsh with rfl | rfl | rfl
  · simp only [reduceCtorEq, if_false] at hraw
    exact shelf_one h0 hlo hhi ha hraw.1 hraw.2 (.inl rfl)
  · simp only [reduceCtorEq, if_false] at hraw
    exact shelf_one h0 hlo hhi ha hraw.1 hraw.2 (.inr rfl)
  · simp only [if_true] at hraw
    exact peaking_one cw ha hraw.1 hraw.2

/-! Identity sets (R156). -/

/-- Adding a zero keeps the value. -/
theorem fadd_zero_value {a z : Word} (ha : isFinite a = true) (hz : isZero z = true) :
    isFinite (fadd a z) = true ∧ fInt (fadd a z) = fInt a := by
  cases h0 : isZero a with
  | false => rw [fadd_zero_right ha h0 hz]; exact ⟨ha, rfl⟩
  | true =>
    have hsum : fInt a + fInt z = 0 := by rw [(fInt_eq_zero_iff a).2 h0, (fInt_eq_zero_iff z).2 hz, add_zero]
    have hpack : isZero (fadd a z) = true := by
      rw [fadd, addCore_of_sum_zero _ ha (isFinite_of_isZero z hz) hsum]
      exact isZero_fPack_zero _
    exact ⟨isFinite_of_isZero _ hpack, by rw [(fInt_eq_zero_iff _).2 hpack, (fInt_eq_zero_iff a).2 h0]⟩

/-- Finite words of one value are one word or two zeros. -/
theorem eq_or_zeros_of_fInt_eq {a b : Word} (h : fInt a = fInt b) : a = b ∨ (isZero a = true ∧ isZero b = true) := by
  cases h0 : isZero a with
  | true => exact .inr ⟨rfl, (fInt_eq_zero_iff b).1 (h ▸ (fInt_eq_zero_iff a).2 h0)⟩
  | false =>
    have hpos := fUnits_pos h0
    have hunits : fUnits a = fUnits b := by rw [← natAbs_fInt, ← natAbs_fInt, h]
    have hmag : fMag a = fMag b := magUnits_strictMono.injective hunits
    have hsign : fNeg a = fNeg b := by
      unfold fInt at h
      rw [← hunits] at h
      cases ha : fNeg a <;> cases hb : fNeg b <;> simp [ha, hb] at h ⊢ <;> omega
    exact .inl (by rw [← fPack_fNeg_fMag a, ← fPack_fNeg_fMag b, hsign, hmag])

/-- A product that is finite has finite factors. -/
theorem isFinite_of_fmul {a b : Word} (h : isFinite (fmul a b) = true) (hb : isFinite b = true) : isFinite a = true := by
  rcases isFinite_or a with ha | ha | ha
  · exact ha
  · exfalso
    cases h0 : isZero b with
    | true =>
      rw [(fmul_inf_zero ha h0).1] at h
      have hnan := isNaN_of_isFinite _ h
      rw [isNaN_nanOf] at hnan
      cases hnan
    | false =>
      rw [(fmul_inf ha (isNaN_of_isFinite b hb) h0).1] at h
      have hinf := isInf_of_isFinite _ h
      rw [isInf_fPack] at hinf
      cases hinf
  · rw [fmul_of_nan a b (.inl ha)] at h
    have hnan := isNaN_of_isFinite _ h
    rw [isNaN_nanOf] at hnan
    cases hnan

/-- The difference of the products of one coefficient with two words of one value is a zero. -/
theorem isZero_fsub_fmul {c x y : Word} (hx : isFinite x = true) (hprod : isFinite (fmul c x) = true)
    (hval : fInt x = fInt y) : isZero (fsub (fmul c x) (fmul c y)) = true := by
  have hc := isFinite_of_fmul hprod hx
  have hsame : fInt (fmul c x) = fInt (fmul c y) ∧ isFinite (fmul c y) = true := by
    rcases eq_or_zeros_of_fInt_eq hval with rfl | ⟨hx0, hy0⟩
    · exact ⟨rfl, hprod⟩
    · have hpx := (isZero_fmul_of_zero hc hx0).2
      have hpy := (isZero_fmul_of_zero hc hy0).2
      exact ⟨by rw [(fInt_eq_zero_iff _).2 hpx, (fInt_eq_zero_iff _).2 hpy], isFinite_of_isZero _ hpy⟩
  rw [fsub, addCore_of_sum_zero _ hprod (by simpa using hsame.2) (by rw [fInt_fneg, ← hsame.1, add_neg_cancel])]
  exact isZero_fPack_zero _

theorem isZero_fadd_zeros {a b : Word} (ha : isZero a = true) (hb : isZero b = true) : isZero (fadd a b) = true := by
  have hval := (fadd_zero_value (isFinite_of_isZero a ha) hb).2
  rw [(fInt_eq_zero_iff a).2 ha] at hval
  exact (fInt_eq_zero_iff _).1 hval

/-- One BQSTEP of an identity set with a zero pair. -/
theorem bqstep_identity {c : CoefSet Word} {d : Delay Word} {x : Word} (hb0 : c.b0 = 0x3F800000#32) (hb1 : c.b1 = c.a1)
    (hb2 : c.b2 = c.a2) (hs1 : isZero d.s1 = true) (hs2 : isZero d.s2 = true) (hx : isFinite x = true)
    (h1 : isFinite (fmul c.b1 x) = true) (h2 : isFinite (fmul c.b2 x) = true) :
    (fInt (bqstep arith32 c d x).1 = fInt x ∧ isFinite (bqstep arith32 c d x).1 = true) ∧
      isZero (bqstep arith32 c d x).2.s1 = true ∧ isZero (bqstep arith32 c d x).2.s2 = true := by
  obtain ⟨hfin, hval⟩ := fadd_zero_value hx hs1
  simp only [bqstep, arith32, hb0, fmul_one_left (isNaN_of_isFinite x hx), ← hb1, ← hb2]
  exact ⟨⟨hval, hfin⟩, isZero_fadd_zeros (isZero_fsub_fmul hx h1 hval.symm) hs2, isZero_fsub_fmul hx h2 hval.symm⟩

/-- Settles O56: sample by sample. -/
theorem identitySetPassesFiniteSamples : Obligations.IdentitySetPassesFiniteSamples := by
  intro c d xs hb0 hb1 hb2
  induction xs generalizing d with
  | nil => exact fun hs1 hs2 _ => ⟨rfl, by simp [bqList], hs1, hs2⟩
  | cons x xs ih =>
    intro hs1 hs2 hxs
    obtain ⟨hx, h1, h2⟩ := hxs x List.mem_cons_self
    obtain ⟨⟨hval, hfin⟩, hs1', hs2'⟩ := bqstep_identity hb0 hb1 hb2 hs1 hs2 hx h1 h2
    obtain ⟨hmap, hall, hpair⟩ := ih _ hs1' hs2' fun y hy => hxs y (List.mem_cons_of_mem _ hy)
    refine ⟨?_, ?_, hpair⟩
    · rw [bqList_cons_fst, List.map_cons, List.map_cons, hval, hmap]
    · rw [bqList_cons_fst]
      exact List.forall_mem_cons.2 ⟨hfin, hall⟩

/-! NaNs in the filter (R157). -/

section

variable {a b : Word} (h : isNaN a = true ∨ isNaN b = true)

include h

theorem isNaN_fadd : isNaN (fadd a b) = true := by rw [fadd_of_nan a b h, isNaN_nanOf]

theorem isNaN_fsub : isNaN (fsub a b) = true := by rw [fsub_of_nan a b h, isNaN_nanOf]

theorem isNaN_fmul : isNaN (fmul a b) = true := by rw [fmul_of_nan a b h, isNaN_nanOf]

end

/-- A NaN output comes back to both delay registers. -/
theorem bqstep_of_nan_output {c : CoefSet Word} {d : Delay Word} {x : Word}
    (h : isNaN (bqstep arith32 c d x).1 = true) :
    isNaN (bqstep arith32 c d x).2.s1 = true ∧ isNaN (bqstep arith32 c d x).2.s2 = true :=
  ⟨isNaN_fadd (.inl (isNaN_fsub (.inr (isNaN_fmul (.inr h))))), isNaN_fsub (.inr (isNaN_fmul (.inr h)))⟩

theorem bqstep_of_nan_s1 {c : CoefSet Word} {d : Delay Word} (h : isNaN d.s1 = true) (x : Word) :
    isNaN (bqstep arith32 c d x).1 = true := isNaN_fadd (.inr h)

theorem bqstep_of_nan_s2 {c : CoefSet Word} {d : Delay Word} (h : isNaN d.s2 = true) (x : Word) :
    isNaN (bqstep arith32 c d x).2.s1 = true := isNaN_fadd (.inr h)

theorem bqstep_of_nan_sample {c : CoefSet Word} (d : Delay Word) {x : Word} (h : isNaN x = true) :
    isNaN (bqstep arith32 c d x).1 = true := isNaN_fadd (.inl (isNaN_fmul (.inr h)))

theorem bqList_of_nan_s1 (c : CoefSet Word) (d : Delay Word) (xs : List Word) (h : isNaN d.s1 = true) :
    (∀ y ∈ (bqList arith32 c d xs).1, isNaN y = true) ∧ isNaN (bqList arith32 c d xs).2.s1 = true := by
  induction xs generalizing d with
  | nil => exact ⟨by simp [bqList], h⟩
  | cons x xs ih =>
    have hout := bqstep_of_nan_s1 (c := c) h x
    obtain ⟨hall, hpair⟩ := ih _ (bqstep_of_nan_output hout).1
    rw [bqList_cons_fst]
    exact ⟨List.forall_mem_cons.2 ⟨hout, hall⟩, hpair⟩

/-- Settles O57: register by register. -/
theorem nanInTheDelayStateStays : Obligations.NanInTheDelayStateStays := fun c d xs =>
  ⟨bqList_of_nan_s1 c d xs, bqstep_of_nan_s2, fun _ hx =>
    ⟨bqstep_of_nan_sample d hx, bqstep_of_nan_output (bqstep_of_nan_sample d hx)⟩⟩

end Sys2Proof.Machine
